-- ==== Sys2Proof/Word.lean ====
section
/-! DEFINITION. The widths of OWO-CORE: bytes of LMEM, 32-bit registers, and bit strings (00_scope R6, R7, R9). -/

namespace Sys2Proof

/-- One byte of LMEM (R81). -/
abbrev Byte := BitVec 8

/-- A 32-bit register, symbol or memory word; unsigned (R6, R7). -/
abbrev Word := BitVec 32

/-- A bit string, first digit first (R9). -/
abbrev Bits := List Bool

end Sys2Proof
end

