-- ==== Sys2Proof/Config.lean ====
section
/-! DEFINITION. What an implementation of OWO-CORE fixes (00_scope R6), and the values the spec leaves open
(93_implementation_defined U11-U14) as constants without a body. -/

namespace Sys2Proof.Config

/-- The implementation parameters of R6. State carries them, so that every statement holds for every choice
(entry 2). -/
structure Params where
  /-- LMEM_SIZE: bytes of local memory, read back in CAP_LMEM. -/
  lmemSize : Nat
  /-- MAX_SYMBOLS: most distinct symbols in one codebook, read back in CAP_SYMBOLS. -/
  maxSymbols : Nat
deriving DecidableEq, Repr

/-- The defaults of R6: LMEM_SIZE = 2^18, MAX_SYMBOLS = 16384. -/
def Params.default : Params := { lmemSize := 2 ^ 18, maxSymbols := 16384 }

/-- MAX_CODE_LEN, the longest Huffman code in bits; fixed (R6, D25). -/
def maxCodeLen : Nat := 32

/-- NONE, the "no next symbol" sentinel of a token; fixed (R6, R250, D32). -/
def noneSymbol : Nat := 256

/-- FREE VALUE: what LMEM byte `a` holds at power-on (R82, U14: "any value"; entry 1). No body: nothing can be
proved of it. -/
opaque powerOnByte : Nat → Byte

/-- FREE VALUE: what draw number `n` leaves at LMEM offset `a` when a rule makes that byte unspecified (R326, R360,
R362, D12, U11-U13: "any value (per byte, drawn independently)"; entry 6). No body. -/
opaque freeByte : Nat → Nat → Byte

end Sys2Proof.Config
end

