-- ==== Sys2Proof/Syntax.lean ====
section
/-! DEFINITION. The commands of OWO-CORE, one constructor per row of spec/opcode_table.json (30_encoding R112), and
the fields of a raw command word (R110). -/

namespace Sys2Proof

/-- A command (R112). The argument is flag F0 where R113 defines one: `p` the suffix `.P` (the prefix byte), `w` the
suffix `.W` (32-bit word symbols). Every other operand comes from the registers (R111). -/
inductive Instr where
  /-- NOP (R145). -/
  | nop
  /-- BPACK / BPACK.P (R163). -/
  | bpack (p : Bool)
  /-- BUNPACK / BUNPACK.P (R165). -/
  | bunpack (p : Bool)
  /-- VWRITE (R183). -/
  | vwrite
  /-- VREAD (R185). -/
  | vread
  /-- HBUILD / HBUILD.W (R212). -/
  | hbuild (w : Bool)
  /-- HENC / HENC.W (R214). -/
  | henc (w : Bool)
  /-- HDEC (R216). -/
  | hdec
  /-- HSER (R218). -/
  | hser
  /-- HDESER (R220). -/
  | hdeser
  /-- HCODE (R222). -/
  | hcode
  /-- LZCOMP (R256). -/
  | lzcomp
  /-- LZDEC (R259). -/
  | lzdec
  /-- CCOMP (R290). -/
  | ccomp
  /-- CDEC (R293). -/
  | cdec
deriving DecidableEq, Repr

/-- The three fields of a command word (R110): OPCODE [7:0], F0 [8], RES [31:9]. -/
structure CommandFields where
  opcode : BitVec 8
  f0 : Bool
  res : BitVec 23
deriving DecidableEq, Repr

end Sys2Proof
end

