-- ==== Sys2Proof/WellFormed.lean ====
section
/-! DEFINITION. Which command words are legal (30_encoding R114) and which parameters an implementation may have
(00_scope R6). Every term of Instr is legal by construction: it has no reserved bits, and a flag only where R113 defines
one. -/

namespace Sys2Proof

/-- The opcodes of R112's map; every other opcode is reserved. -/
def assignedOpcodes : List (BitVec 8) :=
  [0x00, 0x10, 0x11, 0x20, 0x21, 0x30, 0x31, 0x32, 0x33, 0x34, 0x35, 0x40, 0x41, 0x50, 0x51]

/-- The opcodes for which R113 defines flag F0: BPACK, BUNPACK, HBUILD, HENC. -/
def flaggedOpcodes : List (BitVec 8) := [0x10, 0x11, 0x30, 0x31]

/-- R114, first condition: OPCODE is in the map. -/
def CommandFields.opcodeAssigned (f : CommandFields) : Bool := assignedOpcodes.contains f.opcode

/-- R114, second condition: bits [31:9] are 0. -/
def CommandFields.reservedZero (f : CommandFields) : Bool := f.res == 0

/-- R114, third condition: F0 = 1 only where R113 defines it. -/
def CommandFields.flagAllowed (f : CommandFields) : Bool := !f.f0 || flaggedOpcodes.contains f.opcode

/-- A command word is legal when none of R114's conditions holds. -/
def CommandFields.wellFormed (f : CommandFields) : Bool :=
  f.opcodeAssigned && f.reservedZero && f.flagAllowed

/-- R6: LMEM_SIZE is a power of two in [2^12, 2^24]. -/
def Config.Params.lmemSizeLegal (p : Config.Params) : Bool :=
  (List.range 13).any fun k => p.lmemSize == 2 ^ (12 + k)

/-- R6: MAX_SYMBOLS lies in [512, 2^20]. -/
def Config.Params.maxSymbolsLegal (p : Config.Params) : Bool :=
  512 ≤ p.maxSymbols && p.maxSymbols ≤ 2 ^ 20

/-- The parameters an implementation may have (R6). -/
def Config.Params.wellFormed (p : Config.Params) : Bool := p.lmemSizeLegal && p.maxSymbolsLegal

end Sys2Proof
end

