-- ==== Sys2Proof/Decode.lean ====
section
/-! DEFINITION. Decoding and encoding a command word (30_encoding R110-R114, R124): the opcode table as rows of mask
and match, a decoder that is total and refuses by name, and the encoder. -/

namespace Sys2Proof

/-- One row of spec/opcode_table.json: a word `w` selects it iff `w AND mask = match` (R124). `build` makes the command
from flag F0. -/
structure Row where
  mask : Word
  pattern : Word
  build : Bool → Instr

/-- The mask of a row without a flag (R124). -/
def plainMask : Word := 0xFFFFFFFF

/-- The mask of a row whose F0 is a field (R124: BPACK, BUNPACK, HBUILD, HENC). -/
def flagMask : Word := 0xFFFFFEFF

/-- spec/opcode_table.json, row by row (R112, R113, R124). -/
def opcodeTable : List Row :=
  [ ⟨plainMask, 0x00000000, fun _ => .nop⟩,
    ⟨flagMask,  0x00000010, fun p => .bpack p⟩,
    ⟨flagMask,  0x00000011, fun p => .bunpack p⟩,
    ⟨plainMask, 0x00000020, fun _ => .vwrite⟩,
    ⟨plainMask, 0x00000021, fun _ => .vread⟩,
    ⟨flagMask,  0x00000030, fun w => .hbuild w⟩,
    ⟨flagMask,  0x00000031, fun w => .henc w⟩,
    ⟨plainMask, 0x00000032, fun _ => .hdec⟩,
    ⟨plainMask, 0x00000033, fun _ => .hser⟩,
    ⟨plainMask, 0x00000034, fun _ => .hdeser⟩,
    ⟨plainMask, 0x00000035, fun _ => .hcode⟩,
    ⟨plainMask, 0x00000040, fun _ => .lzcomp⟩,
    ⟨plainMask, 0x00000041, fun _ => .lzdec⟩,
    ⟨plainMask, 0x00000050, fun _ => .ccomp⟩,
    ⟨plainMask, 0x00000051, fun _ => .cdec⟩ ]

/-- Row selection (R124). -/
def Row.selects (r : Row) (w : Word) : Bool := w &&& r.mask == r.pattern

/-- Why a command word is illegal (R114). Each leads to the error BadCommand. -/
inductive Reject where
  /-- One of bits [31:9] is 1. -/
  | reservedBits
  /-- OPCODE is not in R112's map. -/
  | unknownOpcode
  /-- F0 = 1 on an opcode for which R113 defines no flag. -/
  | flagNotDefined
deriving DecidableEq, Repr

/-- The fields of a word (R110). -/
def fieldsOf (w : Word) : CommandFields :=
  { opcode := w.extractLsb' 0 8, f0 := w.getLsbD 8, res := w.extractLsb' 9 23 }

/-- The name under which a word that selects no row is refused (R114). -/
def rejectReason (w : Word) : Reject :=
  if !(fieldsOf w).reservedZero then .reservedBits
  else if !(fieldsOf w).opcodeAssigned then .unknownOpcode
  else .flagNotDefined

/-- The decoder: always exactly one word (R110, R123), the row it selects (R124), or a refusal by name (R114). -/
def decode (w : Word) : Except Reject Instr :=
  match opcodeTable.find? (fun r => r.selects w) with
  | some r => .ok (r.build (w.getLsbD 8))
  | none => .error (rejectReason w)

/-- OPCODE of a command (R112). -/
def Instr.opcode : Instr → BitVec 8
  | .nop => 0x00
  | .bpack _ => 0x10
  | .bunpack _ => 0x11
  | .vwrite => 0x20
  | .vread => 0x21
  | .hbuild _ => 0x30
  | .henc _ => 0x31
  | .hdec => 0x32
  | .hser => 0x33
  | .hdeser => 0x34
  | .hcode => 0x35
  | .lzcomp => 0x40
  | .lzdec => 0x41
  | .ccomp => 0x50
  | .cdec => 0x51

/-- Flag F0 of a command (R113); 0 where none is defined. -/
def Instr.f0 : Instr → Bool
  | .bpack p => p
  | .bunpack p => p
  | .hbuild w => w
  | .henc w => w
  | .nop => false
  | .vwrite => false
  | .vread => false
  | .hdec => false
  | .hser => false
  | .hdeser => false
  | .hcode => false
  | .lzcomp => false
  | .lzdec => false
  | .ccomp => false
  | .cdec => false

/-- The encoder: RES = 0, then F0, then OPCODE (R110). -/
def encode (i : Instr) : Word := (0#23 ++ BitVec.ofBool i.f0) ++ i.opcode

/-- The command an instruction of `nbits` bits with value `w` stands for, in the opcode table's numbering (one 32-bit
word, R123); none where the decoder refuses. -/
def decodeTableWord (nbits w : Nat) : Option Instr :=
  if nbits ≤ 32 then (decode (BitVec.ofNat 32 (w % 2 ^ nbits))).toOption else none

end Sys2Proof
end

