-- ==== Sys2Proof/Machine/State.lean ====
section
/-! DEFINITION. The state of OWO-CORE (10_state, 70_reset_and_hazards): registers, LMEM, the codebook store, the
sequencer, and what is still to come at the port. Plain data. -/

namespace Sys2Proof.Machine

open Sys2Proof.Config

/-- LMEM as the list of the bytes written since power-on (R81, R82; entry 1): offsets strictly rising. An offset that is
not listed has never been written: it reads as the free value `Config.powerOnByte`. -/
abbrev Memory := List Host.Cell

/-- The registers that are locked while BUSY (R31: RW-L): the six operand registers (R40-R42) and the five configuration
registers (R44-R48), whose reserved bits are not stored because they read 0 and ignore writes. -/
structure LockedRegs where
  srcAddr : Word
  srcLen : Word
  dstAddr : Word
  dstCap : Word
  arg0 : Word
  arg1 : Word
  /-- CFG_WINDOW[15:0], W. -/
  window : BitVec 16
  /-- CFG_MAXLEN[15:0], L. -/
  maxLen : BitVec 16
  /-- CFG_MINMATCH[15:0], M. -/
  minMatch : BitVec 16
  /-- CFG_MINSIZE. -/
  minSize : Word
  /-- CFG_RATIO[7:0]. -/
  ratio : BitVec 8
deriving DecidableEq, Repr

/-- The reset values of the locked registers (R31, R361). -/
def LockedRegs.reset : LockedRegs :=
  { srcAddr := 0, srcLen := 0, dstAddr := 0, dstCap := 0, arg0 := 0, arg1 := 0
    window := 8192, maxLen := 258, minMatch := 3, minSize := 256, ratio := 95 }

/-- CUR, the current-command latch (R54): the accepted word and copies of the locked registers. -/
structure Cur where
  word : Word
  regs : LockedRegs
deriving DecidableEq, Repr

/-- The core sequencer's state (R53). BUSY holds CUR; STATUS.BUSY is read from here (entry 13). -/
inductive Sequencer where
  | idle
  | busy (cur : Cur)
deriving DecidableEq, Repr

/-- One entry of the codebook store (R56). Its `len` is the length of `code`. -/
structure Entry where
  sym : Word
  code : Bits
deriving DecidableEq, Repr

/-- A codebook: a finite set of entries, kept in ascending order of symbol (entry 14). -/
abbrev Codebook := List Entry

/-- The two host-visible address spaces (R80). -/
inductive Space where
  | csr
  | lmem
deriving DecidableEq, Repr

/-- One host transaction (D2, R14): `width` in bits. An 8-bit write uses the low 8 bits of `data` (entry 16). -/
inductive Access where
  | read (space : Space) (offset width : Nat)
  | write (space : Space) (offset width : Nat) (data : Word)
deriving DecidableEq, Repr

/-- What the port answers (D2, R14, R329). -/
inductive Response where
  | data (v : Word)
  | ok
  | busError
deriving DecidableEq, Repr

/-- What can happen next (R13, R331, R360): a host access, the reset input, or a turn of the core sequencer. -/
inductive Event where
  | host (a : Access)
  | hardReset
  | core
deriving DecidableEq, Repr

/-- Everything the spec gives the machine, and four fields of the model's own: `params`, `schedule`, `port`, `draws`. -/
structure State where
  /-- LMEM_SIZE and MAX_SYMBOLS (R6, R33; entry 2). -/
  params : Params
  /-- CTRL.IRQ_EN (R34). -/
  irqEn : Bool
  /-- STATUS.DONE (R35). -/
  done : Bool
  /-- STATUS.ERR (R35). -/
  err : Bool
  /-- STATUS.WERR (R35). -/
  werr : Bool
  /-- STATUS.ERRCODE (R35, R321). -/
  errcode : BitVec 4
  /-- CMD readback: the last accepted word (R37). -/
  cmd : Word
  /-- ERRINFO (R38). -/
  errinfo : Word
  /-- RES0 (R43). -/
  res0 : Word
  /-- RES1 (R43). -/
  res1 : Word
  /-- RES2 (R43). -/
  res2 : Word
  /-- The operand and configuration registers (R39-R48). -/
  regs : LockedRegs
  /-- CB with CB_VALID (R56, R57): `some C` while CB_VALID = 1, and `none` while CB_VALID = 0, when the contents of CB are
  unspecified and unreadable (entry 5). -/
  cb : Option Codebook
  /-- The sequencer with CUR (R53, R54). -/
  sequencer : Sequencer
  /-- LMEM (R81). -/
  lmem : Memory
  /-- What is still to come, first event first; when it is empty only the sequencer moves (entry 3). -/
  schedule : List Event
  /-- The port's response to the last host access (entry 10). -/
  port : Option Response
  /-- How many free-value draws have been made (entry 6). -/
  draws : Nat
deriving DecidableEq, Repr

/-- Why a step would stop the machine: never. The spec reports every failure in STATUS and ERRINFO and the block goes on
(R320, R327), so there is no reason to name. -/
inductive Fault
deriving DecidableEq, Repr

/-- Why an instruction would have no meaning. -/
inductive Refusal where
  /-- Raised by Dispatch alone, for a command without a meaning yet: none is left. Safe. -/
  | notModelled (mnemonic : String)
deriving DecidableEq, Repr

/-- The outcome of a step of this machine. -/
abbrev Outcome := Host.Outcome State Fault Refusal

/-- The state after power-on and reset of a block with parameters `p` (R360, R361, R82): every register at its reset
value, no valid codebook, IDLE, no byte of LMEM written. -/
def State.resetOf (p : Params) : State :=
  { params := p
    irqEn := false, done := false, err := false, werr := false, errcode := 0
    cmd := 0, errinfo := 0, res0 := 0, res1 := 0, res2 := 0
    regs := LockedRegs.reset
    cb := none
    sequencer := .idle
    lmem := []
    schedule := [], port := none, draws := 0 }

/-- The state after reset with the default parameters of R6 (entry 2). -/
def State.reset : State := State.resetOf Params.default

/-- The registers a command reads: the copies in CUR (R54, R141). While IDLE no command runs; the registers stand in
(entry 11). -/
def State.operands (s : State) : LockedRegs :=
  match s.sequencer with
  | .busy cur => cur.regs
  | .idle => s.regs

/-- STATUS.BUSY (R53). -/
def State.busy (s : State) : Bool :=
  match s.sequencer with
  | .busy _ => true
  | .idle => false

/-- STATUS.CB_VALID (R57). -/
def State.cbValid (s : State) : Bool := s.cb.isSome

end Sys2Proof.Machine
end

