-- ==== Sys2Proof/Machine/Memory.lean ====
section
/-! DEFINITION. Operations over LMEM, and byte order (20_memory R81-R87, 00_scope R10). -/

namespace Sys2Proof.Machine

open Sys2Proof.Config

/-- `ceil8(b)`, the bytes needed for b bits (R8). -/
def ceil8 (b : Nat) : Nat := (b + 7) / 8

/-- The 4-byte big-endian byte sequence of a word (R10, R86). -/
def be32 (v : Word) : List Byte :=
  [v.extractLsb' 24 8, v.extractLsb' 16 8, v.extractLsb' 8 8, v.extractLsb' 0 8]

/-- The value of a big-endian byte sequence, most significant byte first (R86). -/
def beNat (bs : List Byte) : Nat := bs.foldl (fun acc b => acc * 256 + b.toNat) 0

/-- A byte sequence as big-endian words (R86, R121); a rest of fewer than four bytes is no word. -/
def wordsOf : List Byte → List Word
  | b0 :: b1 :: b2 :: b3 :: rest => BitVec.ofNat 32 (beNat [b0, b1, b2, b3]) :: wordsOf rest
  | _ => []

/-- The canonical form of LMEM (entry 1): offsets strictly rising. An unlisted offset has no value of its own, so no
entry can equal it. -/
def Memory.wf (m : Memory) : Bool := decide (m.Pairwise fun c d => c.1 < d.1)

/-- Every listed offset lies below LMEM_SIZE (R81). -/
def Memory.within (m : Memory) (size : Nat) : Bool := m.all fun c => decide (c.1 < size)

/-- The byte written at an offset, if one has been written. -/
def Memory.lookup : Memory → Nat → Option Byte
  | [], _ => none
  | (k, v) :: m, a => if k = a then some v else Memory.lookup m a

/-- The byte at an offset (R81): the one written there, or the free value it held at power-on (R82). -/
def Memory.readByte (m : Memory) (a : Nat) : Byte := (m.lookup a).getD (powerOnByte a)

/-- `MemRead(a, n)` (R10). -/
def Memory.readBytes (m : Memory) (a n : Nat) : List Byte := (List.range n).map fun i => m.readByte (a + i)

/-- `MemRead32(a)` (R10, R86). -/
def Memory.readWord (m : Memory) (a : Nat) : Word := BitVec.ofNat 32 (beNat (m.readBytes a 4))

/-- The cells of a byte sequence laid out from offset `a`. -/
def cells (a : Nat) : List Byte → Memory
  | [] => []
  | b :: bs => (a, b) :: cells (a + 1) bs

/-- `MemWrite(a, |bs|, bs)` (R10): the bytes at a .. a+|bs|-1 become bs, every other byte stays. Writing no byte is no
write. -/
def Memory.writeBytes (m : Memory) (a : Nat) (bs : List Byte) : Memory :=
  if bs.isEmpty then m
  else m.filter (fun c => decide (c.1 < a)) ++ cells a bs ++ m.filter (fun c => decide (a + bs.length ≤ c.1))

/-- `MemWrite32(a, v)` (R10, R86). -/
def Memory.writeWord (m : Memory) (a : Nat) (v : Word) : Memory := m.writeBytes a (be32 v)

/-- The free bytes of draw `n` for the `len` offsets from `a` (R326, D12; entry 6). -/
def freeBytes (n a len : Nat) : List Byte := (List.range len).map fun i => freeByte n (a + i)

end Sys2Proof.Machine
end

