-- ==== Sys2Proof/Machine/Operands.lean ====
section
/-! DEFINITION. Operand forms: which regions a command uses (20_memory R83), how they are read (30_encoding R121), and
the acceptance checks on them in their order (R115-R118, R120). -/

namespace Sys2Proof.Machine

open Sys2Proof.Config

/-- The errors a command can complete with (60_exceptions R321). -/
inductive ErrorKind where
  | malformedHeader
  | malformedVarInt
  | corruptBitstream
  | unknownFormatMode
  | invalidBackReference
  | unknownSymbol
  | truncatedPayload
  | capacityExceeded
  | noCodebook
  | badOperand
  | badConfig
  | badCommand
deriving DecidableEq, Repr

/-- The error codes of R321. -/
def ErrorKind.code : ErrorKind → BitVec 4
  | .malformedHeader => 1
  | .malformedVarInt => 2
  | .corruptBitstream => 3
  | .unknownFormatMode => 4
  | .invalidBackReference => 5
  | .unknownSymbol => 6
  | .truncatedPayload => 7
  | .capacityExceeded => 8
  | .noCodebook => 9
  | .badOperand => 10
  | .badConfig => 11
  | .badCommand => 12

/-- `raise E(info)` (R10, R322, R323). -/
structure Raise where
  kind : ErrorKind
  info : Word
deriving DecidableEq, Repr

/-- `E(info)` with the information as a number that fits 32 bits (R8, R323; entry 15). -/
def ErrorKind.at (k : ErrorKind) (info : Nat) : Raise := { kind := k, info := BitVec.ofNat 32 info }

/-- How a command reads its source region (R83, R89). -/
inductive SourceForm where
  | bytes
  | words
  | tokens
deriving DecidableEq, Repr

/-- How a command writes its destination region (R83, R89). -/
inductive DestForm where
  | bytes
  | words
deriving DecidableEq, Repr

/-- What a command uses, row by row of R83 with R115, R117, R118 and R57. -/
structure Shape where
  /-- The source region and its form. -/
  src : Option SourceForm := none
  /-- The destination region and its form. -/
  dst : Option DestForm := none
  /-- The scratch region (words): CCOMP and CDEC. -/
  scratch : Bool := false
  /-- Reads W, L and M and checks them (R115): LZCOMP and CCOMP. -/
  usesConfig : Bool := false
  /-- Reads CB and checks CB_VALID (R118): HENC, HDEC, HSER, HCODE. -/
  needsCb : Bool := false
  /-- Clears CB_VALID when it begins to execute (R57): HBUILD, HDESER, CCOMP, CDEC. -/
  replacesCb : Bool := false
  /-- ARG0 must be 0..7 (R117): BUNPACK with F0 = 0. -/
  trailingArg : Bool := false
deriving DecidableEq, Repr

/-- The shape of every command (R83, R115, R117, R118, R57). -/
def shapeOf : Instr → Shape
  | .nop => {}
  | .bpack _ => { src := some .bytes, dst := some .bytes }
  | .bunpack p => { src := some .bytes, dst := some .bytes, trailingArg := !p }
  | .vwrite => { dst := some .bytes }
  | .vread => { src := some .bytes }
  | .hbuild w => { src := some (if w then .words else .bytes), replacesCb := true }
  | .henc w => { src := some (if w then .words else .bytes), dst := some .bytes, needsCb := true }
  | .hdec => { src := some .bytes, dst := some .words, needsCb := true }
  | .hser => { dst := some .bytes, needsCb := true }
  | .hdeser => { src := some .bytes, replacesCb := true }
  | .hcode => { needsCb := true }
  | .lzcomp => { src := some .bytes, dst := some .words, usesConfig := true }
  | .lzdec => { src := some .tokens, dst := some .bytes }
  | .ccomp => { src := some .bytes, dst := some .bytes, scratch := true, usesConfig := true, replacesCb := true }
  | .cdec => { src := some .bytes, dst := some .bytes, scratch := true, replacesCb := true }

/-- A region of LMEM: offset and length in bytes (R17). Exact arithmetic (R99). -/
structure Region where
  addr : Nat
  len : Nat
deriving DecidableEq, Repr

/-- A region leaves LMEM (R116, R99). -/
def Region.leaves (r : Region) (size : Nat) : Bool := size < r.addr + r.len

/-- Two regions of non-zero length that share a byte (R117). -/
def Region.overlaps (r q : Region) : Bool :=
  0 < r.len && 0 < q.len && r.addr < q.addr + q.len && q.addr < r.addr + r.len

/-- Some two regions of the list overlap. -/
def anyOverlap : List Region → Bool
  | [] => false
  | r :: rs => rs.any r.overlaps || anyOverlap rs

/-- The source region (R40). -/
def LockedRegs.srcRegion (o : LockedRegs) : Region := ⟨o.srcAddr.toNat, o.srcLen.toNat⟩

/-- The destination region (R41). -/
def LockedRegs.dstRegion (o : LockedRegs) : Region := ⟨o.dstAddr.toNat, o.dstCap.toNat⟩

/-- The scratch region (R42, D40). -/
def LockedRegs.scratchRegion (o : LockedRegs) : Region := ⟨o.arg0.toNat, o.arg1.toNat⟩

/-- The regions a command uses, in the order source, destination, scratch (R83, R116). -/
def Shape.regions (sh : Shape) (o : LockedRegs) : List Region :=
  (if sh.src.isSome then [o.srcRegion] else []) ++ (if sh.dst.isSome then [o.dstRegion] else [])
    ++ (if sh.scratch then [o.scratchRegion] else [])

/-- The regions a command writes: destination and scratch (R83). -/
def Shape.written (sh : Shape) (o : LockedRegs) : List Region :=
  (if sh.dst.isSome then [o.dstRegion] else []) ++ (if sh.scratch then [o.scratchRegion] else [])

/-- `src_is_words` of R117, and R89: LZDEC's tokens are words too. -/
def Shape.srcIsWords (sh : Shape) : Bool := sh.src == some .words || sh.src == some .tokens

/-- Every acceptance check after the illegal-word check, in the order of R120, each with the error it raises:
configuration (R115), bounds (R116), alignment, overlap and argument (R117), codebook (R118). -/
def acceptanceChecks (sh : Shape) (p : Params) (o : LockedRegs) (cbValid : Bool) : List (Bool × Raise) :=
  [ (sh.usesConfig && o.window == 0, ErrorKind.badConfig.at 0x44),
    (sh.usesConfig && o.maxLen == 0, ErrorKind.badConfig.at 0x48),
    (sh.usesConfig && o.minMatch == 0, ErrorKind.badConfig.at 0x4C),
    (sh.src.isSome && o.srcRegion.leaves p.lmemSize, ErrorKind.badOperand.at 1),
    (sh.dst.isSome && o.dstRegion.leaves p.lmemSize, ErrorKind.badOperand.at 2),
    (sh.scratch && o.scratchRegion.leaves p.lmemSize, ErrorKind.badOperand.at 3),
    (sh.srcIsWords && (o.srcAddr.toNat % 4 != 0 || o.srcLen.toNat % 4 != 0), ErrorKind.badOperand.at 4),
    (sh.src == some .tokens && o.srcLen.toNat % 12 != 0, ErrorKind.badOperand.at 4),
    (sh.dst == some .words && o.dstAddr.toNat % 4 != 0, ErrorKind.badOperand.at 4),
    (sh.scratch && o.arg0.toNat % 4 != 0, ErrorKind.badOperand.at 4),
    (anyOverlap (sh.regions o), ErrorKind.badOperand.at 5),
    (sh.trailingArg && 7 < o.arg0.toNat, ErrorKind.badOperand.at 6),
    (sh.needsCb && !cbValid, ErrorKind.noCodebook.at 0) ]

/-- The first check that fails ends the command (R120, R324); none when all pass. -/
def acceptanceError (sh : Shape) (p : Params) (o : LockedRegs) (cbValid : Bool) : Option Raise :=
  ((acceptanceChecks sh p o cbValid).find? (·.1)).map (·.2)

/-- What a command's pseudocode may read, and nothing else (R141, R144): the parameters, CUR, the bytes of its source
region, and CB. -/
structure Inputs where
  params : Params
  ops : LockedRegs
  src : List Byte
  cb : Codebook
deriving DecidableEq, Repr

/-- The source symbols of HBUILD and HENC (R121): words when F0 = 1, bytes otherwise. -/
def Inputs.symbols (x : Inputs) (w : Bool) : List Word :=
  if w then wordsOf x.src else x.src.map (·.zeroExtend 32)

/-- What a successful command leaves (R142): destination bytes from DST_ADDR, results, and what rules R221 and D12 add.
A result the command's rule does not name is 0 (R43). -/
structure Result where
  /-- The bytes emitted at the destination (R119, R122). -/
  out : List Byte := []
  res0 : Word := 0
  res1 : Word := 0
  res2 : Word := 0
  /-- A codebook to install (R221): HBUILD and HDESER. -/
  installs : Option Codebook := none
  /-- The command used its scratch region, whose bytes are unspecified afterwards (D12, R290; entries 8, 9). -/
  scratchUsed : Bool := false
deriving DecidableEq, Repr

/-- Emission of a byte sequence at the destination cursor (R119): CapacityExceeded(1) when it does not fit. -/
def emit (x : Inputs) (out : List Byte) : Except Raise (List Byte) :=
  if out.length ≤ x.ops.dstCap.toNat then .ok out else .error (ErrorKind.capacityExceeded.at 1)

end Sys2Proof.Machine
end

