-- ==== Sys2Proof/Machine/Flags.lean ====
section
/-! DEFINITION. The STATUS word, its write-one-to-clear bits, the codebook status registers and the interrupt output
(10_state R34, R35, R50-R52; 60_exceptions R330). The block has no other flags. -/

namespace Sys2Proof.Machine

/-- The STATUS word (R35): BUSY 0, DONE 1, ERR 2, WERR 3, ERRCODE [11:8], CB_VALID 16, the rest 0. -/
def State.statusWord (s : State) : Word :=
  BitVec.ofNat 32 (s.busy.toNat + 2 * s.done.toNat + 4 * s.err.toNat + 8 * s.werr.toNat
    + 256 * s.errcode.toNat + 65536 * s.cbValid.toNat)

/-- A write to STATUS (R35): a 1 in bit 1 clears DONE, in bit 2 ERR with ERRCODE, in bit 3 WERR; nothing else changes.
This is the only way back from an error besides the next acceptance: there is no return operation (R327). -/
def State.writeStatus (s : State) (v : Word) : State :=
  { s with
    done := s.done && !v.getLsbD 1
    err := s.err && !v.getLsbD 2
    errcode := if v.getLsbD 2 then 0 else s.errcode
    werr := s.werr && !v.getLsbD 3 }

/-- The CTRL word (R34): IRQ_EN in bit 0; SRST and the reserved bits read 0. -/
def State.ctrlWord (s : State) : Word := BitVec.ofNat 32 s.irqEn.toNat

/-- The largest code length of a codebook; 0 when it is empty (R51). -/
def Codebook.maxLen (c : Codebook) : Nat := c.foldl (fun m e => max m e.code.length) 0

/-- CB_COUNT (R50): the entries of CB while CB_VALID = 1, 0 otherwise. -/
def State.cbCount (s : State) : Nat := (s.cb.getD []).length

/-- CB_MAXLEN (R51): the largest code length while CB_VALID = 1, 0 otherwise. -/
def State.cbMaxLen (s : State) : Nat := Codebook.maxLen (s.cb.getD [])

/-- The interrupt output (R330): IRQ_EN AND DONE, a level. -/
def State.irq (s : State) : Bool := s.irqEn && s.done

/-- The lockout's only flag effect (R328, R372). -/
def State.setWerr (s : State) : State := { s with werr := true }

end Sys2Proof.Machine
end

