-- ==== Sys2Proof/Machine/Ops.lean ====
section
/-! DEFINITION. The lifecycle of a command (40_system R140-R142): acceptance, the shared run of a command, error
completion (60_exceptions R322, R326), success, and the two resets (70_reset_and_hazards R360-R362). -/

namespace Sys2Proof.Machine

open Sys2Proof.Config

/-- Acceptance of word `w` (R140): CUR latches the word and the locked registers, DONE, ERR, ERRCODE, ERRINFO and
RES0-RES2 are cleared, BUSY is set. WERR, CB, CB_VALID, CTRL and LMEM do not change. -/
def State.accept (s : State) (w : Word) : State :=
  { s with
    sequencer := .busy { word := w, regs := s.regs }
    cmd := w
    done := false, err := false, errcode := 0
    errinfo := 0, res0 := 0, res1 := 0, res2 := 0 }

/-- Error completion (R142, R322), the one entry of every error: RES0-RES2 become 0, ERRINFO and ERRCODE take the
error's values, ERR and DONE are set, the sequencer goes IDLE. No trap is taken and no other state is saved (R325). -/
def State.raise (s : State) (e : Raise) : State :=
  { s with
    res0 := 0, res1 := 0, res2 := 0
    errinfo := e.info, errcode := e.kind.code
    err := true
    sequencer := .idle, done := true }

/-- Successful completion (R142): the results, BUSY cleared, DONE set. -/
def State.complete (s : State) (r0 r1 r2 : Word) : State :=
  { s with res0 := r0, res1 := r1, res2 := r2, sequencer := .idle, done := true }

/-- CB_VALID becomes 0 (R57); the contents of CB are unspecified from then on (entry 5). -/
def State.clearCb (s : State) : State := { s with cb := none }

/-- Every byte of the regions becomes unspecified: one draw of free bytes (R326, R360, D12; entry 6). -/
def State.scramble (s : State) (rs : List Region) : State :=
  { s with
    lmem := rs.foldl (fun m r => m.writeBytes r.addr (freeBytes s.draws r.addr r.len)) s.lmem
    draws := s.draws + 1 }

/-- A region cut to the bytes that exist (R81); entry 7. -/
def Region.clip (r : Region) (size : Nat) : Region := { addr := r.addr, len := min r.len (size - r.addr) }

/-- What a command about to execute may read (R141, R144). -/
def State.inputs (s : State) (sh : Shape) : Inputs :=
  { params := s.params
    ops := s.operands
    src := if sh.src.isSome then s.lmem.readBytes s.operands.srcAddr.toNat s.operands.srcLen.toNat else []
    cb := s.cb.getD [] }

/-- What a command does when it begins to execute: HBUILD, HDESER, CCOMP and CDEC clear CB_VALID (R57). -/
def State.beginExecution (s : State) (sh : Shape) : State := if sh.replacesCb then s.clearCb else s

/-- The effects of a successful command (R142, R221, D12): its bytes from DST_ADDR, the scratch if it used it, the
installed codebook, and completion. Destination bytes beyond those written do not change (U24). -/
def State.succeed (s : State) (r : Result) : State :=
  let t := { s with lmem := s.lmem.writeBytes s.operands.dstAddr.toNat r.out }
  let t := if r.scratchUsed then t.scramble [s.operands.scratchRegion] else t
  let t := if r.installs.isSome then { t with cb := r.installs } else t
  t.complete r.res0 r.res1 r.res2

/-- Execution of an accepted command (R141, R370): the acceptance checks, then the command's own pseudocode `body`, then
completion, as one step. A failed check leaves LMEM, CB and CB_VALID alone (R120, R326); an error of the body leaves the
destination and the scratch unspecified (R326). -/
def State.runCommand (s : State) (sh : Shape) (body : Inputs → Except Raise Result) : State :=
  match acceptanceError sh s.params s.operands s.cbValid with
  | some e => s.raise e
  | none =>
    match body (s.inputs sh) with
    | .error e => ((s.beginExecution sh).scramble (sh.written s.operands)).raise e
    | .ok r => (s.beginExecution sh).succeed r

/-- A running command is abandoned (R360, R362): its destination and scratch bytes become unspecified, and nothing
else of it happens. An illegal word has no regions (R114; entry 7). -/
def State.abandon (s : State) : State :=
  match s.sequencer with
  | .idle => s
  | .busy cur =>
    match decode cur.word with
    | .error _ => s
    | .ok i => s.scramble (((shapeOf i).written cur.regs).map (·.clip s.params.lmemSize))

/-- A reset of the block, by the reset input (R360) or by CTRL.SRST (R362): a running command is abandoned, every CSR
takes its reset value, CB_VALID = 0, IDLE; every other byte of LMEM keeps its value. -/
def State.resetBlock (s : State) : State :=
  let t := s.abandon
  { State.resetOf t.params with lmem := t.lmem, schedule := t.schedule, port := t.port, draws := t.draws }

end Sys2Proof.Machine
end

