-- ==== Sys2Proof/Machine/Bus.lean ====
section
/-! DEFINITION. The bus port: the register map (10_state R31), CSR and LMEM accesses (20_memory R84, R85, R92), and the
lockout while BUSY (70_reset_and_hazards R372). -/

namespace Sys2Proof.Machine

/-- The named registers of R31. -/
inductive Csr where
  | id | capLmem | capSymbols | capCodelen | ctrl | status | cmd | errinfo
  | srcAddr | srcLen | dstAddr | dstCap | arg0 | arg1 | res0 | res1 | res2
  | cfgWindow | cfgMaxlen | cfgMinmatch | cfgMinsize | cfgRatio | cbCount | cbMaxlen
deriving DecidableEq, Repr

/-- The registers in the order of their offsets, 0x00, 0x04, …, 0x5C (R31). -/
def csrMap : List Csr :=
  [.id, .capLmem, .capSymbols, .capCodelen, .ctrl, .status, .cmd, .errinfo,
   .srcAddr, .srcLen, .dstAddr, .dstCap, .arg0, .arg1, .res0, .res1, .res2,
   .cfgWindow, .cfgMaxlen, .cfgMinmatch, .cfgMinsize, .cfgRatio, .cbCount, .cbMaxlen]

/-- The register at a word-aligned offset; none at the reserved offsets 0x60-0xFC (R31). -/
def csrAt (offset : Nat) : Option Csr := csrMap[offset / 4]?

/-- The value a register reads (R31-R51). -/
def Csr.read (c : Csr) (s : State) : Word :=
  match c with
  | .id => 0x4F574F32
  | .capLmem => BitVec.ofNat 32 s.params.lmemSize
  | .capSymbols => BitVec.ofNat 32 s.params.maxSymbols
  | .capCodelen => 32
  | .ctrl => s.ctrlWord
  | .status => s.statusWord
  | .cmd => s.cmd
  | .errinfo => s.errinfo
  | .srcAddr => s.regs.srcAddr
  | .srcLen => s.regs.srcLen
  | .dstAddr => s.regs.dstAddr
  | .dstCap => s.regs.dstCap
  | .arg0 => s.regs.arg0
  | .arg1 => s.regs.arg1
  | .res0 => s.res0
  | .res1 => s.res1
  | .res2 => s.res2
  | .cfgWindow => s.regs.window.zeroExtend 32
  | .cfgMaxlen => s.regs.maxLen.zeroExtend 32
  | .cfgMinmatch => s.regs.minMatch.zeroExtend 32
  | .cfgMinsize => s.regs.minSize
  | .cfgRatio => s.regs.ratio.zeroExtend 32
  | .cbCount => BitVec.ofNat 32 s.cbCount
  | .cbMaxlen => BitVec.ofNat 32 s.cbMaxLen

/-- A write to a locked register (R31, R372): stored while IDLE, ignored with WERR while BUSY. -/
def State.writeLocked (s : State) (regs : LockedRegs) : State :=
  if s.busy then s.setWerr else { s with regs := regs }

/-- A write to CTRL (R34, R362): SRST = 1 resets the block and wins over IRQ_EN; otherwise IRQ_EN takes bit 0. Not
locked. -/
def State.writeCtrl (s : State) (v : Word) : State :=
  if v.getLsbD 1 then s.resetBlock else { s with irqEn := v.getLsbD 0 }

/-- A write to CMD (R37, R140): accepted while IDLE, legal word or not; ignored with WERR while BUSY. -/
def State.writeCmd (s : State) (v : Word) : State := if s.busy then s.setWerr else s.accept v

/-- The effect of a write on a register (R31, R34-R48, R372). Reserved bits are dropped; read-only registers ignore
it. -/
def Csr.write (c : Csr) (v : Word) (s : State) : State :=
  match c with
  | .ctrl => s.writeCtrl v
  | .status => s.writeStatus v
  | .cmd => s.writeCmd v
  | .srcAddr => s.writeLocked { s.regs with srcAddr := v }
  | .srcLen => s.writeLocked { s.regs with srcLen := v }
  | .dstAddr => s.writeLocked { s.regs with dstAddr := v }
  | .dstCap => s.writeLocked { s.regs with dstCap := v }
  | .arg0 => s.writeLocked { s.regs with arg0 := v }
  | .arg1 => s.writeLocked { s.regs with arg1 := v }
  | .cfgWindow => s.writeLocked { s.regs with window := v.extractLsb' 0 16 }
  | .cfgMaxlen => s.writeLocked { s.regs with maxLen := v.extractLsb' 0 16 }
  | .cfgMinmatch => s.writeLocked { s.regs with minMatch := v.extractLsb' 0 16 }
  | .cfgMinsize => s.writeLocked { s.regs with minSize := v }
  | .cfgRatio => s.writeLocked { s.regs with ratio := v.extractLsb' 0 8 }
  | .id => s
  | .capLmem => s
  | .capSymbols => s
  | .capCodelen => s
  | .errinfo => s
  | .res0 => s
  | .res1 => s
  | .res2 => s
  | .cbCount => s
  | .cbMaxlen => s

/-- A legal CSR access (R84): 32 bits, aligned, inside the aperture. -/
def csrLegal (offset width : Nat) : Bool := width == 32 && offset % 4 == 0 && offset < 0x100

/-- A legal LMEM access (R85): 8 bits anywhere below LMEM_SIZE, or an aligned 32-bit word inside it. -/
def lmemLegal (size offset width : Nat) : Bool :=
  (width == 8 && offset < size) || (width == 32 && offset % 4 == 0 && offset + 4 ≤ size)

/-- The port answers. -/
def State.answer (s : State) (r : Response) : State := { s with port := some r }

/-- The register read at an offset; reserved offsets read 0 (R31, D55). -/
def State.readCsr (s : State) (offset : Nat) : Word :=
  match csrAt offset with
  | some c => c.read s
  | none => 0

/-- The register write at an offset; reserved offsets ignore it (R31, D55). -/
def State.writeCsr (s : State) (offset : Nat) (v : Word) : State :=
  match csrAt offset with
  | some c => c.write v s
  | none => s

/-- The LMEM value a legal read returns while IDLE (R85); 8-bit reads are zero-extended (entry 16). -/
def State.readLmem (s : State) (offset width : Nat) : Word :=
  if width = 8 then (s.lmem.readByte offset).zeroExtend 32 else s.lmem.readWord offset

/-- A legal LMEM write while IDLE (R85). -/
def State.writeLmem (s : State) (offset width : Nat) (v : Word) : State :=
  { s with lmem := if width = 8 then s.lmem.writeBytes offset [v.extractLsb' 0 8] else s.lmem.writeWord offset v }

/-- One host transaction (R14, R84, R85, R92, R372). An illegal access is a bus error without any effect (R329). -/
def State.access (s : State) (a : Access) : State :=
  match a with
  | .read .csr off w => if csrLegal off w then s.answer (.data (s.readCsr off)) else s.answer .busError
  | .write .csr off w v => if csrLegal off w then (s.writeCsr off v).answer .ok else s.answer .busError
  | .read .lmem off w =>
    if lmemLegal s.params.lmemSize off w then
      if s.busy then s.setWerr.answer (.data 0) else s.answer (.data (s.readLmem off w))
    else s.answer .busError
  | .write .lmem off w v =>
    if lmemLegal s.params.lmemSize off w then
      if s.busy then s.setWerr.answer .ok else (s.writeLmem off w v).answer .ok
    else s.answer .busError

end Sys2Proof.Machine
end

