-- ==== Sys2Proof/Machine/Bitpack.lean ====
section
/-! DEFINITION. The bit packer and unpacker (41_bitpack): packMSB, unpackMSB, the stream form, BPACK and BUNPACK. -/

namespace Sys2Proof.Machine

/-- The value of a bit string, first digit most significant (R88, D59). -/
def bitsNat (s : Bits) : Nat := s.foldl (fun acc b => 2 * acc + b.toNat) 0

/-- The eight digits of a byte, bit 7 first (R88). -/
def byteBits (b : Byte) : Bits := (List.range 8).map fun j => b.getLsbD (7 - j)

/-- Byte `k` of a packed bit string (R160): digit 8k + j in bit 7 - j, and 0 beyond the end of the string. -/
def packByte (s : Bits) (k : Nat) : Byte :=
  BitVec.ofNat 8 (bitsNat ((List.range 8).map fun j => s.getD (8 * k + j) false))

/-- `packMSB(s)` (R160): ceil8(|s|) bytes. -/
def packMSB (s : Bits) : List Byte := (List.range (ceil8 s.length)).map (packByte s)

/-- `validBits(m, r)` (R161). -/
def validBits (m r : Nat) : Nat := if r = 0 then 8 * m else 8 * (m - 1) + r

/-- `unpackMSB(P, r)` (R161): the digits of P, cut to the valid ones; padding is ignored (D28). -/
def unpackMSB (P : List Byte) (r : Nat) : Bits := (P.flatMap byteBits).take (validBits P.length r)

/-- `stream(s) = [ |s| mod 8 ] ++ packMSB(s)` (R161). -/
def stream (s : Bits) : List Byte := BitVec.ofNat 8 (s.length % 8) :: packMSB s

/-- `streamBits(B)` (R161): the inverse of the stream form. Every failure is CorruptBitstream with the information the
calling rule gives. -/
def streamBits (B : List Byte) (info : Nat) : Except Raise Bits :=
  match B with
  | [] => .error (ErrorKind.corruptBitstream.at info)
  | r :: P =>
    if 7 < r.toNat then .error (ErrorKind.corruptBitstream.at info)
    else if P.length = 0 ∧ r.toNat ≠ 0 then .error (ErrorKind.corruptBitstream.at info)
    else .ok (unpackMSB P r.toNat)

/-- BPACK's pseudocode (R163): bit 0 of each source byte (D29), packed, with the count byte first when F0 = 1. -/
def bpackBody (p : Bool) (x : Inputs) : Except Raise Result := do
  let s := x.src.map fun b => b.getLsbD 0
  let out ← emit x (if p then stream s else packMSB s)
  .ok { out := out
        res0 := BitVec.ofNat 32 out.length
        res1 := BitVec.ofNat 32 s.length
        res2 := BitVec.ofNat 32 (s.length % 8) }

/-- BPACK / BPACK.P (R163). -/
def execBpack (p : Bool) (s : State) : Outcome := .next (s.runCommand (shapeOf (.bpack p)) (bpackBody p))

/-- The valid-trailing-bit count of BUNPACK (R165): the first source byte when F0 = 1, ARG0 otherwise. -/
def bunpackCount (p : Bool) (x : Inputs) : Nat := if p then (x.src.headD 0).toNat else x.ops.arg0.toNat

/-- The bits BUNPACK unpacks (R165, R161, D28). -/
def bunpackBits (p : Bool) (x : Inputs) : Except Raise Bits :=
  if p then streamBits x.src 0
  else if x.src.length = 0 ∧ x.ops.arg0.toNat ≠ 0 then .error (ErrorKind.corruptBitstream.at 0)
  else .ok (unpackMSB x.src x.ops.arg0.toNat)

/-- BUNPACK's pseudocode (R165): one byte 0x00 or 0x01 per bit. -/
def bunpackBody (p : Bool) (x : Inputs) : Except Raise Result := do
  let s ← bunpackBits p x
  let out ← emit x (s.map fun b => BitVec.ofNat 8 b.toNat)
  .ok { out := out
        res0 := BitVec.ofNat 32 out.length
        res1 := BitVec.ofNat 32 s.length
        res2 := BitVec.ofNat 32 (bunpackCount p x) }

/-- BUNPACK / BUNPACK.P (R165). -/
def execBunpack (p : Bool) (s : State) : Outcome := .next (s.runCommand (shapeOf (.bunpack p)) (bunpackBody p))

end Sys2Proof.Machine
end

