-- ==== Sys2Proof/Machine/Varint.lean ====
section
/-! DEFINITION. The variable-length integer codec (42_varint): the encoder, the decoder, VWRITE and VREAD. -/

namespace Sys2Proof.Machine

/-- `varint_bytes(v)` (R180), for v < 2^32. -/
def varintBytes (v : Nat) : List Byte :=
  if v < 128 then [BitVec.ofNat 8 v]
  else if v < 16384 then [BitVec.ofNat 8 (v / 256) ||| 0x80, BitVec.ofNat 8 (v % 256)]
  else 0xFF :: be32 (BitVec.ofNat 32 v)

/-- `varint_len(v)` (R181). -/
def varintLen (v : Nat) : Nat := if v < 128 then 1 else if v < 16384 then 2 else 5

/-- `readVarInt(B, c)` (R182): the value and the new cursor, or MalformedVarInt at the cursor of the lead byte. -/
def readVarInt (B : List Byte) (c : Nat) : Except Raise (Nat × Nat) :=
  match B[c]? with
  | none => .error (ErrorKind.malformedVarInt.at c)
  | some lead =>
    if lead.toNat < 0x80 then .ok (lead.toNat, c + 1)
    else if lead = 0xFF then
      if B.length ≤ c + 4 then .error (ErrorKind.malformedVarInt.at c)
      else .ok (beNat ((B.drop (c + 1)).take 4), c + 5)
    else
      match B[c + 1]? with
      | none => .error (ErrorKind.malformedVarInt.at c)
      | some b => .ok ((lead &&& 0x7F).toNat * 256 + b.toNat, c + 2)

/-- VWRITE's pseudocode (R183). -/
def vwriteBody (x : Inputs) : Except Raise Result := do
  let out ← emit x (varintBytes x.ops.arg0.toNat)
  .ok { out := out, res0 := BitVec.ofNat 32 out.length }

/-- VWRITE (R183). -/
def execVwrite (s : State) : Outcome := .next (s.runCommand (shapeOf .vwrite) vwriteBody)

/-- VREAD's pseudocode (R185). -/
def vreadBody (x : Inputs) : Except Raise Result := do
  let (v, c2) ← readVarInt x.src x.ops.arg0.toNat
  .ok { res0 := BitVec.ofNat 32 v
        res1 := BitVec.ofNat 32 c2
        res2 := BitVec.ofNat 32 (c2 - x.ops.arg0.toNat) }

/-- VREAD (R185). -/
def execVread (s : State) : Outcome := .next (s.runCommand (shapeOf .vread) vreadBody)

end Sys2Proof.Machine
end

