-- ==== Sys2Proof/Machine/Huffman.lean ====
section
/-! DEFINITION. The Huffman engine (43_huffman): frequency table, tree, codebook, its wire form, and HBUILD, HENC, HDEC,
HSER, HDESER, HCODE. -/

namespace Sys2Proof.Machine

open Sys2Proof.Config

/-- A tree node (R200): a leaf with its symbol, the dummy leaf of frequency 0 (R206), or an internal node. -/
inductive Node where
  | leaf (sym : Word) (freq seq : Nat)
  | dummy (seq : Nat)
  | node (freq seq : Nat) (left right : Node)
deriving DecidableEq, Repr

/-- The frequency of a node (R200). -/
def Node.freq : Node → Nat
  | .leaf _ f _ => f
  | .dummy _ => 0
  | .node f _ _ _ => f

/-- The sequence number of a node (R200, R202). -/
def Node.seq : Node → Nat
  | .leaf _ _ q => q
  | .dummy q => q
  | .node _ q _ _ => q

/-- The frequency table (R201), in ascending order of symbol: count one more occurrence of `s`. -/
def countSymbol (s : Word) : List (Word × Nat) → List (Word × Nat)
  | [] => [(s, 1)]
  | (t, k) :: F =>
    if s = t then (t, k + 1) :: F
    else if s.toNat < t.toNat then (s, 1) :: (t, k) :: F
    else (t, k) :: countSymbol s F

/-- The frequency table of a symbol sequence (R201). -/
def freqTable (x : List Word) : List (Word × Nat) := x.foldl (fun F s => countSymbol s F) []

/-- The leaves in ascending symbol order, numbered from `k` (R202). -/
def leavesFrom (k : Nat) : List (Word × Nat) → List Node
  | [] => []
  | (s, f) :: F => .leaf s f k :: leavesFrom (k + 1) F

/-- All leaves of a table: with one distinct symbol the dummy leaf is added (R202, R206, D20). -/
def leaves (F : List (Word × Nat)) : List Node :=
  leavesFrom 0 F ++ (if F.length = 1 then [.dummy 1] else [])

/-- Node a comes before node b in the priority order (R203): by frequency, then by sequence number. -/
def Node.before (a b : Node) : Bool := a.freq < b.freq || (a.freq == b.freq && a.seq < b.seq)

/-- Push a node; the queue is kept in priority order, so popmin takes its head (R203, R204). -/
def push (n : Node) : List Node → List Node
  | [] => [n]
  | m :: Q => if n.before m then n :: m :: Q else m :: push n Q

/-- The merge loop (R204): while two nodes are left, merge the two least, the first popped on the left (R207, D19).
`fuel` bounds the merges; the number of leaves is enough. -/
def mergeLoop : Nat → Nat → List Node → Option Node
  | _, _, [] => none
  | _, _, [root] => some root
  | 0, _, _ => none
  | fuel + 1, next, a :: b :: Q => mergeLoop fuel (next + 1) (push (.node (a.freq + b.freq) next a b) Q)

/-- `buildTree(F)` (R204, R205): none is EMPTY. -/
def buildTree (F : List (Word × Nat)) : Option Node :=
  mergeLoop (leaves F).length (leaves F).length ((leaves F).foldl (fun Q n => push n Q) [])

/-- The traversal of R208, with its guard for a root that is a leaf (90_conflicts C5). -/
def walk : Node → Bits → List Entry
  | .leaf s _ _, c => [{ sym := s, code := if c = [] then [false] else c }]
  | .dummy _, _ => []
  | .node _ _ l r, c => walk l (c ++ [false]) ++ walk r (c ++ [true])

/-- Add an entry to a codebook, which is kept in ascending order of symbol (R56; entry 14). -/
def Codebook.add (e : Entry) : Codebook → Codebook
  | [] => [e]
  | d :: C => if e.sym.toNat < d.sym.toNat then e :: d :: C else d :: Codebook.add e C

/-- `buildCodebook(root)` (R208). -/
def buildCodebook (root : Node) : Codebook := (walk root []).foldl (fun C e => Codebook.add e C) []

/-- The codebook of a frequency table: empty for the EMPTY tree (R205, R212). -/
def codebookOf (F : List (Word × Nat)) : Codebook :=
  match buildTree F with
  | none => []
  | some root => buildCodebook root

/-- Some code is longer than MAX_CODE_LEN (R209). -/
def Codebook.tooLong (C : Codebook) : Bool := C.any fun e => maxCodeLen < e.code.length

/-- `CB(s)` (R56): the code of a symbol. -/
def Codebook.codeOf (C : Codebook) (s : Word) : Option Bits := (C.find? fun e => e.sym == s).map (·.code)

/-- The inverse mapping of R215: the symbol whose code is exactly `c`. -/
def Codebook.symOf (C : Codebook) (c : Bits) : Option Word := (C.find? fun e => e.code == c).map (·.sym)

/-- One entry on the wire (R211). -/
def serEntry (e : Entry) : List Byte :=
  varintBytes e.sym.toNat ++ varintBytes e.code.length ++ packMSB e.code

/-- `serCB(C)` (R211), which parseCB inverts (R223): the count, then the entries in ascending order of symbol, the order
C is kept in. -/
def serCB (C : Codebook) : List Byte := varintBytes C.length ++ C.flatMap serEntry

/-- `encodeBits(x, C)` (R213), which decodeBits inverts (R223), `i` symbols already read: the codes in input order, or
UnknownSymbol at the first symbol without one. -/
def encodeBits (C : Codebook) (i : Nat) : List Word → Except Raise Bits
  | [] => .ok []
  | s :: x =>
    match C.codeOf s with
    | none => .error (ErrorKind.unknownSymbol.at i)
    | some code => do
      let rest ← encodeBits C (i + 1) x
      .ok (code ++ rest)

/-- `decodeBits(s, C, out)` (R215), the inverse of encodeBits (R223), with `cand` the digits gathered so far and `k`
symbols already put out. Symbol k needs 4(k + 1) bytes of the output's capacity `cap`, else `full` is raised at that
point; digits left over at the end raise `tail`. -/
def decodeBits (C : Codebook) (cap : Nat) (full tail : Raise) : Bits → Bits → Nat → Except Raise (List Word)
  | [], cand, _ => if cand = [] then .ok [] else .error tail
  | b :: s, cand, k =>
    match C.symOf (cand ++ [b]) with
    | none => decodeBits C cap full tail s (cand ++ [b]) k
    | some sym =>
      if cap < 4 * (k + 1) then .error full
      else do
        let rest ← decodeBits C cap full tail s [] (k + 1)
        .ok (sym :: rest)

/-- One entry of `parseCB` (R217), starting at offset `e` of `B`: the codebook with it, and the offset after it. -/
def parseEntry (B : List Byte) (e : Nat) (C : Codebook) : Except Raise (Codebook × Nat) := do
  let (sym, p) ← readVarInt B e
  let (len, p) ← readVarInt B p
  if len = 0 then .error (ErrorKind.corruptBitstream.at e)
  else if maxCodeLen < len then .error (ErrorKind.capacityExceeded.at 4)
  else if B.length < p + ceil8 len then .error (ErrorKind.truncatedPayload.at p)
  else
    let code := unpackMSB ((B.drop p).take (ceil8 len)) (len % 8)
    if (C.codeOf (BitVec.ofNat 32 sym)).isSome || (C.symOf code).isSome then
      .error (ErrorKind.corruptBitstream.at e)
    else .ok (Codebook.add { sym := BitVec.ofNat 32 sym, code := code } C, p + ceil8 len)

/-- The `repeat K times` of R217. -/
def parseEntries (B : List Byte) : Nat → Nat → Codebook → Except Raise (Codebook × Nat)
  | 0, p, C => .ok (C, p)
  | k + 1, p, C => do
    let (C, p) ← parseEntry B p C
    parseEntries B k p C

/-- `parseCB(B, p0)` (R217), the inverse of serCB (R223). -/
def parseCB (maxSymbols : Nat) (B : List Byte) (p0 : Nat) : Except Raise (Codebook × Nat) := do
  let (K, p) ← readVarInt B p0
  if maxSymbols < K then .error (ErrorKind.capacityExceeded.at 3)
  else parseEntries B K p []

/-- HBUILD's pseudocode (R212): frequency table, tree, codebook, and its limits (R201, R209). A function of the inputs
alone, so the same symbols give the same codebook (R223). -/
def hbuildBody (w : Bool) (x : Inputs) : Except Raise Result :=
  let F := freqTable (x.symbols w)
  let C := codebookOf F
  if x.params.maxSymbols < F.length then .error (ErrorKind.capacityExceeded.at 3)
  else if C.tooLong then .error (ErrorKind.capacityExceeded.at 4)
  else .ok { installs := some C
             res0 := BitVec.ofNat 32 F.length
             res1 := BitVec.ofNat 32 (Codebook.maxLen C)
             res2 := BitVec.ofNat 32 (x.symbols w).length }

/-- HBUILD / HBUILD.W (R212). -/
def execHbuild (w : Bool) (s : State) : Outcome := .next (s.runCommand (shapeOf (.hbuild w)) (hbuildBody w))

/-- HENC's pseudocode (R214): every symbol is looked up before the capacity is checked. -/
def hencBody (w : Bool) (x : Inputs) : Except Raise Result := do
  let s ← encodeBits x.cb 0 (x.symbols w)
  let out ← emit x (stream s)
  .ok { out := out
        res0 := BitVec.ofNat 32 out.length
        res1 := BitVec.ofNat 32 s.length
        res2 := BitVec.ofNat 32 (x.symbols w).length }

/-- HENC / HENC.W (R214). -/
def execHenc (w : Bool) (s : State) : Outcome := .next (s.runCommand (shapeOf (.henc w)) (hencBody w))

/-- HDEC's pseudocode (R216): one big-endian word per symbol, the first error in stream order. -/
def hdecBody (x : Inputs) : Except Raise Result := do
  let s ← streamBits x.src 0
  let syms ← decodeBits x.cb x.ops.dstCap.toNat (ErrorKind.capacityExceeded.at 1) (ErrorKind.corruptBitstream.at 0) s [] 0
  let out ← emit x (syms.flatMap be32)
  .ok { out := out
        res0 := BitVec.ofNat 32 out.length
        res1 := BitVec.ofNat 32 syms.length
        res2 := BitVec.ofNat 32 s.length }

/-- HDEC (R216). -/
def execHdec (s : State) : Outcome := .next (s.runCommand (shapeOf .hdec) hdecBody)

/-- HSER's pseudocode (R218). -/
def hserBody (x : Inputs) : Except Raise Result := do
  let out ← emit x (serCB x.cb)
  .ok { out := out, res0 := BitVec.ofNat 32 out.length, res1 := BitVec.ofNat 32 x.cb.length }

/-- HSER (R218). -/
def execHser (s : State) : Outcome := .next (s.runCommand (shapeOf .hser) hserBody)

/-- HDESER's pseudocode (R220). -/
def hdeserBody (x : Inputs) : Except Raise Result := do
  let (C, p) ← parseCB x.params.maxSymbols x.src 0
  .ok { installs := some C
        res0 := BitVec.ofNat 32 C.length
        res1 := BitVec.ofNat 32 p
        res2 := BitVec.ofNat 32 (Codebook.maxLen C) }

/-- HDESER (R220). -/
def execHdeser (s : State) : Outcome := .next (s.runCommand (shapeOf .hdeser) hdeserBody)

/-- HCODE's pseudocode (R222): the length, and the code right-aligned (D59). -/
def hcodeBody (x : Inputs) : Except Raise Result :=
  match x.cb.codeOf x.ops.arg0 with
  | none => .error (ErrorKind.unknownSymbol.at 0)
  | some code => .ok { res0 := BitVec.ofNat 32 code.length, res1 := BitVec.ofNat 32 (bitsNat code) }

/-- HCODE (R222). -/
def execHcode (s : State) : Outcome := .next (s.runCommand (shapeOf .hcode) hcodeBody)

end Sys2Proof.Machine
end

