-- ==== Sys2Proof/Machine/Lz77.lean ====
section
/-! DEFINITION. The dictionary matcher and the reconstructor (44_lz77): tokens, the match function, the greedy scan,
the replay, LZCOMP and LZDEC. -/

namespace Sys2Proof.Machine

open Sys2Proof.Config

/-- A token (R250): offset, length, next symbol or NONE. -/
structure Token where
  off : Nat
  len : Nat
  next : Nat
deriving DecidableEq, Repr

/-- The three words of a token in memory (R250, D35). -/
def Token.words (t : Token) : List Word := [BitVec.ofNat 32 t.off, BitVec.ofNat 32 t.len, BitVec.ofNat 32 t.next]

/-- Three consecutive words as a token (R121); a rest of fewer than three words is no token. -/
def tokensOf : List Word → List Token
  | a :: b :: c :: rest => ⟨a.toNat, b.toNat, c.toNat⟩ :: tokensOf rest
  | _ => []

/-- `flatten(T)` (R255): three symbols a token. -/
def flatten (T : List Token) : List Word := T.flatMap Token.words

/-- The length of the common run of two byte sequences, at most `limit` (the loop of R251's matchLen). -/
def runLength : Nat → List Byte → List Byte → Nat
  | limit + 1, a :: as, b :: bs => if a = b then runLength limit as bs + 1 else 0
  | _, _, _ => 0

/-- `matchLen(x, pos, off)` (R251): the run at pos - off against the run at pos, at most L, to the end of the input; the
first run may reach pos and beyond (overlap is legal, 90_conflicts C2). -/
def matchLen (x : List Byte) (L pos off : Nat) : Nat := runLength L (x.drop (pos - off)) (x.drop pos)

/-- `bestMatch(x, pos)` (R251): offsets 1 .. min(W, pos) in ascending order, strictly longer matches only; the result is
(offset, length). -/
def bestMatch (x : List Byte) (W L pos : Nat) : Nat × Nat :=
  (List.range (min W pos)).foldl
    (fun best i => if best.2 < matchLen x L pos (i + 1) then (i + 1, matchLen x L pos (i + 1)) else best) (0, 0)

/-- The greedy scan (R252) from `pos`; `fuel` bounds the tokens, and the input's length is enough. -/
def lzScan (x : List Byte) (W L M : Nat) : Nat → Nat → List Token
  | 0, _ => []
  | fuel + 1, pos =>
    match x[pos]? with
    | none => []
    | some b =>
      let m := bestMatch x W L pos
      if M ≤ m.2 then
        let next := match x[pos + m.2]? with
          | some c => c.toNat
          | none => noneSymbol
        ⟨m.1, m.2, next⟩ :: lzScan x W L M fuel (pos + m.2 + 1)
      else ⟨0, 0, b.toNat⟩ :: lzScan x W L M fuel (pos + 1)

/-- `lzTokens(x)` (R252), which lzReplay inverts (R258). -/
def lzTokens (x : List Byte) (W L M : Nat) : List Token := lzScan x W L M x.length 0

/-- The copy loop of R257: `len` times the byte `off` positions behind the end, one at a time. -/
def copyBack (off : Nat) : Nat → List Byte → List Byte
  | 0, out => out
  | len + 1, out => copyBack off len (out ++ [out.getD (out.length - off) 0])

/-- How many bytes a token adds (R257). -/
def Token.added (t : Token) : Nat := t.len + (if t.next = noneSymbol then 0 else 1)

/-- `lzReplay(T, cap)` (R257), the inverse of lzTokens (R258), with `t` tokens done and `out` put out: checks (a) to (d)
in their order, the copy, the next symbol. -/
def lzReplay (cap : Nat) (t : Nat) (out : List Byte) : List Token → Except Raise (List Byte)
  | [] => .ok out
  | k :: T =>
    if k.off = 0 ∧ 0 < k.len then .error (ErrorKind.invalidBackReference.at t)
    else if ¬ (k.off = 0 ∧ k.len = 0) ∧ out.length < k.off then .error (ErrorKind.invalidBackReference.at t)
    else if noneSymbol < k.next then .error (ErrorKind.invalidBackReference.at t)
    else if cap < out.length + k.added then .error (ErrorKind.capacityExceeded.at 1)
    else
      let copied := copyBack k.off k.len out
      lzReplay cap (t + 1) (if k.next = noneSymbol then copied else copied ++ [BitVec.ofNat 8 k.next]) T

/-- The tokens of an input under the configuration registers (R256, R286: W, L and M from CUR). -/
def Inputs.tokens (x : Inputs) : List Token :=
  lzTokens x.src x.ops.window.toNat x.ops.maxLen.toNat x.ops.minMatch.toNat

/-- LZCOMP's pseudocode (R256). -/
def lzcompBody (x : Inputs) : Except Raise Result := do
  let out ← emit x ((flatten x.tokens).flatMap be32)
  .ok { out := out
        res0 := BitVec.ofNat 32 out.length
        res1 := BitVec.ofNat 32 x.tokens.length }

/-- LZCOMP (R256). -/
def execLzcomp (s : State) : Outcome := .next (s.runCommand (shapeOf .lzcomp) lzcompBody)

/-- LZDEC's pseudocode (R259). -/
def lzdecBody (x : Inputs) : Except Raise Result := do
  let out ← lzReplay x.ops.dstCap.toNat 0 [] (tokensOf (wordsOf x.src))
  let out ← emit x out
  .ok { out := out
        res0 := BitVec.ofNat 32 out.length
        res1 := BitVec.ofNat 32 (tokensOf (wordsOf x.src)).length }

/-- LZDEC (R259). -/
def execLzdec (s : State) : Outcome := .next (s.runCommand (shapeOf .lzdec) lzdecBody)

end Sys2Proof.Machine
end

