-- ==== Sys2Proof/Machine/Container.lean ====
section
/-! DEFINITION. The adaptive container (45_container): the two record forms, candidate B and the selection rule, the
record parser and the decode path, CCOMP and CDEC. -/

namespace Sys2Proof.Machine

open Sys2Proof.Config

/-- The magic tag "OWO2" (R280; its ASCII codes are R11's). -/
def magic : List Byte := [0x4F, 0x57, 0x4F, 0x32]

/-- `rawRecord(x)` (R282). -/
def rawRecord (x : List Byte) : List Byte := magic ++ [0x00] ++ be32 (BitVec.ofNat 32 x.length) ++ x

/-- `size_RAW(N)` (R282). -/
def sizeRaw (n : Nat) : Nat := 9 + n

/-- `entRecord` of a codebook and a bit string (R283). -/
def entRecord (C : Codebook) (s : Bits) : List Byte :=
  magic ++ [0x01] ++ serCB C ++ varintBytes (stream s).length ++ stream s

/-- `|serCB(C)|` from the entry count, the symbols and the code lengths alone (R211, R219). -/
def serCBLength (C : Codebook) : Nat :=
  varintLen C.length + (C.map fun e => varintLen e.sym.toNat + varintLen e.code.length + ceil8 e.code.length).sum

/-- `size_ENT` (R283), computed before anything is written (R285). -/
def sizeEnt (C : Codebook) (s : Bits) : Nat :=
  5 + serCBLength C + varintLen (1 + ceil8 s.length) + (1 + ceil8 s.length)

/-- Candidate B (R286): `none` is NOT_VIABLE, which is no error (D39); too little scratch is CapacityExceeded(2). -/
def buildB (x : Inputs) : Except Raise (Option (Codebook × Bits)) :=
  let T := x.tokens
  let F := freqTable (flatten T)
  let C := codebookOf F
  if x.ops.arg1.toNat < 12 * T.length then .error (ErrorKind.capacityExceeded.at 2)
  else if x.params.maxSymbols < F.length then .ok none
  else if C.tooLong then .ok none
  else do
    let s ← encodeBits C 0 (flatten T)
    .ok (some (C, s))

/-- `size_B` (R286), 0 where there is no viable candidate (R290, RES2). -/
def sizeB : Option (Codebook × Bits) → Nat
  | some (C, s) => sizeEnt C s
  | none => 0

/-- `chooseB` (R284) for a viable candidate of an input of `n` bytes. -/
def chooseB (ops : LockedRegs) (n sizeB : Nat) : Bool :=
  ops.minSize.toNat ≤ n && sizeB < sizeRaw n && 100 * sizeB ≤ ops.ratio.toNat * n

/-- The record CCOMP writes, with its marker (R284, R290). -/
def chosenRecord (x : Inputs) : Option (Codebook × Bits) → List Byte
  | some (C, s) => if chooseB x.ops x.src.length (sizeEnt C s) then entRecord C s else rawRecord x.src
  | none => rawRecord x.src

/-- CCOMP's pseudocode (R290): B is built only when N reaches MINSIZE, and then the scratch is used (entries 8, 9). -/
def ccompBody (x : Inputs) : Except Raise Result := do
  let built := decide (x.ops.minSize.toNat ≤ x.src.length)
  let B ← if built then buildB x else .ok none
  let out ← emit x (chosenRecord x B)
  .ok { out := out
        res0 := BitVec.ofNat 32 out.length
        res1 := (out.getD 4 0).zeroExtend 32
        res2 := BitVec.ofNat 32 (sizeB B)
        scratchUsed := built }

/-- CCOMP (R290). -/
def execCcomp (s : State) : Outcome := .next (s.runCommand (shapeOf .ccomp) ccompBody)

/-- A parsed record (R291). -/
inductive Record where
  | raw (payload : List Byte) (stop : Nat)
  | ent (C : Codebook) (s : Bits) (p : Nat) (stop : Nat)
deriving DecidableEq, Repr

/-- The payload of a RAW record (R291). -/
def parseRaw (B : List Byte) : Except Raise Record :=
  if B.length < 9 then .error (ErrorKind.truncatedPayload.at 5)
  else
    let n := beNat ((B.drop 5).take 4)
    if B.length < 9 + n then .error (ErrorKind.truncatedPayload.at 9)
    else .ok (.raw ((B.drop 9).take n) (9 + n))

/-- The payload of a DICTIONARY_ENTROPY record (R291). -/
def parseEnt (maxSymbols : Nat) (B : List Byte) : Except Raise Record := do
  let (C, q) ← parseCB maxSymbols B 5
  let (bslen, p) ← readVarInt B q
  if bslen = 0 then .error (ErrorKind.corruptBitstream.at q)
  else if B.length < p + bslen then .error (ErrorKind.truncatedPayload.at p)
  else do
    let s ← streamBits ((B.drop p).take bslen) p
    .ok (.ent C s p (p + bslen))

/-- `parseRecord(B)` (R291): magic, marker, then the payload; bytes after the record are ignored (D41). -/
def parseRecord (maxSymbols : Nat) (B : List Byte) : Except Raise Record :=
  if B.take 4 ≠ magic then .error (ErrorKind.malformedHeader.at 0)
  else
    match B[4]? with
    | none => .error (ErrorKind.malformedHeader.at 4)
    | some mk =>
      if 1 < mk.toNat then .error (ErrorKind.unknownFormatMode.at 4)
      else if mk = 0 then parseRaw B
      else parseEnt maxSymbols B

/-- The decode path (R292): the whole bitstream into the scratch, the token count, then the replay. -/
def decodePath (x : Inputs) (C : Codebook) (s : Bits) (p : Nat) : Except Raise (List Byte) := do
  let syms ← decodeBits C x.ops.arg1.toNat (ErrorKind.capacityExceeded.at 2) (ErrorKind.corruptBitstream.at p) s [] 0
  if syms.length % 3 ≠ 0 then .error (ErrorKind.corruptBitstream.at p)
  else lzReplay x.ops.dstCap.toNat 0 [] (tokensOf syms)

/-- CDEC's pseudocode (R293). A RAW record leaves the scratch untouched (entry 8). -/
def cdecBody (x : Inputs) : Except Raise Result := do
  match ← parseRecord x.params.maxSymbols x.src with
  | .raw payload stop => do
    let out ← emit x payload
    .ok { out := out, res0 := BitVec.ofNat 32 out.length, res1 := BitVec.ofNat 32 stop, res2 := 0 }
  | .ent C s p stop => do
    let out ← decodePath x C s p
    let out ← emit x out
    .ok { out := out, res0 := BitVec.ofNat 32 out.length, res1 := BitVec.ofNat 32 stop, res2 := 1
          scratchUsed := true }

/-- CDEC (R293). -/
def execCdec (s : State) : Outcome := .next (s.runCommand (shapeOf .cdec) cdecBody)

end Sys2Proof.Machine
end

