-- ==== Sys2Proof/Machine/System.lean ====
section
/-! DEFINITION. NOP, the one command that belongs to no unit (40_system R145). -/

namespace Sys2Proof.Machine

/-- NOP's pseudocode: nothing; all results 0 (R145). -/
def nopBody (_ : Inputs) : Except Raise Result := .ok {}

/-- NOP (R145). -/
def execNop (s : State) : Outcome := .next (s.runCommand (shapeOf .nop) nopBody)

end Sys2Proof.Machine
end

