-- ==== Sys2Proof/Machine/Dispatch.lean ====
section
/-! DEFINITION. One arm per command (30_encoding R112). -/

namespace Sys2Proof.Machine

def exec (i : Instr) (s : State) : Host.Outcome State Fault Refusal :=
  match i with
  | .nop => Sys2Proof.Machine.execNop s
  | .bpack p => Sys2Proof.Machine.execBpack p s
  | .bunpack p => Sys2Proof.Machine.execBunpack p s
  | .vwrite => Sys2Proof.Machine.execVwrite s
  | .vread => Sys2Proof.Machine.execVread s
  | .hbuild w => Sys2Proof.Machine.execHbuild w s
  | .henc w => Sys2Proof.Machine.execHenc w s
  | .hdec => Sys2Proof.Machine.execHdec s
  | .hser => Sys2Proof.Machine.execHser s
  | .hdeser => Sys2Proof.Machine.execHdeser s
  | .hcode => Sys2Proof.Machine.execHcode s
  | .lzcomp => Sys2Proof.Machine.execLzcomp s
  | .lzdec => Sys2Proof.Machine.execLzdec s
  | .ccomp => Sys2Proof.Machine.execCcomp s
  | .cdec => Sys2Proof.Machine.execCdec s

end Sys2Proof.Machine
end

