-- ==== Sys2Proof/Machine/Turn.lean ====
section
/-! DEFINITION. The turns of the two agents (00_scope R13): the sequencer's atomic step (70_reset_and_hazards R370) and
what each event does. -/

namespace Sys2Proof.Machine

/-- A turn of the core sequencer (R53, R370). While IDLE it waits (R363). While BUSY it decodes CUR's word and runs the
command to completion; an illegal word completes with BadCommand, its ERRINFO the word (R114, R120). -/
def State.coreTurn (s : State) : Outcome :=
  match s.sequencer with
  | .idle => .next s
  | .busy cur =>
    match decode cur.word with
    | .ok i => exec i s
    | .error _ => .next (s.raise { kind := .badCommand, info := cur.word })

/-- What an event does (R13, R14, R360). -/
def State.handle (s : State) (e : Event) : Outcome :=
  match e with
  | .host a => .next (s.access a)
  | .hardReset => .next s.resetBlock
  | .core => s.coreTurn

/-- A command word put in place for the sequencer's very next turn (entry 4): it has been accepted (R140), and the turn
is scheduled first. -/
def State.placeCommand (s : State) (w : Word) : State :=
  { s.accept w with schedule := .core :: s.schedule }

end Sys2Proof.Machine
end

