-- ==== Sys2Proof/Machine/Step.lean ====
section
/-! DEFINITION. One step of the machine: the next event of the schedule, or the sequencer's turn when nothing is
scheduled (00_scope R13, 70_reset_and_hazards R370; entry 3). -/

namespace Sys2Proof.Machine

/-- One step. -/
def step (s : State) : Outcome :=
  match s.schedule with
  | e :: rest => State.handle { s with schedule := rest } e
  | [] => s.coreTurn

/-- `s` with the command of value `w` in the opcode table's numbering accepted and about to run (entry 4). -/
def State.withFetchWord (s : State) (nbits w : Nat) : State := s.placeCommand (BitVec.ofNat 32 (w % 2 ^ nbits))

end Sys2Proof.Machine
end

