-- ==== Sys2Proof/Safety.lean ====
section
/-! DEFINITION. What holds in every state of a run: the legal combinations the spec promises (10_state R36, R54, R56;
70_reset_and_hazards R371), LMEM's canonical form, and the legal parameters. A run is safe while it stays in these
states; no step of this machine stops. Below it, the words the statements are written in: what R83 and R115-R118 say of
each command, row by row and apart from Operands.lean, and what a success and a failure leave. -/

namespace Sys2Proof.Machine

open Sys2Proof.Config

/-- R36: BUSY = 1 implies DONE = ERR = ERRCODE = 0, ERRCODE is non-zero exactly when ERR = 1; and a code is one of
R321's. -/
def State.StatusLegal (s : State) : Prop :=
  (s.busy = true → s.done = false ∧ s.err = false ∧ s.errcode = 0) ∧ (s.errcode ≠ 0 ↔ s.err = true) ∧ s.errcode.toNat ≤ 12

/-- R371, R95 item 4: while BUSY, RES0-RES2 and ERRINFO read 0. -/
def State.ResultsHidden (s : State) : Prop :=
  s.busy = true → s.res0 = 0 ∧ s.res1 = 0 ∧ s.res2 = 0 ∧ s.errinfo = 0

/-- R54: while BUSY, CUR equals the registers and the CMD readback. -/
def State.CurMatches (s : State) : Prop :=
  ∀ cur, s.sequencer = .busy cur → cur.regs = s.regs ∧ cur.word = s.cmd

/-- R56: no two entries share a symbol (they stand in ascending order, entry 14), no two share a code, every code has
1..32 digits, and at most MAX_SYMBOLS entries exist. -/
def Codebook.Legal (maxSymbols : Nat) (C : Codebook) : Prop :=
  C.Pairwise (fun d e => d.sym.toNat < e.sym.toNat) ∧ C.Pairwise (fun d e => d.code ≠ e.code)
    ∧ (∀ e ∈ C, 1 ≤ e.code.length ∧ e.code.length ≤ maxCodeLen) ∧ C.length ≤ maxSymbols

/-- R56 for the codebook store. -/
def State.CodebookLegal (s : State) : Prop := ∀ C, s.cb = some C → Codebook.Legal s.params.maxSymbols C

/-- LMEM is in canonical form and holds no offset at or above LMEM_SIZE (R81; entry 1). -/
def State.LmemLegal (s : State) : Prop := s.lmem.wf = true ∧ s.lmem.within s.params.lmemSize = true

/-- "No code is a prefix of another code" (R210, R16). -/
def Codebook.PrefixFree (C : Codebook) : Prop :=
  C.Pairwise fun d e => ¬ d.code <+: e.code ∧ ¬ e.code <+: d.code

/-- Everything a run keeps. -/
structure State.Inv (s : State) : Prop where
  params : s.params.wellFormed = true
  status : s.StatusLegal
  hidden : s.ResultsHidden
  cur : s.CurMatches
  codebook : s.CodebookLegal
  lmem : s.LmemLegal

end Sys2Proof.Machine

namespace Sys2Proof

/-! ## What the tables say of each command -/

/-- R83, column "source". -/
def Instr.usesSource : Instr → Bool
  | .nop | .vwrite | .hser | .hcode => false
  | .bpack _ | .bunpack _ | .vread | .hbuild _ | .henc _ | .hdec | .hdeser | .lzcomp | .lzdec | .ccomp | .cdec => true

/-- R83, column "destination". -/
def Instr.usesDestination : Instr → Bool
  | .nop | .hcode | .vread | .hdeser | .hbuild _ => false
  | .bpack _ | .bunpack _ | .vwrite | .henc _ | .hdec | .hser | .lzcomp | .lzdec | .ccomp | .cdec => true

/-- R83, column "scratch". -/
def Instr.usesScratch : Instr → Bool
  | .ccomp | .cdec => true
  | .nop | .bpack _ | .bunpack _ | .vwrite | .vread | .hbuild _ | .henc _ | .hdec | .hser | .hdeser | .hcode | .lzcomp
  | .lzdec => false

/-- `src_is_words` of R117. -/
def Instr.sourceIsWords : Instr → Bool
  | .hbuild w | .henc w => w
  | .lzdec => true
  | .nop | .bpack _ | .bunpack _ | .vwrite | .vread | .hdec | .hser | .hdeser | .hcode | .lzcomp | .ccomp | .cdec => false

/-- `dst_is_words` of R117. -/
def Instr.destinationIsWords : Instr → Bool
  | .hdec | .lzcomp => true
  | .nop | .bpack _ | .bunpack _ | .vwrite | .vread | .hbuild _ | .henc _ | .hser | .hdeser | .hcode | .lzdec | .ccomp
  | .cdec => false

/-- The commands of R115. -/
def Instr.checksConfig : Instr → Bool
  | .lzcomp | .ccomp => true
  | .nop | .bpack _ | .bunpack _ | .vwrite | .vread | .hbuild _ | .henc _ | .hdec | .hser | .hdeser | .hcode | .lzdec
  | .cdec => false

/-- The commands of R118. -/
def Instr.readsCodebook : Instr → Bool
  | .henc _ | .hdec | .hser | .hcode => true
  | .nop | .bpack _ | .bunpack _ | .vwrite | .vread | .hbuild _ | .hdeser | .lzcomp | .lzdec | .ccomp | .cdec => false

/-- The commands that clear CB_VALID when they begin to execute (R57). -/
def Instr.clearsCbValid : Instr → Bool
  | .hbuild _ | .hdeser | .ccomp | .cdec => true
  | .nop | .bpack _ | .bunpack _ | .vwrite | .vread | .henc _ | .hdec | .hser | .hcode | .lzcomp | .lzdec => false

end Sys2Proof

namespace Sys2Proof.Machine

open Sys2Proof.Config

/-- Two regions, address and length, do not overlap in the sense of R117. -/
def Apart (a n b m : Nat) : Prop := n = 0 ∨ m = 0 ∨ a + n ≤ b ∨ b + m ≤ a

/-- The source region lies in LMEM (R116). -/
def State.SourceFits (s : State) : Prop := s.operands.srcAddr.toNat + s.operands.srcLen.toNat ≤ s.params.lmemSize

/-- The destination region lies in LMEM (R116). -/
def State.DestinationFits (s : State) : Prop := s.operands.dstAddr.toNat + s.operands.dstCap.toNat ≤ s.params.lmemSize

/-- The scratch region lies in LMEM (R116). -/
def State.ScratchFits (s : State) : Prop := s.operands.arg0.toNat + s.operands.arg1.toNat ≤ s.params.lmemSize

/-- Source and destination do not overlap (R117). -/
def State.SourceDestinationApart (s : State) : Prop :=
  Apart s.operands.srcAddr.toNat s.operands.srcLen.toNat s.operands.dstAddr.toNat s.operands.dstCap.toNat

/-- Source and scratch do not overlap (R117). -/
def State.SourceScratchApart (s : State) : Prop :=
  Apart s.operands.srcAddr.toNat s.operands.srcLen.toNat s.operands.arg0.toNat s.operands.arg1.toNat

/-- Destination and scratch do not overlap (R117). -/
def State.DestinationScratchApart (s : State) : Prop :=
  Apart s.operands.dstAddr.toNat s.operands.dstCap.toNat s.operands.arg0.toNat s.operands.arg1.toNat

/-- The operands are word-aligned where the command's source is words (R117, R89). -/
def State.SourceAligned (s : State) : Prop := s.operands.srcAddr.toNat % 4 = 0 ∧ s.operands.srcLen.toNat % 4 = 0

/-- The acceptance error of R115-R118 in the order of R120, condition by condition as those rules give them; none when
the command begins to execute. -/
def State.firstAcceptanceError (s : State) (i : Instr) : Option Raise :=
  if i.checksConfig = true ∧ s.operands.window = 0 then some { kind := .badConfig, info := 0x44 }
  else if i.checksConfig = true ∧ s.operands.maxLen = 0 then some { kind := .badConfig, info := 0x48 }
  else if i.checksConfig = true ∧ s.operands.minMatch = 0 then some { kind := .badConfig, info := 0x4C }
  else if i.usesSource = true ∧ s.params.lmemSize < s.operands.srcAddr.toNat + s.operands.srcLen.toNat then
    some { kind := .badOperand, info := 1 }
  else if i.usesDestination = true ∧ s.params.lmemSize < s.operands.dstAddr.toNat + s.operands.dstCap.toNat then
    some { kind := .badOperand, info := 2 }
  else if i.usesScratch = true ∧ s.params.lmemSize < s.operands.arg0.toNat + s.operands.arg1.toNat then
    some { kind := .badOperand, info := 3 }
  else if i.sourceIsWords = true ∧ (s.operands.srcAddr.toNat % 4 ≠ 0 ∨ s.operands.srcLen.toNat % 4 ≠ 0) then
    some { kind := .badOperand, info := 4 }
  else if i = .lzdec ∧ s.operands.srcLen.toNat % 12 ≠ 0 then some { kind := .badOperand, info := 4 }
  else if i.destinationIsWords = true ∧ s.operands.dstAddr.toNat % 4 ≠ 0 then some { kind := .badOperand, info := 4 }
  else if i.usesScratch = true ∧ s.operands.arg0.toNat % 4 ≠ 0 then some { kind := .badOperand, info := 4 }
  else if (i.usesSource = true ∧ i.usesDestination = true ∧ 0 < s.operands.srcLen.toNat ∧ 0 < s.operands.dstCap.toNat ∧
        s.operands.srcAddr.toNat < s.operands.dstAddr.toNat + s.operands.dstCap.toNat ∧
        s.operands.dstAddr.toNat < s.operands.srcAddr.toNat + s.operands.srcLen.toNat) ∨
      (i.usesSource = true ∧ i.usesScratch = true ∧ 0 < s.operands.srcLen.toNat ∧ 0 < s.operands.arg1.toNat ∧
        s.operands.srcAddr.toNat < s.operands.arg0.toNat + s.operands.arg1.toNat ∧
        s.operands.arg0.toNat < s.operands.srcAddr.toNat + s.operands.srcLen.toNat) ∨
      (i.usesDestination = true ∧ i.usesScratch = true ∧ 0 < s.operands.dstCap.toNat ∧ 0 < s.operands.arg1.toNat ∧
        s.operands.dstAddr.toNat < s.operands.arg0.toNat + s.operands.arg1.toNat ∧
        s.operands.arg0.toNat < s.operands.dstAddr.toNat + s.operands.dstCap.toNat) then
    some { kind := .badOperand, info := 5 }
  else if i = .bunpack false ∧ 7 < s.operands.arg0.toNat then some { kind := .badOperand, info := 6 }
  else if i.readsCodebook = true ∧ s.cb = none then some { kind := .noCodebook, info := 0 }
  else none

/-- The conditions under which each command begins to execute (R83, R89, R115-R118), command by command. -/
def State.Accepts (s : State) : Instr → Prop
  | .nop => True
  | .bpack _ => s.SourceFits ∧ s.DestinationFits ∧ s.SourceDestinationApart
  | .bunpack p => s.SourceFits ∧ s.DestinationFits ∧ s.SourceDestinationApart ∧ (p = false → s.operands.arg0.toNat ≤ 7)
  | .vwrite => s.DestinationFits
  | .vread => s.SourceFits
  | .hbuild w => s.SourceFits ∧ (w = true → s.SourceAligned)
  | .henc w => s.SourceFits ∧ s.DestinationFits ∧ (w = true → s.SourceAligned) ∧ s.SourceDestinationApart ∧ s.cb ≠ none
  | .hdec =>
    s.SourceFits ∧ s.DestinationFits ∧ s.operands.dstAddr.toNat % 4 = 0 ∧ s.SourceDestinationApart ∧ s.cb ≠ none
  | .hser => s.DestinationFits ∧ s.cb ≠ none
  | .hdeser => s.SourceFits
  | .hcode => s.cb ≠ none
  | .lzcomp =>
    s.operands.window ≠ 0 ∧ s.operands.maxLen ≠ 0 ∧ s.operands.minMatch ≠ 0 ∧
      s.SourceFits ∧ s.DestinationFits ∧ s.operands.dstAddr.toNat % 4 = 0 ∧ s.SourceDestinationApart
  | .lzdec =>
    s.SourceFits ∧ s.DestinationFits ∧ s.SourceAligned ∧ s.operands.srcLen.toNat % 12 = 0 ∧ s.SourceDestinationApart
  | .ccomp =>
    s.operands.window ≠ 0 ∧ s.operands.maxLen ≠ 0 ∧ s.operands.minMatch ≠ 0 ∧
      s.SourceFits ∧ s.DestinationFits ∧ s.ScratchFits ∧ s.operands.arg0.toNat % 4 = 0 ∧
      s.SourceDestinationApart ∧ s.SourceScratchApart ∧ s.DestinationScratchApart
  | .cdec =>
    s.SourceFits ∧ s.DestinationFits ∧ s.ScratchFits ∧ s.operands.arg0.toNat % 4 = 0 ∧
      s.SourceDestinationApart ∧ s.SourceScratchApart ∧ s.DestinationScratchApart

/-! ## What a command reads -/

/-- The byte source of R121. -/
def State.source (s : State) : List Byte :=
  s.lmem.readBytes s.operands.srcAddr.toNat s.operands.srcLen.toNat

/-- The word source of R121: `src[i] = MemRead32(SRC_ADDR + 4i)`. -/
def State.wordSource (s : State) : List Word :=
  (List.range (s.operands.srcLen.toNat / 4)).map fun i => s.lmem.readWord (s.operands.srcAddr.toNat + 4 * i)

/-- The source symbols of HBUILD and HENC (R121, R113). -/
def State.symbols (s : State) (w : Bool) : List Word :=
  if w then s.wordSource else s.source.map (·.zeroExtend 32)

/-- The token source of R121 and R259. -/
def State.tokenSource (s : State) : List Token :=
  (List.range (s.operands.srcLen.toNat / 12)).map fun t =>
    { off := (s.lmem.readWord (s.operands.srcAddr.toNat + 12 * t)).toNat
      len := (s.lmem.readWord (s.operands.srcAddr.toNat + 12 * t + 4)).toNat
      next := (s.lmem.readWord (s.operands.srcAddr.toNat + 12 * t + 8)).toNat }

/-- The tokens LZCOMP and CCOMP make of the source (R252, R256, R286). -/
def State.sourceTokens (s : State) : List Token :=
  lzTokens s.source s.operands.window.toNat s.operands.maxLen.toNat s.operands.minMatch.toNat

/-- The bytes a finished command left at its destination: RES0 of them (R122). -/
def State.outputOf (s t : State) : List Byte := t.lmem.readBytes s.operands.dstAddr.toNat t.res0.toNat

/-! ## What a command leaves -/

/-- An offset of the destination region. -/
def State.InDestination (s : State) (a : Nat) : Prop :=
  s.operands.dstAddr.toNat ≤ a ∧ a < s.operands.dstAddr.toNat + s.operands.dstCap.toNat

/-- An offset of the scratch region. -/
def State.InScratch (s : State) (a : Nat) : Prop :=
  s.operands.arg0.toNat ≤ a ∧ a < s.operands.arg0.toNat + s.operands.arg1.toNat

/-- An offset of a region the command may write (R83). -/
def State.MayWrite (s : State) (i : Instr) (a : Nat) : Prop :=
  (i.usesDestination = true ∧ s.InDestination a) ∨ (i.usesScratch = true ∧ s.InScratch a)

/-- What no command ever changes: the operand and configuration registers, the CMD readback, CTRL.IRQ_EN, WERR (R374,
R52), and the model's own fields but for `draws`. -/
def State.SameRegisters (s t : State) : Prop :=
  t.regs = s.regs ∧ t.cmd = s.cmd ∧ t.irqEn = s.irqEn ∧ t.werr = s.werr ∧ t.params = s.params ∧
    t.schedule = s.schedule ∧ t.port = s.port

/-- BUSY cleared and DONE set (R142). -/
def State.Finished (t : State) : Prop := t.sequencer = .idle ∧ t.done = true

/-- The whole state after a success (R142) that puts `out` out from DST_ADDR on, with results r0, r1, r2. Everything else
is as before. -/
def State.completed (s : State) (out : List Byte) (r0 r1 r2 : Nat) : State :=
  { s with
    lmem := s.lmem.writeBytes s.operands.dstAddr.toNat out
    res0 := BitVec.ofNat 32 r0, res1 := BitVec.ofNat 32 r1, res2 := BitVec.ofNat 32 r2
    sequencer := .idle, done := true }

/-- `t` is an error completion of command `i` from `s` after its acceptance checks (R142, R322, R326). -/
def State.Failed (s : State) (i : Instr) (e : Raise) (t : State) : Prop :=
  t.res0 = 0 ∧ t.res1 = 0 ∧ t.res2 = 0 ∧ t.errinfo = e.info ∧ t.errcode = e.kind.code ∧ t.err = true ∧ t.Finished ∧
    t.cb = (if i.clearsCbValid then none else s.cb) ∧ s.SameRegisters t ∧
    ∀ a, ¬ s.MayWrite i a → t.lmem.readByte a = s.lmem.readByte a

/-- A command of R112 runs, latched in CUR, in a state the spec's promises hold of. -/
def State.Runs (s : State) (i : Instr) : Prop := s.Inv ∧ ∃ cur, s.sequencer = .busy cur ∧ cur.word = encode i

/-- The code of an entry is met in a bit string, and no proper prefix of it is a code (R215: "the shortest matching code
wins"). -/
def Codebook.Emits (C : Codebook) (code : Bits) (sym : Word) : Prop :=
  ({ sym := sym, code := code } : Entry) ∈ C ∧ ∀ u v : Bits, code = u ++ v → u ≠ [] → v ≠ [] →
    ∀ e ∈ C, e.code ≠ u

/-- A tail in which no code is met (R215). -/
def Codebook.Stuck (C : Codebook) (tail : Bits) : Prop := ∀ u v : Bits, tail = u ++ v → u ≠ [] → ∀ e ∈ C, e.code ≠ u

/-! ## The tree, counted (R200, R204) -/

/-- The number of leaves, the dummy among them. -/
def Node.leafCount : Node → Nat
  | .leaf _ _ _ => 1
  | .dummy _ => 1
  | .node _ _ l r => l.leafCount + r.leafCount

/-- The number of internal nodes. -/
def Node.internalCount : Node → Nat
  | .leaf _ _ _ => 0
  | .dummy _ => 0
  | .node _ _ l r => 1 + l.internalCount + r.internalCount

/-- R200: an internal node's frequency is "equal to the sum of children's frequencies". -/
def Node.SumsFrequencies : Node → Prop
  | .leaf _ _ _ => True
  | .dummy _ => True
  | .node f _ l r => f = l.freq + r.freq ∧ l.SumsFrequencies ∧ r.SumsFrequencies

/-! ## How a tree is built (R202-R208)

Said apart from push, mergeLoop and walk: which two nodes a merge takes, and which path leads to a symbol. -/

/-- R203: node a comes before node b iff its frequency is lower, or the frequencies are equal and its seq is lower. -/
def Node.Precedes (a b : Node) : Prop := a.freq < b.freq ∨ (a.freq = b.freq ∧ a.seq < b.seq)

/-- R204, R207: merging the nodes of a queue, in whatever order they are listed, ends in `root`. Each merge takes the node
that precedes all the others as left child and the one that precedes the rest as right child, and numbers the new node
`next`, the later ones from `next + 1` on (R202). -/
inductive MergesTo : Nat → List Node → Node → Prop where
  | root (next : Nat) (n : Node) : MergesTo next [n] n
  | merge (next : Nat) (Q rest : List Node) (a b root : Node) : Q.Perm (a :: b :: rest) →
      (∀ m ∈ b :: rest, a.Precedes m) → (∀ m ∈ rest, b.Precedes m) →
      MergesTo (next + 1) (.node (a.freq + b.freq) next a b :: rest) root → MergesTo next Q root

/-- R202: S lists the distinct symbols of x in ascending numeric order. -/
def DistinctAscending (x S : List Word) : Prop :=
  (S.Pairwise fun s t => s.toNat < t.toNat) ∧ ∀ s, s ∈ S ↔ s ∈ x

/-- R202, R206: the leaves of x, whose distinct symbols are S: leaf k holds the k-th symbol of S and its count, and a
single leaf is followed by the dummy with seq 1. -/
def numberedLeaves (x S : List Word) : List Node :=
  (List.range S.length).map (fun k => .leaf (S.getD k 0) (x.count (S.getD k 0)) k) ++
    (if S.length = 1 then [.dummy 1] else [])

/-- R208: the path from a node to the leaf of `sym`, the digit 0 for each left child and 1 for each right child. -/
def PathTo (sym : Word) : Node → Bits → Prop
  | .leaf s _ _, path => s = sym ∧ path = []
  | .dummy _, _ => False
  | .node _ _ l r, path => (∃ p, path = false :: p ∧ PathTo sym l p) ∨ ∃ p, path = true :: p ∧ PathTo sym r p

/-! ## Host accesses -/

/-- The offsets of the operand and configuration registers (R31, RW-L). -/
def lockedOffsets : List Nat := [0x20, 0x24, 0x28, 0x2C, 0x30, 0x34, 0x44, 0x48, 0x4C, 0x50, 0x54]

/-- The offsets of the read-only registers (R31, RO). -/
def readOnlyOffsets : List Nat := [0x00, 0x04, 0x08, 0x0C, 0x1C, 0x38, 0x3C, 0x40, 0x58, 0x5C]

/-- R84: a CSR access with an answer other than a bus error. -/
def CsrAccessLegal (offset width : Nat) : Prop := width = 32 ∧ offset % 4 = 0 ∧ offset < 0x100

/-- R85: an LMEM access with an answer other than a bus error. -/
def LmemAccessLegal (size offset width : Nat) : Prop :=
  (width = 8 ∧ offset < size) ∨ (width = 32 ∧ offset % 4 = 0 ∧ offset + 4 ≤ size)

/-- The reset input (R360), or a write to CTRL with bit 1 = 1 (R362). -/
def Event.IsReset (e : Event) : Prop :=
  e = .hardReset ∨ ∃ v : Word, v.getLsbD 1 = true ∧ e = .host (.write .csr 0x10 32 v)

/-- The accesses that R328 names: a write to CMD or a locked register, or a legal LMEM access. -/
def Event.IsLocked (size : Nat) (e : Event) : Prop :=
  (∃ (off : Nat) (v : Word), e = .host (.write .csr off 32 v) ∧ (off = 0x18 ∨ off ∈ lockedOffsets)) ∨
  (∃ off width, e = .host (.read .lmem off width) ∧ LmemAccessLegal size off width) ∨
  (∃ (off width : Nat) (v : Word), e = .host (.write .lmem off width v) ∧ LmemAccessLegal size off width)

/-! ## The errors of each command (R340) -/

/-- R340, row by row: the command may complete with this ERRCODE (R321) and this ERRINFO. -/
def ErrorListed (arg0 : Word) (i : Instr) (code : Nat) (info : Word) : Prop :=
  match i with
  | .nop => False
  | .bpack _ => (code = 10 ∧ info ∈ [1, 2, 5]) ∨ (code = 8 ∧ info = 1)
  | .bunpack _ => (code = 10 ∧ info ∈ [1, 2, 5, 6]) ∨ (code = 3 ∧ info = 0) ∨ (code = 8 ∧ info = 1)
  | .vwrite => (code = 10 ∧ info = 2) ∨ (code = 8 ∧ info = 1)
  | .vread => (code = 10 ∧ info = 1) ∨ (code = 2 ∧ info = arg0)
  | .hbuild w => (code = 10 ∧ info = 1) ∨ (w = true ∧ code = 10 ∧ info = 4) ∨ (code = 8 ∧ info ∈ [3, 4])
  | .henc w =>
    (code = 10 ∧ info ∈ [1, 2, 5]) ∨ (w = true ∧ code = 10 ∧ info = 4) ∨ (code = 9 ∧ info = 0) ∨ code = 6 ∨
      (code = 8 ∧ info = 1)
  | .hdec =>
    (code = 10 ∧ info ∈ [1, 2, 4, 5]) ∨ (code = 9 ∧ info = 0) ∨ (code = 3 ∧ info = 0) ∨ (code = 8 ∧ info = 1)
  | .hser => (code = 10 ∧ info = 2) ∨ (code = 9 ∧ info = 0) ∨ (code = 8 ∧ info = 1)
  | .hdeser => (code = 10 ∧ info = 1) ∨ code = 2 ∨ (code = 8 ∧ info ∈ [3, 4]) ∨ code = 3 ∨ code = 7
  | .hcode => (code = 9 ∧ info = 0) ∨ (code = 6 ∧ info = 0)
  | .lzcomp => (code = 11 ∧ info ∈ [0x44, 0x48, 0x4C]) ∨ (code = 10 ∧ info ∈ [1, 2, 4, 5]) ∨ (code = 8 ∧ info = 1)
  | .lzdec => (code = 10 ∧ info ∈ [1, 2, 4, 5]) ∨ code = 5 ∨ (code = 8 ∧ info = 1)
  | .ccomp =>
    (code = 11 ∧ info ∈ [0x44, 0x48, 0x4C]) ∨ (code = 10 ∧ info ∈ [1, 2, 3, 4, 5]) ∨ (code = 8 ∧ info ∈ [1, 2])
  | .cdec =>
    (code = 10 ∧ info ∈ [1, 2, 3, 4, 5]) ∨ code = 1 ∨ code = 4 ∨ code = 7 ∨ code = 2 ∨ (code = 8 ∧ info ∈ [1, 2, 3, 4]) ∨
      code = 3 ∨ code = 5

/-! ## LMEM accesses while IDLE (R85, R87, R92) -/

/-- `m'` is `m` with the bytes `bs` from offset `off` on, and nothing else changed. -/
def Memory.Stores (m m' : Memory) (off : Nat) (bs : List Byte) : Prop :=
  m'.readBytes off bs.length = bs ∧ ∀ a, (a < off ∨ off + bs.length ≤ a) → m'.readByte a = m.readByte a

/-- R85, R92: a legal LMEM read answers the bytes and changes nothing; a legal LMEM write stores its bytes and changes
nothing else. The byte of an 8-bit write stands in the low 8 bits of the access's data (entry 16). -/
def State.ServesLmem (s : State) : Prop :=
  (∀ off, off < s.params.lmemSize →
    s.access (.read .lmem off 8) = { s with port := some (.data ((s.lmem.readByte off).zeroExtend 32)) } ∧
    (∀ v : Word, ∃ m, s.access (.write .lmem off 8 v) = { s with lmem := m, port := some .ok } ∧
      ∀ a, a ≠ off → m.readByte a = s.lmem.readByte a) ∧
    ∀ b : Byte, ∃ m, s.access (.write .lmem off 8 (b.zeroExtend 32)) = { s with lmem := m, port := some .ok } ∧
      s.lmem.Stores m off [b]) ∧
  ∀ off, off % 4 = 0 → off + 4 ≤ s.params.lmemSize →
    s.access (.read .lmem off 32) =
      { s with port := some (.data (BitVec.ofNat 32
          ((s.lmem.readByte off).toNat * 2 ^ 24 + (s.lmem.readByte (off + 1)).toNat * 2 ^ 16 +
            (s.lmem.readByte (off + 2)).toNat * 2 ^ 8 + (s.lmem.readByte (off + 3)).toNat))) } ∧
    ∀ v : Word, ∃ m, s.access (.write .lmem off 32 v) = { s with lmem := m, port := some .ok } ∧
      s.lmem.Stores m off
        [v.extractLsb' 24 8, v.extractLsb' 16 8, v.extractLsb' 8 8, v.extractLsb' 0 8]

/-! ## Varints and codebooks on the wire (R182, R217)

What lies at a cursor of a byte sequence, said apart from readVarInt and parseCB. -/

/-- The byte at a cursor as a number. -/
def byteAt (B : List Byte) (c : Nat) : Nat := (B.getD c 0).toNat

/-- R182: a varint of value `v`, of any tier, lies from cursor `c` to cursor `d`. -/
def VarintAt (B : List Byte) (c v d : Nat) : Prop :=
  (c < B.length ∧ byteAt B c < 0x80 ∧ v = byteAt B c ∧ d = c + 1) ∨
  (c + 1 < B.length ∧ 0x80 ≤ byteAt B c ∧ byteAt B c < 0xFF ∧
    v = (byteAt B c - 0x80) * 256 + byteAt B (c + 1) ∧ d = c + 2) ∨
  (c + 4 < B.length ∧ byteAt B c = 0xFF ∧
    v = byteAt B (c + 1) * 2 ^ 24 + byteAt B (c + 2) * 2 ^ 16 + byteAt B (c + 3) * 2 ^ 8 + byteAt B (c + 4) ∧ d = c + 5)

/-- R182: the varint at cursor `c` runs past the end. -/
def VarintCut (B : List Byte) (c : Nat) : Prop :=
  B.length ≤ c ∨ (B.length ≤ c + 1 ∧ 0x80 ≤ byteAt B c) ∨ (B.length ≤ c + 4 ∧ byteAt B c = 0xFF)

/-- R217: the entry `x` lies from cursor `p` to cursor `q`: symbol, length, and the packed digits, whose padding is
ignored. -/
def EntryAt (B : List Byte) (p : Nat) (x : Entry) (q : Nat) : Prop :=
  ∃ c d, VarintAt B p x.sym.toNat c ∧ VarintAt B c x.code.length d ∧ 1 ≤ x.code.length ∧ x.code.length ≤ 32 ∧
    q = d + (x.code.length + 7) / 8 ∧ q ≤ B.length ∧
    ∀ j, j < x.code.length → x.code[j]? = some ((B.getD (d + j / 8) 0).getLsbD (7 - j % 8))

/-- The entries of a list lie one after the other from cursor `p` to cursor `q`. -/
def EntriesAt (B : List Byte) (p : Nat) : List Entry → Nat → Prop
  | [], q => p = q
  | x :: E, q => ∃ c, EntryAt B p x c ∧ EntriesAt B c E q

/-- No two entries share a symbol, and no two share a code (R56). -/
def DistinctEntries (E : List Entry) : Prop := E.Pairwise fun d e => d.sym ≠ e.sym ∧ d.code ≠ e.code

/-- R217: a codebook with the entries `E`, in this order on the wire, lies from cursor `p` to cursor `q`. -/
def CodebookAt (maxSymbols : Nat) (B : List Byte) (p : Nat) (E : List Entry) (q : Nat) : Prop :=
  ∃ c, VarintAt B p E.length c ∧ E.length ≤ maxSymbols ∧ EntriesAt B c E q ∧ DistinctEntries E

/-- R217: the entry that starts at cursor `a`, behind the entries `E`, fails with `e`. -/
def EntryFails (B : List Byte) (E : List Entry) (a : Nat) (e : Raise) : Prop :=
  (VarintCut B a ∧ e = { kind := .malformedVarInt, info := BitVec.ofNat 32 a }) ∨
  (∃ sym c, VarintAt B a sym c ∧ VarintCut B c ∧ e = { kind := .malformedVarInt, info := BitVec.ofNat 32 c }) ∨
  (∃ sym c d, VarintAt B a sym c ∧ VarintAt B c 0 d ∧ e = { kind := .corruptBitstream, info := BitVec.ofNat 32 a }) ∨
  (∃ sym c len d, VarintAt B a sym c ∧ VarintAt B c len d ∧ 32 < len ∧ e = { kind := .capacityExceeded, info := 4 }) ∨
  (∃ sym c len d, VarintAt B a sym c ∧ VarintAt B c len d ∧ 1 ≤ len ∧ len ≤ 32 ∧ B.length < d + (len + 7) / 8 ∧
    e = { kind := .truncatedPayload, info := BitVec.ofNat 32 d }) ∨
  ∃ x q, EntryAt B a x q ∧ (∃ y ∈ E, y.sym = x.sym ∨ y.code = x.code) ∧
    e = { kind := .corruptBitstream, info := BitVec.ofNat 32 a }

/-- R217: the codebook that starts at cursor `p` fails with `e`: its count is cut off or too large, or the first entry
that is not good fails. -/
def CodebookFails (maxSymbols : Nat) (B : List Byte) (p : Nat) (e : Raise) : Prop :=
  (VarintCut B p ∧ e = { kind := .malformedVarInt, info := BitVec.ofNat 32 p }) ∨
  (∃ K c, VarintAt B p K c ∧ maxSymbols < K ∧ e = { kind := .capacityExceeded, info := 3 }) ∨
  ∃ K c E a, VarintAt B p K c ∧ K ≤ maxSymbols ∧ EntriesAt B c E a ∧ DistinctEntries E ∧ E.length < K ∧
    EntryFails B E a e

end Sys2Proof.Machine
end

