-- ==== Sys2Proof/Certificates/Slice0/Obligations.lean ====
section
/-! DEFINITION. The statements about the model, from the numbered rules of spec/: encoding, the life of a command, the bus
port, what each of the fifteen commands does, and the laws of the codecs. The vocabulary is in Safety.lean. A statement
about a command gives its next state for every state and every operand; where it fails, how. -/

section

open Sys2Proof Sys2Proof.Machine Sys2Proof.Config

/-! ## Encoding -/

/-- R112, R113: each mnemonic's word, with and without its suffix, decodes to its command. -/
def Obligations.TableWordsDecodeToTheirCommands : Prop :=
  decode 0x00000000 = .ok .nop ∧
  decode 0x00000010 = .ok (.bpack false) ∧ decode 0x00000110 = .ok (.bpack true) ∧
  decode 0x00000011 = .ok (.bunpack false) ∧ decode 0x00000111 = .ok (.bunpack true) ∧
  decode 0x00000020 = .ok .vwrite ∧ decode 0x00000021 = .ok .vread ∧
  decode 0x00000030 = .ok (.hbuild false) ∧ decode 0x00000130 = .ok (.hbuild true) ∧
  decode 0x00000031 = .ok (.henc false) ∧ decode 0x00000131 = .ok (.henc true) ∧
  decode 0x00000032 = .ok .hdec ∧ decode 0x00000033 = .ok .hser ∧ decode 0x00000034 = .ok .hdeser ∧
  decode 0x00000035 = .ok .hcode ∧ decode 0x00000040 = .ok .lzcomp ∧ decode 0x00000041 = .ok .lzdec ∧
  decode 0x00000050 = .ok .ccomp ∧ decode 0x00000051 = .ok .cdec

/-- R110, R123: for every word and every command, the decoder reads the command from the word exactly when the word is
the command's encoding. Both directions of the round trip. -/
def Obligations.DecodeAndEncodeAgree : Prop := ∀ (w : Word) (i : Instr), decode w = .ok i ↔ w = encode i

/-- R124: the rows' masks and matches, that no two rows select one word, and that a word selecting no row is refused. -/
def Obligations.OpcodeRowsAreDisjoint : Prop :=
  opcodeTable.map (fun r => (r.mask, r.pattern)) =
    [(0xFFFFFFFF, 0x00), (0xFFFFFEFF, 0x10), (0xFFFFFEFF, 0x11), (0xFFFFFFFF, 0x20), (0xFFFFFFFF, 0x21),
     (0xFFFFFEFF, 0x30), (0xFFFFFEFF, 0x31), (0xFFFFFFFF, 0x32), (0xFFFFFFFF, 0x33), (0xFFFFFFFF, 0x34),
     (0xFFFFFFFF, 0x35), (0xFFFFFFFF, 0x40), (0xFFFFFFFF, 0x41), (0xFFFFFFFF, 0x50), (0xFFFFFFFF, 0x51)] ∧
  opcodeTable.map (fun r => (r.build false, r.build true)) =
    [(.nop, .nop), (.bpack false, .bpack true), (.bunpack false, .bunpack true), (.vwrite, .vwrite), (.vread, .vread),
     (.hbuild false, .hbuild true), (.henc false, .henc true), (.hdec, .hdec), (.hser, .hser), (.hdeser, .hdeser),
     (.hcode, .hcode), (.lzcomp, .lzcomp), (.lzdec, .lzdec), (.ccomp, .ccomp), (.cdec, .cdec)] ∧
  (∀ (r : Row) (w : Word), r.selects w = true ↔ w &&& r.mask = r.pattern) ∧
  (opcodeTable.Pairwise fun r q => ∀ w : Word, ¬ (r.selects w = true ∧ q.selects w = true)) ∧
  ∀ w : Word, (∀ r ∈ opcodeTable, r.selects w = false) ↔ ∃ e, decode w = .error e

/-- R114: a word that is illegal for any of the three reasons completes with BadCommand, ERRINFO the word, and has no
other effect. -/
def Obligations.IllegalWordsCompleteWithBadCommand : Prop :=
  ∀ (s : State) (cur : Cur), s.sequencer = .busy cur →
    (cur.word.extractLsb' 0 8 ∉
        ([0x00, 0x10, 0x11, 0x20, 0x21, 0x30, 0x31, 0x32, 0x33, 0x34, 0x35, 0x40, 0x41, 0x50, 0x51] : List (BitVec 8)) ∨
      (∃ k, 9 ≤ k ∧ k < 32 ∧ cur.word.getLsbD k = true) ∨
      (cur.word.getLsbD 8 = true ∧ cur.word.extractLsb' 0 8 ∉ ([0x10, 0x11, 0x30, 0x31] : List (BitVec 8)))) →
    s.coreTurn = .next
      { s with
        res0 := 0, res1 := 0, res2 := 0, errinfo := cur.word, errcode := 12
        err := true, done := true, sequencer := .idle }

/-! ## The life of a command -/

/-- R141, R370: where the sequencer's turn comes, a step runs the latched command; and the word put in place by
withFetchWord is the one the next step runs (entry 4). -/
def Obligations.StepRunsTheDecodedCommand : Prop :=
  (∀ (s : State) (cur : Cur) (i : Instr), s.sequencer = .busy cur → decode cur.word = .ok i →
    (s.schedule = [] → step s = exec i s) ∧
    ∀ rest, s.schedule = .core :: rest → step s = exec i { s with schedule := rest }) ∧
  ∀ (s : State) (i : Instr), step (s.withFetchWord 32 (encode i).toNat) = exec i (s.accept (encode i))

/-- R140: what accepting a command does, and that a CMD write while BUSY is not accepted. -/
def Obligations.CmdWriteAcceptsACommand : Prop :=
  ∀ (s : State) (w : Word),
    (s.busy = false → s.access (.write .csr 0x18 32 w) =
      { s with
        sequencer := .busy { word := w, regs := s.regs }
        cmd := w
        done := false, err := false, errcode := 0
        errinfo := 0, res0 := 0, res1 := 0, res2 := 0
        port := some .ok }) ∧
    (s.busy = true → s.access (.write .csr 0x18 32 w) = { s with werr := true, port := some .ok })

/-- R115-R118: the first acceptance check that fails, in order, ends the command with its error and changes nothing else;
and the checks all pass exactly under the conditions listed command by command. -/
def Obligations.FirstFailingCheckEndsTheCommand : Prop :=
  ∀ (s : State) (i : Instr),
    (∀ e : Raise, s.firstAcceptanceError i = some e → exec i s = .next
      { s with
        res0 := 0, res1 := 0, res2 := 0, errinfo := e.info, errcode := e.kind.code
        err := true, done := true, sequencer := .idle }) ∧
    (s.firstAcceptanceError i = none ↔ s.Accepts i)

/-- R142, R38, R43: every command that runs completes, IDLE and DONE, either without any error mark or as an error
completion with a code of R321. -/
def Obligations.EveryCommandCompletes : Prop :=
  ∀ (s : State) (i : Instr), s.Runs i → ∃ t, exec i s = .next t ∧ t.Finished ∧
    ((t.err = false ∧ t.errcode = 0 ∧ t.errinfo = 0) ∨
      (t.err = true ∧ 1 ≤ t.errcode.toNat ∧ t.errcode.toNat ≤ 12 ∧ t.res0 = 0 ∧ t.res1 = 0 ∧ t.res2 = 0))

/-- R143: whatever the host does, and in whatever order the turns come, the schedule runs out and the sequencer is IDLE
one turn later; no step stops. -/
def Obligations.EveryScheduleEndsIdle : Prop :=
  ∀ s : State, ∃ t : State, Sys2Proof.core.run (s.schedule.length + 1) s = .next t ∧ t.sequencer = .idle ∧ t.schedule = []

/-- R374: no command writes an operand or CFG register; they change only by a host write to one of them or a reset; the
results and ERRINFO are cleared at acceptance. -/
def Obligations.OperandsPersist : Prop :=
  (∀ (s t : State) (i : Instr), exec i s = .next t → s.SameRegisters t) ∧
  (∀ (s t : State) (e : Event), s.handle e = .next t → t.regs ≠ s.regs →
    e.IsReset ∨ ∃ (off : Nat) (v : Word), e = .host (.write .csr off 32 v) ∧ off ∈ lockedOffsets) ∧
  ∀ (s : State) (w : Word),
    (s.accept w).res0 = 0 ∧ (s.accept w).res1 = 0 ∧ (s.accept w).res2 = 0 ∧ (s.accept w).errinfo = 0

/-- R83, D12, U24: no command changes a byte outside its destination and scratch; and after a success the destination
bytes beyond RES0 are unchanged too. -/
def Obligations.CommandsTouchOnlyTheirRegions : Prop :=
  (∀ (s t : State) (i : Instr) (a : Nat), exec i s = .next t → ¬ s.MayWrite i a →
    t.lmem.readByte a = s.lmem.readByte a) ∧
  ∀ (s t : State) (i : Instr) (a : Nat), s.Runs i → exec i s = .next t → t.err = false →
    i.usesDestination = true → (a < s.operands.dstAddr.toNat ∨ s.operands.dstAddr.toNat + t.res0.toNat ≤ a) →
    (i.usesScratch = true → ¬ s.InScratch a) → t.lmem.readByte a = s.lmem.readByte a

/-- R326: the state after an error completion. The bytes of item 1 are free values of one draw. -/
def Obligations.StateAfterAnError : Prop :=
  ∀ (s t : State) (i : Instr), s.Runs i → exec i s = .next t → t.err = true →
    (t.res0 = 0 ∧ t.res1 = 0 ∧ t.res2 = 0) ∧ t.regs = s.regs ∧
    (s.Accepts i →
      (∃ n, ∀ a, s.MayWrite i a → t.lmem.readByte a = freeByte n a) ∧
      (∀ a, ¬ s.MayWrite i a → t.lmem.readByte a = s.lmem.readByte a) ∧
      t.cb = (if i.clearsCbValid then none else s.cb)) ∧
    (¬ s.Accepts i → t.lmem = s.lmem ∧ t.cb = s.cb)

/-- R340: the errors each command can complete with. -/
def Obligations.ErrorsAreThoseOfTheTable : Prop :=
  ∀ (s t : State) (i : Instr), s.Runs i → exec i s = .next t → t.err = true →
    ErrorListed s.operands.arg0 i t.errcode.toNat t.errinfo

/-- R144: two runs of one command that agree on CUR, the source bytes and CB (and on the block's parameters) agree on
RES0-RES2, ERR, ERRCODE, ERRINFO, CB and, after a success, the bytes written. The rest of the state may differ in any
way. -/
def Obligations.ResultsAreAFunctionOfTheInputs : Prop :=
  ∀ (s₁ s₂ t₁ t₂ : State) (i : Instr), s₁.Runs i → s₂.Runs i → s₁.params = s₂.params → s₁.operands = s₂.operands →
    (i.usesSource = true → s₁.source = s₂.source) → s₁.cb = s₂.cb →
    exec i s₁ = .next t₁ → exec i s₂ = .next t₂ →
    t₁.res0 = t₂.res0 ∧ t₁.res1 = t₂.res1 ∧ t₁.res2 = t₂.res2 ∧ t₁.err = t₂.err ∧ t₁.errcode = t₂.errcode ∧
      t₁.errinfo = t₂.errinfo ∧ t₁.cb = t₂.cb ∧
      (t₁.err = false → i.usesDestination = true → s₁.outputOf t₁ = s₂.outputOf t₂)

/-- R57, R221: what each command does to CB and CB_VALID. -/
def Obligations.CodebookIsReplacedAsStated : Prop :=
  ∀ (s t : State) (i : Instr), s.Runs i → exec i s = .next t →
    (¬ s.Accepts i → t.cb = s.cb) ∧
    (i.clearsCbValid = false → t.cb = s.cb) ∧
    (s.Accepts i → i = .ccomp ∨ i = .cdec → t.cb = none) ∧
    (s.Accepts i → i = .hdeser ∨ (∃ w, i = .hbuild w) →
      (t.err = true → t.cb = none) ∧
      (t.err = false → ∃ C, t.cb = some C ∧ C.Legal s.params.maxSymbols ∧ t.res0 = BitVec.ofNat 32 C.length))

/-! ## Invariants -/

/-- The state after reset meets the invariant, for every choice of the parameters that R6 allows. -/
def Obligations.ResetStateMeetsTheInvariant : Prop :=
  State.reset.Inv ∧ ∀ p : Params, p.wellFormed = true → (State.resetOf p).Inv

/-- R36, R54, R56, R371, R81: every step keeps the legal flag combinations, CUR equal to the registers, the hidden
results, a legal codebook, and LMEM in canonical form inside LMEM_SIZE. -/
def Obligations.EveryStepKeepsTheInvariant : Prop := ∀ s t : State, s.Inv → step s = .next t → t.Inv

/-- R36: the STATUS fields never hold an illegal combination, ERR = 1 with DONE = 0 only after the host cleared DONE
alone, and reading STATUS has no side effect. -/
def Obligations.StatusIsNeverIllegal : Prop :=
  (∀ (s t : State) (e : Event), s.Inv → s.handle e = .next t →
    (t.busy = true → t.done = false ∧ t.err = false ∧ t.errcode = 0) ∧ (t.errcode ≠ 0 ↔ t.err = true) ∧
    (t.err = true → t.done = true ∨ (s.err = true ∧ s.done = false) ∨
      ∃ v : Word, e = .host (.write .csr 0x14 32 v) ∧ v.getLsbD 1 = true ∧ v.getLsbD 2 = false)) ∧
  ∀ s : State, ∃ r, s.access (.read .csr 0x14 32) = { s with port := some r }

/-! ## Reset -/

/-- R361: what every register reads after a reset, hardware or soft, from any state. -/
def Obligations.ResetGivesEveryRegisterItsValue : Prop :=
  ∀ (s t : State) (e : Event), e.IsReset → s.handle e = .next t →
    (∀ x ∈ ([(0x00, 0x4F574F32), (0x04, BitVec.ofNat 32 s.params.lmemSize), (0x08, BitVec.ofNat 32 s.params.maxSymbols),
        (0x0C, 32), (0x10, 0), (0x14, 0), (0x18, 0), (0x1C, 0), (0x20, 0), (0x24, 0), (0x28, 0), (0x2C, 0), (0x30, 0),
        (0x34, 0), (0x38, 0), (0x3C, 0), (0x40, 0), (0x44, 8192), (0x48, 258), (0x4C, 3), (0x50, 256), (0x54, 95),
        (0x58, 0), (0x5C, 0)] : List (Nat × Word)),
      (t.access (.read .csr x.1 32)).port = some (.data x.2)) ∧
    (∀ off, 0x60 ≤ off → off < 0x100 → off % 4 = 0 → (t.access (.read .csr off 32)).port = some (.data 0)) ∧
    t.cb = none ∧ t.sequencer = .idle ∧ t.irq = false

/-- R360, R362: a reset abandons the running command (it does not complete, its destination and scratch become free
values, and every other byte of LMEM keeps its value); CTRL bit 0 of the same write is lost; the write returns ok. -/
def Obligations.ResetAbandonsTheRunningCommand : Prop :=
  ∀ (s t : State) (e : Event), e.IsReset → s.handle e = .next t →
    t = { State.resetOf s.params with
          lmem := t.lmem, schedule := s.schedule, draws := t.draws
          port := if e = .hardReset then s.port else some .ok } ∧
    (∀ a, (∀ cur i, s.sequencer = .busy cur → decode cur.word = .ok i → ¬ s.MayWrite i a) →
      t.lmem.readByte a = s.lmem.readByte a) ∧
    ∀ cur i, s.sequencer = .busy cur → decode cur.word = .ok i →
      ∃ n, ∀ a, a < s.params.lmemSize → s.MayWrite i a → t.lmem.readByte a = freeByte n a

/-! ## The bus port -/

/-- R329, R84, R85: an access of illegal width, alignment or offset gets a bus error and has no effect on any state; a
legal one does not get a bus error. -/
def Obligations.IllegalAccessesHaveNoEffect : Prop :=
  ∀ (s : State) (space : Space) (off width : Nat) (v : Word),
    ((space = .csr ∧ ¬ CsrAccessLegal off width) ∨ (space = .lmem ∧ ¬ LmemAccessLegal s.params.lmemSize off width) →
      s.access (.read space off width) = { s with port := some .busError } ∧
      s.access (.write space off width v) = { s with port := some .busError }) ∧
    ((space = .csr ∧ CsrAccessLegal off width) ∨ (space = .lmem ∧ LmemAccessLegal s.params.lmemSize off width) →
      (s.access (.read space off width)).port ≠ some .busError ∧
      (s.access (.write space off width v)).port = some .ok)

/-- R87: mixed-width views of the same bytes, from the host's side and from a command's. R92: while IDLE an LMEM access
changes nothing but the bytes it writes, and a CSR read changes nothing, at any time. -/
def Obligations.LmemWordsAreBigEndian : Prop :=
  (∀ (s : State) (a : Nat) (v : Word), s.busy = false → a % 4 = 0 → a + 4 ≤ s.params.lmemSize →
    (∀ k, k < 4 → ((s.access (.write .lmem a 32 v)).access (.read .lmem (a + k) 8)).port =
      some (.data ((v.extractLsb' (24 - 8 * k) 8).zeroExtend 32))) ∧
    ∀ b, b < a ∨ a + 4 ≤ b → (s.access (.write .lmem a 32 v)).lmem.readByte b = s.lmem.readByte b) ∧
  (∀ (s : State) (a : Nat) (b0 b1 b2 b3 : Byte), s.busy = false → a % 4 = 0 → a + 4 ≤ s.params.lmemSize →
    (((((s.access (.write .lmem a 8 (b0.zeroExtend 32))).access (.write .lmem (a + 1) 8 (b1.zeroExtend 32))).access
      (.write .lmem (a + 2) 8 (b2.zeroExtend 32))).access (.write .lmem (a + 3) 8 (b3.zeroExtend 32))).access
      (.read .lmem a 32)).port =
      some (.data (BitVec.ofNat 32
        (b0.toNat * 2 ^ 24 + b1.toNat * 2 ^ 16 + b2.toNat * 2 ^ 8 + b3.toNat)))) ∧
  (∀ (m : Memory) (a : Nat), wordsOf (m.readBytes a 4) =
    [BitVec.ofNat 32 ((m.readByte a).toNat * 2 ^ 24 + (m.readByte (a + 1)).toNat * 2 ^ 16 +
      (m.readByte (a + 2)).toNat * 2 ^ 8 + (m.readByte (a + 3)).toNat)]) ∧
  (∀ s : State, s.busy = false → s.ServesLmem) ∧
  ∀ (s : State) (off : Nat), CsrAccessLegal off 32 →
    ∃ w : Word, s.access (.read .csr off 32) = { s with port := some (.data w) }

/-- R31, R40-R48: while IDLE a locked register reads back what was written, its reserved bits 0, and no other register
reads differently for it. -/
def Obligations.RegistersReadBackWhatWasWritten : Prop :=
  ∀ (s : State) (off : Nat) (v : Word), s.busy = false → off ∈ lockedOffsets →
    ((s.access (.write .csr off 32 v)).access (.read .csr off 32)).port =
      some (.data (v &&& (if off = 0x44 ∨ off = 0x48 ∨ off = 0x4C then 0xFFFF else if off = 0x54 then 0xFF
        else 0xFFFFFFFF))) ∧
    ∀ other, other < 0x100 → other % 4 = 0 → other ≠ off →
      ((s.access (.write .csr off 32 v)).access (.read .csr other 32)).port = (s.access (.read .csr other 32)).port

/-- R35: the bits of the STATUS word, and what writing it does. -/
def Obligations.StatusReadsAndClears : Prop :=
  (∀ s : State, ∃ w : Word, s.access (.read .csr 0x14 32) = { s with port := some (.data w) } ∧
    w.getLsbD 0 = s.busy ∧ w.getLsbD 1 = s.done ∧ w.getLsbD 2 = s.err ∧ w.getLsbD 3 = s.werr ∧
    w.extractLsb' 8 4 = s.errcode ∧ w.getLsbD 16 = s.cb.isSome ∧
    ∀ k, (4 ≤ k ∧ k < 8) ∨ (12 ≤ k ∧ k < 16) ∨ (17 ≤ k ∧ k < 32) → w.getLsbD k = false) ∧
  ∀ (s : State) (v : Word), s.access (.write .csr 0x14 32 v) =
    { s with
      done := if v.getLsbD 1 then false else s.done
      err := if v.getLsbD 2 then false else s.err
      errcode := if v.getLsbD 2 then 0 else s.errcode
      werr := if v.getLsbD 3 then false else s.werr
      port := some .ok }

/-- R50, R51: what CB_COUNT and CB_MAXLEN read, and that writing them does nothing. -/
def Obligations.CodebookCountAndMaxLen : Prop :=
  ∀ s : State, s.Inv → ∃ n m : Word,
    (s.access (.read .csr 0x58 32)).port = some (.data n) ∧ (s.access (.read .csr 0x5C 32)).port = some (.data m) ∧
    (∀ v : Word, s.access (.write .csr 0x58 32 v) = { s with port := some .ok } ∧
      s.access (.write .csr 0x5C 32 v) = { s with port := some .ok }) ∧
    (s.cb = none → n = 0 ∧ m = 0) ∧
    ∀ C, s.cb = some C → n.toNat = C.length ∧ (C = [] → m = 0) ∧
      (C ≠ [] → (∃ e ∈ C, e.code.length = m.toNat) ∧ ∀ e ∈ C, e.code.length ≤ m.toNat)

/-- R330: `irq` is IRQ_EN AND DONE; only a completion sets DONE; the four ways to lower it. -/
def Obligations.InterruptFollowsDone : Prop :=
  (∀ s : State, s.irq = true ↔ s.irqEn = true ∧ s.done = true) ∧
  (∀ (s t : State) (e : Event), s.handle e = .next t → s.done = false → t.done = true → e = .core ∧ s.busy = true) ∧
  (∀ s t : State, s.busy = true → s.coreTurn = .next t → t.done = true ∧ t.irq = s.irqEn) ∧
  (∀ (s : State) (v : Word), v.getLsbD 1 = true → (s.access (.write .csr 0x14 32 v)).irq = false) ∧
  (∀ (s : State) (w : Word), s.busy = false → (s.access (.write .csr 0x18 32 w)).irq = false) ∧
  (∀ (s t : State) (e : Event), e.IsReset → s.handle e = .next t → t.irq = false) ∧
  ∀ (s : State) (v : Word), v.getLsbD 1 = false →
    (s.access (.write .csr 0x10 32 v)).done = s.done ∧
    (v.getLsbD 0 = false → (s.access (.write .csr 0x10 32 v)).irq = false) ∧
    (v.getLsbD 0 = true → (s.access (.write .csr 0x10 32 v)).irq = s.done)

/-- R328: what sets WERR, that it does nothing else, and how long it stays. -/
def Obligations.WriteErrorsAreRecorded : Prop :=
  ∀ (s t : State) (e : Event), s.handle e = .next t →
    (s.busy = true → e.IsLocked s.params.lmemSize → t = { s with werr := true, port := t.port }) ∧
    (s.busy = true → ∀ off width, LmemAccessLegal s.params.lmemSize off width → e = .host (.read .lmem off width) →
      t.port = some (.data 0)) ∧
    (s.werr = false → t.werr = true → s.busy = true ∧ e.IsLocked s.params.lmemSize) ∧
    (s.werr = true → t.werr = false →
      e.IsReset ∨ ∃ v : Word, e = .host (.write .csr 0x14 32 v) ∧ v.getLsbD 3 = true)

/-- R372: the lockout while BUSY, row by row; and while IDLE every access as R31, R34, R35, R85 and R140 state it, with
no lockout. The reads are given offset by offset (R31-R48); STATUS and the two codebook counts have statements of their
own. -/
def Obligations.LockoutWhileBusy : Prop :=
  (∀ s : State,
    (∀ v : Word, v.getLsbD 1 = false →
      s.access (.write .csr 0x10 32 v) = { s with irqEn := v.getLsbD 0, port := some .ok }) ∧
    (∀ v : Word, v.getLsbD 1 = true →
      (s.access (.write .csr 0x10 32 v)).sequencer = .idle ∧ (s.access (.write .csr 0x10 32 v)).irqEn = false) ∧
    (∀ v : Word, (s.access (.write .csr 0x14 32 v)).done = (s.done && !v.getLsbD 1) ∧
      (s.access (.write .csr 0x14 32 v)).err = (s.err && !v.getLsbD 2) ∧
      (s.access (.write .csr 0x14 32 v)).werr = (s.werr && !v.getLsbD 3)) ∧
    (∀ (off : Nat) (v : Word), off ∈ readOnlyOffsets ∨ (0x60 ≤ off ∧ off < 0x100 ∧ off % 4 = 0) →
      s.access (.write .csr off 32 v) = { s with port := some .ok }) ∧
    (∀ off, CsrAccessLegal off 32 →
      s.access (.read .csr off 32) = { s with port := some (.data (s.readCsr off)) }) ∧
    (∀ x ∈ ([(0x00, 0x4F574F32), (0x04, BitVec.ofNat 32 s.params.lmemSize), (0x08, BitVec.ofNat 32 s.params.maxSymbols),
        (0x0C, 32), (0x10, if s.irqEn then 1 else 0), (0x18, s.cmd), (0x1C, s.errinfo), (0x20, s.regs.srcAddr),
        (0x24, s.regs.srcLen), (0x28, s.regs.dstAddr), (0x2C, s.regs.dstCap), (0x30, s.regs.arg0), (0x34, s.regs.arg1),
        (0x38, s.res0), (0x3C, s.res1), (0x40, s.res2), (0x44, s.regs.window.zeroExtend 32),
        (0x48, s.regs.maxLen.zeroExtend 32), (0x4C, s.regs.minMatch.zeroExtend 32), (0x50, s.regs.minSize),
        (0x54, s.regs.ratio.zeroExtend 32)] : List (Nat × Word)),
      s.access (.read .csr x.1 32) = { s with port := some (.data x.2) }) ∧
    ∀ off, 0x60 ≤ off → off < 0x100 → off % 4 = 0 →
      s.access (.read .csr off 32) = { s with port := some (.data 0) }) ∧
  (∀ s : State, s.busy = true →
    (∀ (off : Nat) (v : Word), off = 0x18 ∨ off ∈ lockedOffsets →
      s.access (.write .csr off 32 v) = { s with werr := true, port := some .ok }) ∧
    (∀ off width, LmemAccessLegal s.params.lmemSize off width →
      s.access (.read .lmem off width) = { s with werr := true, port := some (.data 0) }) ∧
    ∀ (off width : Nat) (v : Word), LmemAccessLegal s.params.lmemSize off width →
      s.access (.write .lmem off width v) = { s with werr := true, port := some .ok }) ∧
  (∀ s : State, s.busy = false →
    (∀ w : Word, s.access (.write .csr 0x18 32 w) = { s.accept w with port := some .ok }) ∧
    (∀ v : Word, ∀ x ∈ ([(0x20, { s.regs with srcAddr := v }), (0x24, { s.regs with srcLen := v }),
        (0x28, { s.regs with dstAddr := v }), (0x2C, { s.regs with dstCap := v }), (0x30, { s.regs with arg0 := v }),
        (0x34, { s.regs with arg1 := v }), (0x44, { s.regs with window := v.extractLsb' 0 16 }),
        (0x48, { s.regs with maxLen := v.extractLsb' 0 16 }), (0x4C, { s.regs with minMatch := v.extractLsb' 0 16 }),
        (0x50, { s.regs with minSize := v }), (0x54, { s.regs with ratio := v.extractLsb' 0 8 })] :
        List (Nat × LockedRegs)),
      s.access (.write .csr x.1 32 v) = { s with regs := x.2, port := some .ok }) ∧
    s.ServesLmem) ∧
  ∀ (s : State) (a : Access), s.busy = false → (s.access a).werr = true → s.werr = true

/-! ## The fifteen commands -/

/-- R145: NOP completes, with all results 0 and nothing else changed. -/
def Obligations.NopCompletes : Prop :=
  ∀ s : State, exec .nop s = .next { s with res0 := 0, res1 := 0, res2 := 0, sequencer := .idle, done := true }

/-- R163: BPACK and BPACK.P. -/
def Obligations.BpackPacksItsSource : Prop :=
  ∀ (s : State) (p : Bool), s.Accepts (.bpack p) →
    (ceil8 s.operands.srcLen.toNat + p.toNat ≤ s.operands.dstCap.toNat →
      exec (.bpack p) s = .next (s.completed
        ((if p then [BitVec.ofNat 8 (s.operands.srcLen.toNat % 8)] else []) ++
          packMSB (s.source.map fun b => b.getLsbD 0))
        (ceil8 s.operands.srcLen.toNat + p.toNat) s.operands.srcLen.toNat (s.operands.srcLen.toNat % 8))) ∧
    (s.operands.dstCap.toNat < ceil8 s.operands.srcLen.toNat + p.toNat →
      ∃ t, exec (.bpack p) s = .next t ∧ s.Failed (.bpack p) { kind := .capacityExceeded, info := 1 } t)

/-- R165: BUNPACK and BUNPACK.P. The trailing count is the first source byte with F0 = 1, ARG0 otherwise. -/
def Obligations.BunpackUnpacksItsSource : Prop :=
  ∀ (s : State) (p : Bool), s.Accepts (.bunpack p) →
    let r := if p then (s.source.headD 0).toNat else s.operands.arg0.toNat
    let P := if p then s.source.tail else s.source
    let bits := unpackMSB P r
    let bad := (p = true ∧ s.source = []) ∨ 7 < r ∨ (P = [] ∧ r ≠ 0)
    (bad → ∃ t, exec (.bunpack p) s = .next t ∧ s.Failed (.bunpack p) { kind := .corruptBitstream, info := 0 } t) ∧
    (¬ bad → bits.length ≤ s.operands.dstCap.toNat →
      exec (.bunpack p) s = .next (s.completed (bits.map fun b => if b then 0x01 else 0x00) bits.length bits.length r)) ∧
    (¬ bad → s.operands.dstCap.toNat < bits.length →
      ∃ t, exec (.bunpack p) s = .next t ∧ s.Failed (.bunpack p) { kind := .capacityExceeded, info := 1 } t)

/-- R183, R180, R181: VWRITE, tier by tier. -/
def Obligations.VwriteWritesTheVarint : Prop :=
  ∀ s : State, s.Accepts .vwrite →
    let v := s.operands.arg0.toNat
    let out : List Byte :=
      if v < 128 then [BitVec.ofNat 8 v]
      else if v < 16384 then [BitVec.ofNat 8 (128 + v / 256), BitVec.ofNat 8 (v % 256)]
      else [0xFF, BitVec.ofNat 8 (v / 2 ^ 24), BitVec.ofNat 8 (v / 2 ^ 16 % 256), BitVec.ofNat 8 (v / 2 ^ 8 % 256),
        BitVec.ofNat 8 (v % 256)]
    (out.length ≤ s.operands.dstCap.toNat → exec .vwrite s = .next (s.completed out out.length 0 0)) ∧
    (s.operands.dstCap.toNat < out.length →
      ∃ t, exec .vwrite s = .next t ∧ s.Failed .vwrite { kind := .capacityExceeded, info := 1 } t)

/-- R185, R182, R186: VREAD, tier by tier, from the lead byte at cursor ARG0. -/
def Obligations.VreadReadsTheVarint : Prop :=
  ∀ s : State, s.Accepts .vread →
    let c := s.operands.arg0.toNat
    let byte := fun k => (s.source.getD k 0).toNat
    let lead := byte c
    let n := s.source.length
    (c < n → lead < 0x80 → exec .vread s = .next (s.completed [] lead (c + 1) 1)) ∧
    (c + 1 < n → 0x80 ≤ lead → lead < 0xFF →
      exec .vread s = .next (s.completed [] ((lead - 0x80) * 256 + byte (c + 1)) (c + 2) 2)) ∧
    (c + 4 < n → lead = 0xFF →
      exec .vread s = .next (s.completed []
        (byte (c + 1) * 2 ^ 24 + byte (c + 2) * 2 ^ 16 + byte (c + 3) * 2 ^ 8 + byte (c + 4)) (c + 5) 5)) ∧
    (n ≤ c ∨ (n ≤ c + 1 ∧ 0x80 ≤ lead) ∨ (n ≤ c + 4 ∧ lead = 0xFF) →
      ∃ t, exec .vread s = .next t ∧
        s.Failed .vread { kind := .malformedVarInt, info := s.operands.arg0 } t)

/-- R212, R201, R209, R221: HBUILD and HBUILD.W. -/
def Obligations.HbuildInstallsTheCodebook : Prop :=
  ∀ (s : State) (w : Bool), s.Accepts (.hbuild w) →
    let x := s.symbols w
    let k := x.dedup.length
    let C := codebookOf (freqTable x)
    (s.params.maxSymbols < k →
      ∃ t, exec (.hbuild w) s = .next t ∧ s.Failed (.hbuild w) { kind := .capacityExceeded, info := 3 } t) ∧
    (k ≤ s.params.maxSymbols → (∃ e ∈ C, 32 < e.code.length) →
      ∃ t, exec (.hbuild w) s = .next t ∧ s.Failed (.hbuild w) { kind := .capacityExceeded, info := 4 } t) ∧
    (k ≤ s.params.maxSymbols → (∀ e ∈ C, e.code.length ≤ 32) →
      exec (.hbuild w) s = .next { s.completed [] k (Codebook.maxLen C) x.length with cb := some C })

/-- R214, R213: HENC and HENC.W. The first symbol without a code decides; then the capacity. -/
def Obligations.HencEncodesItsSource : Prop :=
  ∀ (s : State) (w : Bool) (C : Codebook), s.Accepts (.henc w) → s.cb = some C →
    let x := s.symbols w
    (∀ i sym, x[i]? = some sym → C.codeOf sym = none → (∀ q ∈ x.take i, C.codeOf q ≠ none) →
      ∃ t, exec (.henc w) s = .next t ∧
        s.Failed (.henc w) { kind := .unknownSymbol, info := BitVec.ofNat 32 i } t) ∧
    ∀ codes : List Bits, x.map C.codeOf = codes.map some →
      let bits := codes.flatten
      (1 + ceil8 bits.length ≤ s.operands.dstCap.toNat →
        exec (.henc w) s = .next (s.completed (BitVec.ofNat 8 (bits.length % 8) :: packMSB bits)
          (1 + ceil8 bits.length) bits.length x.length)) ∧
      (s.operands.dstCap.toNat < 1 + ceil8 bits.length →
        ∃ t, exec (.henc w) s = .next t ∧ s.Failed (.henc w) { kind := .capacityExceeded, info := 1 } t)

/-- R216, R215, R161: HDEC. The valid bits split in one way into codes, each the shortest that matches, and a tail that
matches none; a symbol that does not fit comes before a tail that is not empty. -/
def Obligations.HdecDecodesItsSource : Prop :=
  ∀ (s : State) (C : Codebook), s.Accepts .hdec → s.CodebookLegal → s.cb = some C →
    let r := (s.source.headD 0).toNat
    let bad := s.source = [] ∨ 7 < r ∨ (s.source.tail = [] ∧ r ≠ 0)
    let bits := unpackMSB s.source.tail r
    (bad → ∃ t, exec .hdec s = .next t ∧ s.Failed .hdec { kind := .corruptBitstream, info := 0 } t) ∧
    (¬ bad →
      (∃ (codes : List Bits) (syms : List Word) (tail : Bits),
        bits = codes.flatten ++ tail ∧ List.Forall₂ C.Emits codes syms ∧ C.Stuck tail) ∧
      ∀ (codes : List Bits) (syms : List Word) (tail : Bits),
        bits = codes.flatten ++ tail → List.Forall₂ C.Emits codes syms → C.Stuck tail →
        (s.operands.dstCap.toNat < 4 * syms.length →
          ∃ t, exec .hdec s = .next t ∧ s.Failed .hdec { kind := .capacityExceeded, info := 1 } t) ∧
        (4 * syms.length ≤ s.operands.dstCap.toNat → tail ≠ [] →
          ∃ t, exec .hdec s = .next t ∧ s.Failed .hdec { kind := .corruptBitstream, info := 0 } t) ∧
        (4 * syms.length ≤ s.operands.dstCap.toNat → tail = [] →
          exec .hdec s = .next (s.completed (syms.flatMap be32) (4 * syms.length) syms.length bits.length)))

/-- R218, R211: HSER. -/
def Obligations.HserWritesTheCodebook : Prop :=
  ∀ (s : State) (C : Codebook), s.Accepts .hser → s.cb = some C →
    let size := varintLen C.length +
      (C.map fun e => varintLen e.sym.toNat + varintLen e.code.length + ceil8 e.code.length).sum
    (size ≤ s.operands.dstCap.toNat →
      exec .hser s = .next (s.completed
        (varintBytes C.length ++
          C.flatMap fun e => varintBytes e.sym.toNat ++ varintBytes e.code.length ++ packMSB e.code)
        size C.length 0)) ∧
    (s.operands.dstCap.toNat < size →
      ∃ t, exec .hser s = .next t ∧ s.Failed .hser { kind := .capacityExceeded, info := 1 } t)

/-- R220, R217, R221: HDESER. Any list of entries on the wire, in any order, with distinct symbols, distinct codes of 1 to
32 digits and no more than MAX_SYMBOLS of them, is installed, whatever follows it and however its varints are written;
every other source fails, each failure of R217 with its ERRINFO. -/
def Obligations.HdeserInstallsTheCodebook : Prop :=
  ∀ s : State, s.Accepts .hdeser →
    (∀ (E : List Entry) (rest : List Byte), s.params.wellFormed = true → E.length ≤ s.params.maxSymbols →
      (∀ e ∈ E, 1 ≤ e.code.length ∧ e.code.length ≤ 32) →
      E.Pairwise (fun d e => d.sym ≠ e.sym) → E.Pairwise (fun d e => d.code ≠ e.code) →
      s.source = varintBytes E.length ++
        E.flatMap (fun e => varintBytes e.sym.toNat ++ varintBytes e.code.length ++ packMSB e.code) ++ rest →
      ∃ C : Codebook, C.Perm E ∧ C.Pairwise (fun d e => d.sym.toNat < e.sym.toNat) ∧
        exec .hdeser s = .next
          { s.completed [] E.length (s.source.length - rest.length) (Codebook.maxLen C) with cb := some C }) ∧
    (∀ C p, parseCB s.params.maxSymbols s.source 0 = .ok (C, p) →
      exec .hdeser s = .next { s.completed [] C.length p (Codebook.maxLen C) with cb := some C }) ∧
    (∀ e, parseCB s.params.maxSymbols s.source 0 = .error e → ∃ t, exec .hdeser s = .next t ∧ s.Failed .hdeser e t) ∧
    (∀ (E : List Entry) (q : Nat), CodebookAt s.params.maxSymbols s.source 0 E q →
      ∃ C : Codebook, C.Perm E ∧ C.Pairwise (fun d e => d.sym.toNat < e.sym.toNat) ∧
        exec .hdeser s = .next { s.completed [] E.length q (Codebook.maxLen C) with cb := some C }) ∧
    (∀ e, CodebookFails s.params.maxSymbols s.source 0 e → ∃ t, exec .hdeser s = .next t ∧ s.Failed .hdeser e t) ∧
    ((∃ E q, CodebookAt s.params.maxSymbols s.source 0 E q) ∨ ∃ e, CodebookFails s.params.maxSymbols s.source 0 e)

/-- R222: HCODE. -/
def Obligations.HcodeLooksUpACode : Prop :=
  ∀ (s : State) (C : Codebook), s.Accepts .hcode → s.cb = some C →
    (∀ code : Bits, C.codeOf s.operands.arg0 = some code →
      exec .hcode s = .next (s.completed [] code.length
        ((List.range code.length).map fun j => (code.getD j false).toNat * 2 ^ (code.length - 1 - j)).sum 0)) ∧
    (C.codeOf s.operands.arg0 = none →
      ∃ t, exec .hcode s = .next t ∧ s.Failed .hcode { kind := .unknownSymbol, info := 0 } t)

/-- R256, R250: LZCOMP. -/
def Obligations.LzcompWritesTheTokens : Prop :=
  ∀ s : State, s.Accepts .lzcomp →
    let T := s.sourceTokens
    (12 * T.length ≤ s.operands.dstCap.toNat →
      exec .lzcomp s = .next (s.completed
        (T.flatMap fun k => be32 (BitVec.ofNat 32 k.off) ++ be32 (BitVec.ofNat 32 k.len) ++ be32 (BitVec.ofNat 32 k.next))
        (12 * T.length) T.length 0)) ∧
    (s.operands.dstCap.toNat < 12 * T.length →
      ∃ t, exec .lzcomp s = .next t ∧ s.Failed .lzcomp { kind := .capacityExceeded, info := 1 } t)

/-- R259, R257: LZDEC. Behind any tokens that replay to `out`, the next token (number t, counted from 0) fails checks (a),
(b) or (c) with InvalidBackReference(t), then check (d), or appends its copy, byte by byte from `off` behind the end, and
its next symbol. A zero-length copy copies nothing, and a token with NONE and no length appends nothing. -/
def Obligations.LzdecReplaysTheTokens : Prop :=
  ∀ s : State, s.Accepts .lzdec →
    (∀ out, lzReplay s.operands.dstCap.toNat 0 [] s.tokenSource = .ok out →
      exec .lzdec s = .next (s.completed out out.length s.tokenSource.length 0)) ∧
    (∀ e, lzReplay s.operands.dstCap.toNat 0 [] s.tokenSource = .error e →
      ∃ t, exec .lzdec s = .next t ∧ s.Failed .lzdec e t) ∧
    lzReplay s.operands.dstCap.toNat 0 [] [] = .ok [] ∧
    ∀ (before after : List Token) (k : Token) (out : List Byte), s.tokenSource = before ++ k :: after →
      lzReplay s.operands.dstCap.toNat 0 [] before = .ok out →
      let bad := (k.off = 0 ∧ 0 < k.len) ∨ ((k.off ≠ 0 ∨ k.len ≠ 0) ∧ out.length < k.off) ∨ 256 < k.next
      let added := k.len + (if k.next = 256 then 0 else 1)
      (bad → ∃ t, exec .lzdec s = .next t ∧
        s.Failed .lzdec { kind := .invalidBackReference, info := BitVec.ofNat 32 before.length } t) ∧
      (¬ bad → s.operands.dstCap.toNat < out.length + added →
        ∃ t, exec .lzdec s = .next t ∧ s.Failed .lzdec { kind := .capacityExceeded, info := 1 } t) ∧
      (¬ bad → out.length + added ≤ s.operands.dstCap.toNat →
        ∃ copied : List Byte, copied.length = k.len ∧
          (∀ j, j < k.len → copied[j]? = (out ++ copied)[out.length - k.off + j]?) ∧
          lzReplay s.operands.dstCap.toNat 0 [] (before ++ [k]) =
            .ok (out ++ copied ++ (if k.next = 256 then [] else [BitVec.ofNat 8 k.next]))) ∧
      (k.len = 0 → k.off ≤ out.length → k.next = 256 →
        lzReplay s.operands.dstCap.toNat 0 [] (before ++ [k]) = .ok out)

/-- R290, R282-R286: CCOMP. Candidate B, its size, the choice, the record, the results and the frame. -/
def Obligations.CcompWritesTheRecord : Prop :=
  ∀ s : State, s.Accepts .ccomp →
    let x := s.source
    let n := s.operands.srcLen.toNat
    let y := flatten s.sourceTokens
    let C := codebookOf (freqTable y)
    let bits := y.flatMap fun v => (C.codeOf v).getD []
    let built := s.operands.minSize.toNat ≤ n
    let viable := built ∧ y.dedup.length ≤ s.params.maxSymbols ∧ ∀ e ∈ C, e.code.length ≤ 32
    let sizeB := 5 + (serCB C).length + varintLen (1 + ceil8 bits.length) + (1 + ceil8 bits.length)
    let chooseB := viable ∧ sizeB < 9 + n ∧ 100 * sizeB ≤ s.operands.ratio.toNat * n
    let recB : List Byte := [0x4F, 0x57, 0x4F, 0x32, 0x01] ++ serCB C ++ varintBytes (1 + ceil8 bits.length) ++
      (BitVec.ofNat 8 (bits.length % 8) :: packMSB bits)
    let recRaw : List Byte := [0x4F, 0x57, 0x4F, 0x32, 0x00] ++ be32 s.operands.srcLen ++ x
    (built → s.operands.arg1.toNat < 12 * s.sourceTokens.length →
      ∃ t, exec .ccomp s = .next t ∧ s.Failed .ccomp { kind := .capacityExceeded, info := 2 } t) ∧
    ((built → 12 * s.sourceTokens.length ≤ s.operands.arg1.toNat) →
      ∀ rec : List Byte, (chooseB → rec = recB) → (¬ chooseB → rec = recRaw) →
      (s.operands.dstCap.toNat < rec.length →
        ∃ t, exec .ccomp s = .next t ∧ s.Failed .ccomp { kind := .capacityExceeded, info := 1 } t) ∧
      (rec.length ≤ s.operands.dstCap.toNat →
        ∃ t, exec .ccomp s = .next t ∧ t.Finished ∧ s.SameRegisters t ∧ t.cb = none ∧
          t.err = s.err ∧ t.errcode = s.errcode ∧ t.errinfo = s.errinfo ∧
          t.res0 = BitVec.ofNat 32 rec.length ∧
          (chooseB → t.res1 = 1) ∧ (¬ chooseB → t.res1 = 0) ∧
          (viable → t.res2 = BitVec.ofNat 32 sizeB) ∧ (¬ viable → t.res2 = 0) ∧
          t.lmem.readBytes s.operands.dstAddr.toNat rec.length = rec ∧
          ∀ a, (a < s.operands.dstAddr.toNat ∨ s.operands.dstAddr.toNat + rec.length ≤ a) → (built → ¬ s.InScratch a) →
            t.lmem.readByte a = s.lmem.readByte a))

/-- R293, R292: CDEC, from the parsed record on. -/
def Obligations.CdecDecodesTheRecord : Prop :=
  ∀ s : State, s.Accepts .cdec →
    (∀ e, parseRecord s.params.maxSymbols s.source = .error e →
      ∃ t, exec .cdec s = .next t ∧ s.Failed .cdec e t) ∧
    (∀ payload stop, parseRecord s.params.maxSymbols s.source = .ok (.raw payload stop) →
      (payload.length ≤ s.operands.dstCap.toNat →
        exec .cdec s = .next { s.completed payload payload.length stop 0 with cb := none }) ∧
      (s.operands.dstCap.toNat < payload.length →
        ∃ t, exec .cdec s = .next t ∧ s.Failed .cdec { kind := .capacityExceeded, info := 1 } t)) ∧
    ∀ C bits p stop, parseRecord s.params.maxSymbols s.source = .ok (.ent C bits p stop) →
      let corrupt : Raise := { kind := .corruptBitstream, info := BitVec.ofNat 32 p }
      let decoded := decodeBits C s.operands.arg1.toNat { kind := .capacityExceeded, info := 2 } corrupt bits [] 0
      (∀ e, decoded = .error e → ∃ t, exec .cdec s = .next t ∧ s.Failed .cdec e t) ∧
      ∀ syms, decoded = .ok syms →
        (syms.length % 3 ≠ 0 → ∃ t, exec .cdec s = .next t ∧ s.Failed .cdec corrupt t) ∧
        (syms.length % 3 = 0 →
          (∀ e, lzReplay s.operands.dstCap.toNat 0 [] (tokensOf syms) = .error e →
            ∃ t, exec .cdec s = .next t ∧ s.Failed .cdec e t) ∧
          ∀ out, lzReplay s.operands.dstCap.toNat 0 [] (tokensOf syms) = .ok out →
            ∃ t, exec .cdec s = .next t ∧ t.Finished ∧ s.SameRegisters t ∧ t.cb = none ∧
              t.err = s.err ∧ t.errcode = s.errcode ∧ t.errinfo = s.errinfo ∧
              t.res0 = BitVec.ofNat 32 out.length ∧ t.res1 = BitVec.ofNat 32 stop ∧ t.res2 = 1 ∧
              t.lmem.readBytes s.operands.dstAddr.toNat out.length = out ∧
              ∀ a, (a < s.operands.dstAddr.toNat ∨ s.operands.dstAddr.toNat + out.length ≤ a) → ¬ s.InScratch a →
                t.lmem.readByte a = s.lmem.readByte a)

/-- R291, R293: the record's header, the RAW record and the entropy record, field by field; each failure with its offset.
Of an entropy record that is whole, the parser's answer is given, and CdecDecodesTheRecord goes on from it. -/
def Obligations.CdecReadsTheHeader : Prop :=
  ∀ s : State, s.Accepts .cdec →
    let B := s.source
    let byte := byteAt B
    let n := byte 5 * 2 ^ 24 + byte 6 * 2 ^ 16 + byte 7 * 2 ^ 8 + byte 8
    (B.take 4 ≠ [0x4F, 0x57, 0x4F, 0x32] →
      ∃ t, exec .cdec s = .next t ∧ s.Failed .cdec { kind := .malformedHeader, info := 0 } t) ∧
    (B.take 4 = [0x4F, 0x57, 0x4F, 0x32] →
      (B.length < 5 → ∃ t, exec .cdec s = .next t ∧ s.Failed .cdec { kind := .malformedHeader, info := 4 } t) ∧
      (5 ≤ B.length → 1 < byte 4 →
        ∃ t, exec .cdec s = .next t ∧ s.Failed .cdec { kind := .unknownFormatMode, info := 4 } t) ∧
      (5 ≤ B.length → B.length < 9 → byte 4 = 0 →
        ∃ t, exec .cdec s = .next t ∧ s.Failed .cdec { kind := .truncatedPayload, info := 5 } t) ∧
      (9 ≤ B.length → byte 4 = 0 → B.length < 9 + n →
        ∃ t, exec .cdec s = .next t ∧ s.Failed .cdec { kind := .truncatedPayload, info := 9 } t) ∧
      (9 ≤ B.length → byte 4 = 0 → 9 + n ≤ B.length → n ≤ s.operands.dstCap.toNat →
        exec .cdec s = .next { s.completed ((B.drop 9).take n) n (9 + n) 0 with cb := none }) ∧
      (5 ≤ B.length → byte 4 = 1 →
        (∀ e, CodebookFails s.params.maxSymbols B 5 e → ∃ t, exec .cdec s = .next t ∧ s.Failed .cdec e t) ∧
        ((∃ E q, CodebookAt s.params.maxSymbols B 5 E q) ∨ ∃ e, CodebookFails s.params.maxSymbols B 5 e) ∧
        ∀ (E : List Entry) (q : Nat), CodebookAt s.params.maxSymbols B 5 E q →
          (VarintCut B q → ∃ t, exec .cdec s = .next t ∧
            s.Failed .cdec { kind := .malformedVarInt, info := BitVec.ofNat 32 q } t) ∧
          ∀ len p, VarintAt B q len p →
            let badPrefix := 7 < byte p ∨ (len = 1 ∧ byte p ≠ 0)
            (len = 0 → ∃ t, exec .cdec s = .next t ∧
              s.Failed .cdec { kind := .corruptBitstream, info := BitVec.ofNat 32 q } t) ∧
            (1 ≤ len → B.length < p + len → ∃ t, exec .cdec s = .next t ∧
              s.Failed .cdec { kind := .truncatedPayload, info := BitVec.ofNat 32 p } t) ∧
            (1 ≤ len → p + len ≤ B.length → badPrefix → ∃ t, exec .cdec s = .next t ∧
              s.Failed .cdec { kind := .corruptBitstream, info := BitVec.ofNat 32 p } t) ∧
            (1 ≤ len → p + len ≤ B.length → ¬ badPrefix →
              ∃ C : Codebook, C.Perm E ∧ C.Pairwise (fun d e => d.sym.toNat < e.sym.toNat) ∧
                parseRecord s.params.maxSymbols B =
                  .ok (.ent C (unpackMSB ((B.drop (p + 1)).take (len - 1)) (byte p)) p (p + len)))))

/-! ## The laws of the codecs -/

/-- R160: every digit of a packed bit string, and its padding. -/
def Obligations.PackingIsMsbFirst : Prop :=
  ∀ b : Bits, (packMSB b).length = (b.length + 7) / 8 ∧
    (∀ j, j < b.length → ∃ byte, (packMSB b)[j / 8]? = some byte ∧ some (byte.getLsbD (7 - j % 8)) = b[j]?) ∧
    (∀ j, b.length ≤ j → j < 8 * ((b.length + 7) / 8) →
      ∃ byte, (packMSB b)[j / 8]? = some byte ∧ byte.getLsbD (7 - j % 8) = false) ∧
    (b = [] → packMSB b = [])

/-- R161: unpackMSB digit by digit, the stream form, and the checks of its inverse in their order. -/
def Obligations.StreamFormIsReadBack : Prop :=
  (∀ (P : List Byte) (r : Nat), r ≤ 7 → (P = [] → r = 0) →
    (unpackMSB P r).length = (if r = 0 then 8 * P.length else 8 * (P.length - 1) + r) ∧
    ∀ j, j < (unpackMSB P r).length →
      ∃ byte, P[j / 8]? = some byte ∧ (unpackMSB P r)[j]? = some (byte.getLsbD (7 - j % 8))) ∧
  (∀ b : Bits, stream b = BitVec.ofNat 8 (b.length % 8) :: packMSB b) ∧
  (∀ (B : List Byte) (info : Nat),
    (B = [] → streamBits B info = .error (ErrorKind.corruptBitstream.at info)) ∧
    ∀ r P, B = r :: P →
      (7 < r.toNat → streamBits B info = .error (ErrorKind.corruptBitstream.at info)) ∧
      (P = [] → r ≠ 0 → streamBits B info = .error (ErrorKind.corruptBitstream.at info)) ∧
      (r.toNat ≤ 7 → ¬ (P = [] ∧ r ≠ 0) → streamBits B info = .ok (unpackMSB P r.toNat))) ∧
  ∀ (b : Bits) (info : Nat), streamBits (stream b) info = .ok b

/-- R164: BUNPACK of what BPACK wrote gives the bits back, in both forms. -/
def Obligations.BitpackRoundTrip : Prop :=
  ∀ (s t : State) (p : Bool), s.Accepts (.bpack p) →
    ceil8 s.operands.srcLen.toNat + p.toNat ≤ s.operands.dstCap.toNat → exec (.bpack p) s = .next t →
    ∀ u : State, u.Accepts (.bunpack p) → u.source = s.outputOf t → (p = false → u.operands.arg0 = t.res2) →
      s.operands.srcLen.toNat ≤ u.operands.dstCap.toNat →
      ∃ v, exec (.bunpack p) u = .next v ∧ u.outputOf v = (s.source.map fun b => b &&& 1) ∧
        v.res0 = s.operands.srcLen ∧ v.err = u.err

/-- R181, R184: the length of a varint; reading it back; and the same through VWRITE and VREAD at any cursor. -/
def Obligations.VarintRoundTrip : Prop :=
  (∀ v, v < 2 ^ 32 →
    (varintBytes v).length = (if v < 128 then 1 else if v < 16384 then 2 else 5) ∧
    readVarInt (varintBytes v) 0 = .ok (v, (varintBytes v).length)) ∧
  ∀ s t : State, s.Accepts .vwrite → exec .vwrite s = .next t → t.res0 ≠ 0 →
    ∀ (u : State) (before after : List Byte), u.Accepts .vread → u.source = before ++ s.outputOf t ++ after →
      before.length = u.operands.arg0.toNat →
      exec .vread u = .next (u.completed [] s.operands.arg0.toNat (before.length + t.res0.toNat) t.res0.toNat)

/-- R201: the frequency table is the count of every symbol that occurs, does not depend on the order of the sequence, and
more than MAX_SYMBOLS distinct symbols fail HBUILD. -/
def Obligations.FrequencyTableCounts : Prop :=
  (∀ x : List Word,
    (∀ (sym : Word) (k : Nat), (sym, k) ∈ freqTable x ↔ k = x.count sym ∧ 0 < k) ∧
    ((freqTable x).map Prod.fst).Nodup ∧ (freqTable x).length = x.dedup.length ∧
    ∀ y, x.Perm y → freqTable x = freqTable y) ∧
  ∀ (s : State) (w : Bool), s.Accepts (.hbuild w) → s.params.maxSymbols < (s.symbols w).dedup.length →
    ∃ t, exec (.hbuild w) s = .next t ∧ s.Failed (.hbuild w) { kind := .capacityExceeded, info := 3 } t

/-- R203: pushing a node keeps the queue in the order of (freq, seq), so that its head is the one popmin takes. -/
def Obligations.QueueStaysInPriorityOrder : Prop :=
  ∀ (n : Node) (Q : List Node),
    (Q.Pairwise fun a b => a.freq < b.freq ∨ (a.freq = b.freq ∧ a.seq < b.seq)) → (∀ m ∈ Q, m.seq ≠ n.seq) →
    (push n Q).Perm (n :: Q) ∧
      (push n Q).Pairwise fun a b => a.freq < b.freq ∨ (a.freq = b.freq ∧ a.seq < b.seq)

/-- R200, R202-R208: the tree of a sequence is EMPTY only for the empty one; otherwise it is what the merges of R204 make of
the numbered leaves, each merge taking the two nodes least by (freq, seq), the first on the left, and numbering its node
from the number of leaves upwards. Every internal frequency is the sum of its children's, the root's the length; the
numbers of leaves and internal nodes follow. The codes are the paths, "0" for a root that is a leaf (which no sequence
has), and "1" for a single symbol. -/
def Obligations.TreeHasTheStatedShape : Prop :=
  (∀ x : List Word, (buildTree (freqTable x) = none ↔ x = []) ∧ (x = [] → codebookOf (freqTable x) = []) ∧
    (∀ S, DistinctAscending x S → ∀ root,
      buildTree (freqTable x) = some root ↔ MergesTo (numberedLeaves x S).length (numberedLeaves x S) root) ∧
    ∀ root, buildTree (freqTable x) = some root →
      root.SumsFrequencies ∧ root.freq = x.length ∧
      root.leafCount = (if x.dedup.length = 1 then 2 else x.dedup.length) ∧
      root.internalCount + 1 = root.leafCount ∧
      ∀ (sym : Word) (code : Bits),
        ({ sym := sym, code := code } : Entry) ∈ codebookOf (freqTable x) ↔ PathTo sym root code) ∧
  (∀ (root : Node) (sym : Word) (code : Bits),
    ({ sym := sym, code := code } : Entry) ∈ buildCodebook root ↔
      ∃ path, PathTo sym root path ∧ code = if path = [] then [false] else path) ∧
  ∀ (sym : Word) (n : Nat), codebookOf (freqTable (List.replicate (n + 1) sym)) = [{ sym := sym, code := [true] }]

/-- R210: the codebook that HBUILD installs is prefix-free, no two of its entries share a symbol or a code, and it has a
code for the symbols of the source and for no other. -/
def Obligations.CodebookIsPrefixFree : Prop :=
  ∀ (s t : State) (w : Bool) (C : Codebook), s.Accepts (.hbuild w) → exec (.hbuild w) s = .next t → t.cb = some C →
    C.PrefixFree ∧ C.Pairwise (fun d e => d.sym ≠ e.sym ∧ d.code ≠ e.code) ∧
      ∀ sym : Word, (∃ e ∈ C, e.sym = sym) ↔ sym ∈ s.symbols w

/-- R223: HBUILD, then HENC on the same symbols, then HDEC of the result writes the symbols back as words; and HBUILD on
the same symbols installs the same codebook. -/
def Obligations.HuffmanRoundTrip : Prop :=
  ∀ (s t : State) (w : Bool) (C : Codebook), s.Accepts (.hbuild w) → exec (.hbuild w) s = .next t → t.cb = some C →
    (∀ s' t' : State, s'.Accepts (.hbuild w) → s'.params = s.params → s'.symbols w = s.symbols w →
      exec (.hbuild w) s' = .next t' → t'.cb = some C) ∧
    ∀ u v : State, u.Accepts (.henc w) → u.cb = some C → u.symbols w = s.symbols w → exec (.henc w) u = .next v →
      (1 + 4 * (s.symbols w).length ≤ u.operands.dstCap.toNat → v.res0 ≠ 0) ∧
      (v.res0 ≠ 0 → ∀ d : State, d.Accepts .hdec → d.cb = some C → d.source = u.outputOf v →
        4 * (s.symbols w).length ≤ d.operands.dstCap.toNat →
        ∃ f, exec .hdec d = .next f ∧ d.outputOf f = (s.symbols w).flatMap be32 ∧
          f.res1.toNat = (s.symbols w).length ∧ f.err = d.err ∧ f.Finished)

/-- R223, R211, R217: HDESER of what HSER wrote, whatever follows it, reinstalls an equal codebook and consumes exactly
those bytes. -/
def Obligations.CodebookWireRoundTrip : Prop :=
  ∀ (s t : State) (C : Codebook), s.Inv → s.Accepts .hser → s.cb = some C → exec .hser s = .next t → t.res0 ≠ 0 →
    ∀ (u : State) (rest : List Byte), u.Accepts .hdeser → u.params = s.params → u.source = s.outputOf t ++ rest →
      exec .hdeser u = .next
        { u.completed [] C.length t.res0.toNat (Codebook.maxLen C) with cb := some C }

/-- R251: matchLen is the longest run at an offset, at most L and not beyond the end, overlap allowed; bestMatch is the
longest in the window, ties to the smallest offset. -/
def Obligations.BestMatchIsTheLongest : Prop :=
  ∀ (x : List Byte) (W L pos : Nat), 1 ≤ W → 1 ≤ L → pos < x.length →
    (∀ off, 1 ≤ off → off ≤ pos →
      matchLen x L pos off ≤ L ∧ pos + matchLen x L pos off ≤ x.length ∧
      (∀ j, j < matchLen x L pos off → x[pos - off + j]? = x[pos + j]?) ∧
      (matchLen x L pos off < L → pos + matchLen x L pos off < x.length →
        x[pos - off + matchLen x L pos off]? ≠ x[pos + matchLen x L pos off]?)) ∧
    ((bestMatch x W L pos = (0, 0) ∧ ∀ off, 1 ≤ off → off ≤ min W pos → matchLen x L pos off = 0) ∨
      (1 ≤ (bestMatch x W L pos).1 ∧ (bestMatch x W L pos).1 ≤ min W pos ∧ 0 < (bestMatch x W L pos).2 ∧
        (bestMatch x W L pos).2 = matchLen x L pos (bestMatch x W L pos).1 ∧
        ∀ off, 1 ≤ off → off ≤ min W pos →
          matchLen x L pos off ≤ (bestMatch x W L pos).2 ∧
          (off < (bestMatch x W L pos).1 → matchLen x L pos off < (bestMatch x W L pos).2)))

/-- R252: the token at an index is the best match at the position behind the tokens before it where its length is at least
M, with the byte behind the match or NONE at the end of the input, and the literal otherwise; the tokens reach the end of
the input. R254: the five token invariants. -/
def Obligations.TokensMeetTheirInvariants : Prop :=
  ∀ (x : List Byte) (W L M : Nat), 1 ≤ W → 1 ≤ L → 1 ≤ M →
    (∀ (i : Nat) (k : Token), (lzTokens x W L M)[i]? = some k →
      let p := (((lzTokens x W L M).take i).map fun k => k.len + 1).sum
      let m := bestMatch x W L p
      p < x.length ∧
      (M ≤ m.2 → k = ⟨m.1, m.2, if p + m.2 < x.length then (x.getD (p + m.2) 0).toNat else 256⟩) ∧
      (m.2 < M → k = ⟨0, 0, (x.getD p 0).toNat⟩)) ∧
    x.length ≤ ((lzTokens x W L M).map fun k => k.len + 1).sum ∧
    (∀ (i : Nat) (k : Token), (lzTokens x W L M)[i]? = some k →
      (k.off = 0 ∧ k.len = 0 ∧ k.next ≤ 255) ∨
      (1 ≤ k.off ∧ k.off ≤ min W (((lzTokens x W L M).take i).map Token.added).sum ∧ M ≤ k.len ∧ k.len ≤ L ∧
        (k.next ≤ 255 ∨ (k.next = 256 ∧ i + 1 = (lzTokens x W L M).length)))) ∧
    (lzTokens x W L M).length ≤ x.length ∧ (lzTokens x W L M = [] ↔ x = []) ∧
    ((lzTokens x W L M).map fun k => k.len + (if k.next = 256 then 0 else 1)).sum = x.length

/-- R258: replaying the tokens gives the input back, as functions and through LZCOMP and LZDEC. -/
def Obligations.TokenRoundTrip : Prop :=
  (∀ (x : List Byte) (W L M : Nat), 1 ≤ W → 1 ≤ L → 1 ≤ M → lzReplay x.length 0 [] (lzTokens x W L M) = .ok x) ∧
  ∀ s t : State, s.Accepts .lzcomp → 12 * s.sourceTokens.length ≤ s.operands.dstCap.toNat →
    exec .lzcomp s = .next t →
    ∀ u : State, u.Accepts .lzdec → u.source = s.outputOf t → s.operands.srcLen.toNat ≤ u.operands.dstCap.toNat →
      ∃ v, exec .lzdec u = .next v ∧ u.outputOf v = s.source ∧ v.res0 = s.operands.srcLen ∧ v.err = u.err ∧ v.Finished

/-- R287: the size guard. -/
def Obligations.ContainerIsNeverLargerThanRaw : Prop :=
  ∀ s t : State, s.Accepts .ccomp → exec .ccomp s = .next t →
    t.res0.toNat ≤ 9 + s.operands.srcLen.toNat ∧
    (t.res0 ≠ 0 → (t.res1 = 0 ∧ t.res0.toNat = 9 + s.operands.srcLen.toNat) ∨
      (t.res1 = 1 ∧ t.res0.toNat < 9 + s.operands.srcLen.toNat))

/-- R295, R294: CDEC of what CCOMP wrote, whatever follows it, writes the input back and reports the record's length. -/
def Obligations.ContainerRoundTrip : Prop :=
  ∀ s t : State, s.params.wellFormed = true → s.Accepts .ccomp → exec .ccomp s = .next t → t.res0 ≠ 0 →
    ∀ (u : State) (rest : List Byte), u.Accepts .cdec → u.params = s.params → u.source = s.outputOf t ++ rest →
      s.operands.srcLen.toNat ≤ u.operands.dstCap.toNat →
      (t.res1 = 1 → 12 * s.sourceTokens.length ≤ u.operands.arg1.toNat) →
      ∃ v, exec .cdec u = .next v ∧ u.outputOf v = s.source ∧ v.res0 = s.operands.srcLen ∧ v.res1 = t.res0 ∧
        v.res2 = t.res1 ∧ v.err = u.err ∧ v.Finished

/-- R339: CCOMP never completes with UnknownSymbol. -/
def Obligations.CcompNeverMeetsAnUnknownSymbol : Prop :=
  ∀ s t : State, s.Runs .ccomp → exec .ccomp s = .next t → t.errcode ≠ 6

end
end

