-- ==== Sys2Proof/Laws/Memory.lean ====
section
/-! SUPPORT. The laws of LMEM: a read after a write, the frame of a write, the canonical form, and byte order. -/

namespace Sys2Proof.Machine

open Sys2Proof.Config

/-! ## Looking up -/

@[simp] theorem lookup_nil (x : Nat) : Memory.lookup [] x = none := rfl

theorem lookup_cons (k : Nat) (v : Byte) (m : Memory) (x : Nat) :
    Memory.lookup ((k, v) :: m) x = if k = x then some v else Memory.lookup m x := rfl

theorem lookup_append (m n : Memory) (x : Nat) :
    Memory.lookup (m ++ n) x = (Memory.lookup m x).or (Memory.lookup n x) := by
  induction m with
  | nil => simp
  | cons c m ih =>
    obtain ⟨k, v⟩ := c
    by_cases h : k = x <;> simp [lookup_cons, h, ih]

/-- Keeping the offsets of a predicate keeps exactly the look-ups at those offsets. -/
theorem lookup_filter (m : Memory) (p : Nat → Bool) (x : Nat) :
    Memory.lookup (m.filter fun c => p c.1) x = if p x then Memory.lookup m x else none := by
  induction m with
  | nil => simp
  | cons c m ih =>
    obtain ⟨k, v⟩ := c
    by_cases hk : p k = true
    · by_cases hx : k = x
      · subst hx; simp [hk, lookup_cons]
      · simp [hk, lookup_cons, hx, ih]
    · by_cases hx : k = x
      · subst hx; simp [hk, ih]
      · simp [hk, lookup_cons, hx, ih]

theorem lookup_cells (a : Nat) (bs : List Byte) (x : Nat) :
    Memory.lookup (cells a bs) x = if a ≤ x then bs[x - a]? else none := by
  induction bs generalizing a with
  | nil => simp [cells]
  | cons b bs ih =>
    rw [cells, lookup_cons, ih]
    by_cases h : a = x
    · subst h; simp
    · by_cases h2 : a ≤ x
      · have h3 : a + 1 ≤ x := by omega
        have h4 : x - a = (x - (a + 1)) + 1 := by omega
        simp [h, h2, h3, h4]
      · have h3 : ¬ a + 1 ≤ x := by omega
        simp [h, h2, h3]

/-- What a write leaves at an offset: the written byte inside, the old one outside. -/
theorem lookup_writeBytes (m : Memory) (a : Nat) (bs : List Byte) (x : Nat) :
    (m.writeBytes a bs).lookup x = if a ≤ x ∧ x < a + bs.length then bs[x - a]? else m.lookup x := by
  unfold Memory.writeBytes
  split
  · rename_i h
    have : bs = [] := by simpa using h
    subst this
    simp
  · rw [lookup_append, lookup_append, lookup_filter m (fun k => decide (k < a)),
      lookup_filter m (fun k => decide (a + bs.length ≤ k)), lookup_cells]
    by_cases h1 : x < a
    · have h2 : ¬ a ≤ x := by omega
      have h3 : ¬ a + bs.length ≤ x := by omega
      simp [h1, h2, h3]
    · by_cases h2 : x < a + bs.length
      · have h3 : a ≤ x := by omega
        have h4 : ¬ a + bs.length ≤ x := by omega
        have h5 : x - a < bs.length := by omega
        simp [h1, h2, h3, h4]
      · have h3 : a ≤ x := by omega
        have h4 : a + bs.length ≤ x := by omega
        have h5 : bs.length ≤ x - a := by omega
        simp [h1, h2, h3, h4, h5]

/-- The frame of a write (R10). -/
theorem readByte_writeBytes_outside (m : Memory) (a : Nat) (bs : List Byte) (x : Nat)
    (h : x < a ∨ a + bs.length ≤ x) : (m.writeBytes a bs).readByte x = m.readByte x := by
  have : ¬ (a ≤ x ∧ x < a + bs.length) := by omega
  simp [Memory.readByte, lookup_writeBytes, this]

/-- A read after a write (R10). -/
theorem readByte_writeBytes_inside (m : Memory) (a : Nat) (bs : List Byte) (i : Nat) (h : i < bs.length) :
    (m.writeBytes a bs).readByte (a + i) = bs[i] := by
  simp [Memory.readByte, lookup_writeBytes, h]

@[simp] theorem writeBytes_nil (m : Memory) (a : Nat) : m.writeBytes a [] = m := by simp [Memory.writeBytes]

@[simp] theorem readBytes_length (m : Memory) (a n : Nat) : (m.readBytes a n).length = n := by
  simp [Memory.readBytes]

theorem readBytes_getElem (m : Memory) (a n i : Nat) (h : i < (m.readBytes a n).length) :
    (m.readBytes a n)[i] = m.readByte (a + i) := by simp [Memory.readBytes]

/-- Reading what has just been written gives it back. -/
theorem readBytes_writeBytes (m : Memory) (a : Nat) (bs : List Byte) :
    (m.writeBytes a bs).readBytes a bs.length = bs := by
  apply List.ext_getElem
  · simp
  · intro i h1 h2
    rw [readBytes_getElem, readByte_writeBytes_inside _ _ _ _ h2]

/-- A read of other offsets does not see a write. -/
theorem readBytes_writeBytes_outside (m : Memory) (a : Nat) (bs : List Byte) (b n : Nat)
    (h : b + n ≤ a ∨ a + bs.length ≤ b) : (m.writeBytes a bs).readBytes b n = m.readBytes b n := by
  apply List.ext_getElem
  · simp
  · intro i h1 h2
    rw [readBytes_getElem, readBytes_getElem, readByte_writeBytes_outside]
    simp at h1
    omega

/-! ## The canonical form -/

theorem wf_iff (m : Memory) : m.wf = true ↔ m.Pairwise fun c d => c.1 < d.1 := by simp [Memory.wf]

theorem within_iff (m : Memory) (size : Nat) : m.within size = true ↔ ∀ c ∈ m, c.1 < size := by
  simp [Memory.within]

theorem mem_cells {a : Nat} {bs : List Byte} {c : Host.Cell} (h : c ∈ cells a bs) : a ≤ c.1 ∧ c.1 < a + bs.length := by
  induction bs generalizing a with
  | nil => simp [cells] at h
  | cons b bs ih =>
    rw [cells, List.mem_cons] at h
    rcases h with rfl | h
    · simp
    · have := ih h
      simp only [List.length_cons]
      omega

theorem cells_pairwise (a : Nat) (bs : List Byte) : (cells a bs).Pairwise fun c d => c.1 < d.1 := by
  induction bs generalizing a with
  | nil => simp [cells]
  | cons b bs ih =>
    rw [cells, List.pairwise_cons]
    refine ⟨fun c hc => ?_, ih (a + 1)⟩
    have := mem_cells hc
    simp only
    omega

/-- A write keeps the canonical form. -/
theorem wf_writeBytes {m : Memory} (h : m.wf = true) (a : Nat) (bs : List Byte) : (m.writeBytes a bs).wf = true := by
  unfold Memory.writeBytes
  split
  · exact h
  · rw [wf_iff] at h ⊢
    rw [List.pairwise_append, List.pairwise_append]
    refine ⟨⟨h.filter _, cells_pairwise a bs, ?_⟩, h.filter _, ?_⟩
    · intro c hc d hd
      have h1 := (List.mem_filter.mp hc).2
      have h2 := mem_cells hd
      simp only [decide_eq_true_eq] at h1
      omega
    · intro c hc d hd
      have h2 := (List.mem_filter.mp hd).2
      simp only [decide_eq_true_eq] at h2
      rcases List.mem_append.mp hc with hc | hc
      · have h1 := (List.mem_filter.mp hc).2
        simp only [decide_eq_true_eq] at h1
        omega
      · have h1 := mem_cells hc
        omega

/-- A write inside LMEM stays inside LMEM. -/
theorem within_writeBytes {m : Memory} {size : Nat} (h : m.within size = true) (a : Nat) (bs : List Byte)
    (hb : bs = [] ∨ a + bs.length ≤ size) : (m.writeBytes a bs).within size = true := by
  unfold Memory.writeBytes
  split
  · exact h
  · rename_i hne
    have hb : a + bs.length ≤ size := by
      rcases hb with rfl | hb
      · simp at hne
      · exact hb
    rw [within_iff] at h ⊢
    intro c hc
    rcases List.mem_append.mp hc with hc | hc
    · rcases List.mem_append.mp hc with hc | hc
      · exact h c (List.mem_filter.mp hc).1
      · have := mem_cells hc
        omega
    · exact h c (List.mem_filter.mp hc).1

/-! ## Byte order (R86, R87) -/

@[simp] theorem be32_length (v : Word) : (be32 v).length = 4 := rfl

theorem beNat_four (b0 b1 b2 b3 : Byte) :
    beNat [b0, b1, b2, b3] = ((b0.toNat * 256 + b1.toNat) * 256 + b2.toNat) * 256 + b3.toNat := by
  simp [beNat]

theorem beNat_be32 (v : Word) : beNat (be32 v) = v.toNat := by
  rw [be32, beNat_four]
  have := v.isLt
  simp only [BitVec.extractLsb'_toNat, Nat.shiftRight_eq_div_pow]
  omega

@[simp] theorem ofNat_beNat_be32 (v : Word) : BitVec.ofNat 32 (beNat (be32 v)) = v := by
  rw [beNat_be32]; simp

theorem be32_eq (v : Word) :
    be32 v = [v.extractLsb' 24 8, v.extractLsb' 16 8, v.extractLsb' 8 8, v.extractLsb' 0 8] := rfl

@[simp] theorem wordsOf_be32_append (v : Word) (bs : List Byte) : wordsOf (be32 v ++ bs) = v :: wordsOf bs := by
  show BitVec.ofNat 32 (beNat (be32 v)) :: wordsOf bs = v :: wordsOf bs
  rw [ofNat_beNat_be32]

/-- Words written big-endian read back as the words (R86). -/
theorem wordsOf_flatMap_be32 (vs : List Word) : wordsOf (vs.flatMap be32) = vs := by
  induction vs with
  | nil => rfl
  | cons v vs ih => rw [List.flatMap_cons, wordsOf_be32_append, ih]

theorem flatMap_be32_length (vs : List Word) : (vs.flatMap be32).length = 4 * vs.length := by
  induction vs with
  | nil => rfl
  | cons v vs ih => rw [List.flatMap_cons, List.length_append, ih]; simp; omega

theorem readWord_writeWord (m : Memory) (a : Nat) (v : Word) : (m.writeWord a v).readWord a = v := by
  unfold Memory.readWord Memory.writeWord
  have := readBytes_writeBytes m a (be32 v)
  rw [be32_length] at this
  rw [this, ofNat_beNat_be32]

@[simp] theorem freeBytes_length (n a len : Nat) : (freeBytes n a len).length = len := by simp [freeBytes]

end Sys2Proof.Machine
end

