-- ==== Sys2Proof/Laws/State.lean ====
section
/-! SUPPORT. One lemma per field per update of State, true by rfl, so that no proof unfolds a record update. -/

namespace Sys2Proof.Machine

/-! Acceptance (R140). -/

@[simp] theorem State.accept_params (s : State) (w : Word) : (s.accept w).params = s.params := rfl
@[simp] theorem State.accept_irqEn (s : State) (w : Word) : (s.accept w).irqEn = s.irqEn := rfl
@[simp] theorem State.accept_done (s : State) (w : Word) : (s.accept w).done = false := rfl
@[simp] theorem State.accept_err (s : State) (w : Word) : (s.accept w).err = false := rfl
@[simp] theorem State.accept_werr (s : State) (w : Word) : (s.accept w).werr = s.werr := rfl
@[simp] theorem State.accept_errcode (s : State) (w : Word) : (s.accept w).errcode = 0 := rfl
@[simp] theorem State.accept_cmd (s : State) (w : Word) : (s.accept w).cmd = w := rfl
@[simp] theorem State.accept_errinfo (s : State) (w : Word) : (s.accept w).errinfo = 0 := rfl
@[simp] theorem State.accept_res0 (s : State) (w : Word) : (s.accept w).res0 = 0 := rfl
@[simp] theorem State.accept_res1 (s : State) (w : Word) : (s.accept w).res1 = 0 := rfl
@[simp] theorem State.accept_res2 (s : State) (w : Word) : (s.accept w).res2 = 0 := rfl
@[simp] theorem State.accept_regs (s : State) (w : Word) : (s.accept w).regs = s.regs := rfl
@[simp] theorem State.accept_cb (s : State) (w : Word) : (s.accept w).cb = s.cb := rfl
@[simp] theorem State.accept_sequencer (s : State) (w : Word) : (s.accept w).sequencer = .busy { word := w, regs := s.regs } := rfl
@[simp] theorem State.accept_lmem (s : State) (w : Word) : (s.accept w).lmem = s.lmem := rfl
@[simp] theorem State.accept_schedule (s : State) (w : Word) : (s.accept w).schedule = s.schedule := rfl
@[simp] theorem State.accept_port (s : State) (w : Word) : (s.accept w).port = s.port := rfl
@[simp] theorem State.accept_draws (s : State) (w : Word) : (s.accept w).draws = s.draws := rfl

/-! Error completion (R322). -/

@[simp] theorem State.raise_params (s : State) (e : Raise) : (s.raise e).params = s.params := rfl
@[simp] theorem State.raise_irqEn (s : State) (e : Raise) : (s.raise e).irqEn = s.irqEn := rfl
@[simp] theorem State.raise_done (s : State) (e : Raise) : (s.raise e).done = true := rfl
@[simp] theorem State.raise_err (s : State) (e : Raise) : (s.raise e).err = true := rfl
@[simp] theorem State.raise_werr (s : State) (e : Raise) : (s.raise e).werr = s.werr := rfl
@[simp] theorem State.raise_errcode (s : State) (e : Raise) : (s.raise e).errcode = e.kind.code := rfl
@[simp] theorem State.raise_cmd (s : State) (e : Raise) : (s.raise e).cmd = s.cmd := rfl
@[simp] theorem State.raise_errinfo (s : State) (e : Raise) : (s.raise e).errinfo = e.info := rfl
@[simp] theorem State.raise_res0 (s : State) (e : Raise) : (s.raise e).res0 = 0 := rfl
@[simp] theorem State.raise_res1 (s : State) (e : Raise) : (s.raise e).res1 = 0 := rfl
@[simp] theorem State.raise_res2 (s : State) (e : Raise) : (s.raise e).res2 = 0 := rfl
@[simp] theorem State.raise_regs (s : State) (e : Raise) : (s.raise e).regs = s.regs := rfl
@[simp] theorem State.raise_cb (s : State) (e : Raise) : (s.raise e).cb = s.cb := rfl
@[simp] theorem State.raise_sequencer (s : State) (e : Raise) : (s.raise e).sequencer = .idle := rfl
@[simp] theorem State.raise_lmem (s : State) (e : Raise) : (s.raise e).lmem = s.lmem := rfl
@[simp] theorem State.raise_schedule (s : State) (e : Raise) : (s.raise e).schedule = s.schedule := rfl
@[simp] theorem State.raise_port (s : State) (e : Raise) : (s.raise e).port = s.port := rfl
@[simp] theorem State.raise_draws (s : State) (e : Raise) : (s.raise e).draws = s.draws := rfl

/-! Successful completion (R142). -/

@[simp] theorem State.complete_params (s : State) (a b c : Word) : (s.complete a b c).params = s.params := rfl
@[simp] theorem State.complete_irqEn (s : State) (a b c : Word) : (s.complete a b c).irqEn = s.irqEn := rfl
@[simp] theorem State.complete_done (s : State) (a b c : Word) : (s.complete a b c).done = true := rfl
@[simp] theorem State.complete_err (s : State) (a b c : Word) : (s.complete a b c).err = s.err := rfl
@[simp] theorem State.complete_werr (s : State) (a b c : Word) : (s.complete a b c).werr = s.werr := rfl
@[simp] theorem State.complete_errcode (s : State) (a b c : Word) : (s.complete a b c).errcode = s.errcode := rfl
@[simp] theorem State.complete_cmd (s : State) (a b c : Word) : (s.complete a b c).cmd = s.cmd := rfl
@[simp] theorem State.complete_errinfo (s : State) (a b c : Word) : (s.complete a b c).errinfo = s.errinfo := rfl
@[simp] theorem State.complete_res0 (s : State) (a b c : Word) : (s.complete a b c).res0 = a := rfl
@[simp] theorem State.complete_res1 (s : State) (a b c : Word) : (s.complete a b c).res1 = b := rfl
@[simp] theorem State.complete_res2 (s : State) (a b c : Word) : (s.complete a b c).res2 = c := rfl
@[simp] theorem State.complete_regs (s : State) (a b c : Word) : (s.complete a b c).regs = s.regs := rfl
@[simp] theorem State.complete_cb (s : State) (a b c : Word) : (s.complete a b c).cb = s.cb := rfl
@[simp] theorem State.complete_sequencer (s : State) (a b c : Word) : (s.complete a b c).sequencer = .idle := rfl
@[simp] theorem State.complete_lmem (s : State) (a b c : Word) : (s.complete a b c).lmem = s.lmem := rfl
@[simp] theorem State.complete_schedule (s : State) (a b c : Word) : (s.complete a b c).schedule = s.schedule := rfl
@[simp] theorem State.complete_port (s : State) (a b c : Word) : (s.complete a b c).port = s.port := rfl
@[simp] theorem State.complete_draws (s : State) (a b c : Word) : (s.complete a b c).draws = s.draws := rfl

/-! CB_VALID becomes 0 (R57). -/

@[simp] theorem State.clearCb_params (s : State) : (s.clearCb).params = s.params := rfl
@[simp] theorem State.clearCb_irqEn (s : State) : (s.clearCb).irqEn = s.irqEn := rfl
@[simp] theorem State.clearCb_done (s : State) : (s.clearCb).done = s.done := rfl
@[simp] theorem State.clearCb_err (s : State) : (s.clearCb).err = s.err := rfl
@[simp] theorem State.clearCb_werr (s : State) : (s.clearCb).werr = s.werr := rfl
@[simp] theorem State.clearCb_errcode (s : State) : (s.clearCb).errcode = s.errcode := rfl
@[simp] theorem State.clearCb_cmd (s : State) : (s.clearCb).cmd = s.cmd := rfl
@[simp] theorem State.clearCb_errinfo (s : State) : (s.clearCb).errinfo = s.errinfo := rfl
@[simp] theorem State.clearCb_res0 (s : State) : (s.clearCb).res0 = s.res0 := rfl
@[simp] theorem State.clearCb_res1 (s : State) : (s.clearCb).res1 = s.res1 := rfl
@[simp] theorem State.clearCb_res2 (s : State) : (s.clearCb).res2 = s.res2 := rfl
@[simp] theorem State.clearCb_regs (s : State) : (s.clearCb).regs = s.regs := rfl
@[simp] theorem State.clearCb_cb (s : State) : (s.clearCb).cb = none := rfl
@[simp] theorem State.clearCb_sequencer (s : State) : (s.clearCb).sequencer = s.sequencer := rfl
@[simp] theorem State.clearCb_lmem (s : State) : (s.clearCb).lmem = s.lmem := rfl
@[simp] theorem State.clearCb_schedule (s : State) : (s.clearCb).schedule = s.schedule := rfl
@[simp] theorem State.clearCb_port (s : State) : (s.clearCb).port = s.port := rfl
@[simp] theorem State.clearCb_draws (s : State) : (s.clearCb).draws = s.draws := rfl

/-! Bytes become unspecified (R326). -/

@[simp] theorem State.scramble_params (s : State) (rs : List Region) : (s.scramble rs).params = s.params := rfl
@[simp] theorem State.scramble_irqEn (s : State) (rs : List Region) : (s.scramble rs).irqEn = s.irqEn := rfl
@[simp] theorem State.scramble_done (s : State) (rs : List Region) : (s.scramble rs).done = s.done := rfl
@[simp] theorem State.scramble_err (s : State) (rs : List Region) : (s.scramble rs).err = s.err := rfl
@[simp] theorem State.scramble_werr (s : State) (rs : List Region) : (s.scramble rs).werr = s.werr := rfl
@[simp] theorem State.scramble_errcode (s : State) (rs : List Region) : (s.scramble rs).errcode = s.errcode := rfl
@[simp] theorem State.scramble_cmd (s : State) (rs : List Region) : (s.scramble rs).cmd = s.cmd := rfl
@[simp] theorem State.scramble_errinfo (s : State) (rs : List Region) : (s.scramble rs).errinfo = s.errinfo := rfl
@[simp] theorem State.scramble_res0 (s : State) (rs : List Region) : (s.scramble rs).res0 = s.res0 := rfl
@[simp] theorem State.scramble_res1 (s : State) (rs : List Region) : (s.scramble rs).res1 = s.res1 := rfl
@[simp] theorem State.scramble_res2 (s : State) (rs : List Region) : (s.scramble rs).res2 = s.res2 := rfl
@[simp] theorem State.scramble_regs (s : State) (rs : List Region) : (s.scramble rs).regs = s.regs := rfl
@[simp] theorem State.scramble_cb (s : State) (rs : List Region) : (s.scramble rs).cb = s.cb := rfl
@[simp] theorem State.scramble_sequencer (s : State) (rs : List Region) : (s.scramble rs).sequencer = s.sequencer := rfl
@[simp] theorem State.scramble_lmem (s : State) (rs : List Region) : (s.scramble rs).lmem = rs.foldl (fun m r => m.writeBytes r.addr (freeBytes s.draws r.addr r.len)) s.lmem := rfl
@[simp] theorem State.scramble_schedule (s : State) (rs : List Region) : (s.scramble rs).schedule = s.schedule := rfl
@[simp] theorem State.scramble_port (s : State) (rs : List Region) : (s.scramble rs).port = s.port := rfl
@[simp] theorem State.scramble_draws (s : State) (rs : List Region) : (s.scramble rs).draws = s.draws + 1 := rfl

/-! WERR is set (R328). -/

@[simp] theorem State.setWerr_params (s : State) : (s.setWerr).params = s.params := rfl
@[simp] theorem State.setWerr_irqEn (s : State) : (s.setWerr).irqEn = s.irqEn := rfl
@[simp] theorem State.setWerr_done (s : State) : (s.setWerr).done = s.done := rfl
@[simp] theorem State.setWerr_err (s : State) : (s.setWerr).err = s.err := rfl
@[simp] theorem State.setWerr_werr (s : State) : (s.setWerr).werr = true := rfl
@[simp] theorem State.setWerr_errcode (s : State) : (s.setWerr).errcode = s.errcode := rfl
@[simp] theorem State.setWerr_cmd (s : State) : (s.setWerr).cmd = s.cmd := rfl
@[simp] theorem State.setWerr_errinfo (s : State) : (s.setWerr).errinfo = s.errinfo := rfl
@[simp] theorem State.setWerr_res0 (s : State) : (s.setWerr).res0 = s.res0 := rfl
@[simp] theorem State.setWerr_res1 (s : State) : (s.setWerr).res1 = s.res1 := rfl
@[simp] theorem State.setWerr_res2 (s : State) : (s.setWerr).res2 = s.res2 := rfl
@[simp] theorem State.setWerr_regs (s : State) : (s.setWerr).regs = s.regs := rfl
@[simp] theorem State.setWerr_cb (s : State) : (s.setWerr).cb = s.cb := rfl
@[simp] theorem State.setWerr_sequencer (s : State) : (s.setWerr).sequencer = s.sequencer := rfl
@[simp] theorem State.setWerr_lmem (s : State) : (s.setWerr).lmem = s.lmem := rfl
@[simp] theorem State.setWerr_schedule (s : State) : (s.setWerr).schedule = s.schedule := rfl
@[simp] theorem State.setWerr_port (s : State) : (s.setWerr).port = s.port := rfl
@[simp] theorem State.setWerr_draws (s : State) : (s.setWerr).draws = s.draws := rfl

/-! A write to STATUS (R35). -/

@[simp] theorem State.writeStatus_params (s : State) (v : Word) : (s.writeStatus v).params = s.params := rfl
@[simp] theorem State.writeStatus_irqEn (s : State) (v : Word) : (s.writeStatus v).irqEn = s.irqEn := rfl
@[simp] theorem State.writeStatus_done (s : State) (v : Word) : (s.writeStatus v).done = (s.done && !v.getLsbD 1) := rfl
@[simp] theorem State.writeStatus_err (s : State) (v : Word) : (s.writeStatus v).err = (s.err && !v.getLsbD 2) := rfl
@[simp] theorem State.writeStatus_werr (s : State) (v : Word) : (s.writeStatus v).werr = (s.werr && !v.getLsbD 3) := rfl
@[simp] theorem State.writeStatus_errcode (s : State) (v : Word) : (s.writeStatus v).errcode = if v.getLsbD 2 then 0 else s.errcode := rfl
@[simp] theorem State.writeStatus_cmd (s : State) (v : Word) : (s.writeStatus v).cmd = s.cmd := rfl
@[simp] theorem State.writeStatus_errinfo (s : State) (v : Word) : (s.writeStatus v).errinfo = s.errinfo := rfl
@[simp] theorem State.writeStatus_res0 (s : State) (v : Word) : (s.writeStatus v).res0 = s.res0 := rfl
@[simp] theorem State.writeStatus_res1 (s : State) (v : Word) : (s.writeStatus v).res1 = s.res1 := rfl
@[simp] theorem State.writeStatus_res2 (s : State) (v : Word) : (s.writeStatus v).res2 = s.res2 := rfl
@[simp] theorem State.writeStatus_regs (s : State) (v : Word) : (s.writeStatus v).regs = s.regs := rfl
@[simp] theorem State.writeStatus_cb (s : State) (v : Word) : (s.writeStatus v).cb = s.cb := rfl
@[simp] theorem State.writeStatus_sequencer (s : State) (v : Word) : (s.writeStatus v).sequencer = s.sequencer := rfl
@[simp] theorem State.writeStatus_lmem (s : State) (v : Word) : (s.writeStatus v).lmem = s.lmem := rfl
@[simp] theorem State.writeStatus_schedule (s : State) (v : Word) : (s.writeStatus v).schedule = s.schedule := rfl
@[simp] theorem State.writeStatus_port (s : State) (v : Word) : (s.writeStatus v).port = s.port := rfl
@[simp] theorem State.writeStatus_draws (s : State) (v : Word) : (s.writeStatus v).draws = s.draws := rfl

/-! The port answers. -/

@[simp] theorem State.answer_params (s : State) (r : Response) : (s.answer r).params = s.params := rfl
@[simp] theorem State.answer_irqEn (s : State) (r : Response) : (s.answer r).irqEn = s.irqEn := rfl
@[simp] theorem State.answer_done (s : State) (r : Response) : (s.answer r).done = s.done := rfl
@[simp] theorem State.answer_err (s : State) (r : Response) : (s.answer r).err = s.err := rfl
@[simp] theorem State.answer_werr (s : State) (r : Response) : (s.answer r).werr = s.werr := rfl
@[simp] theorem State.answer_errcode (s : State) (r : Response) : (s.answer r).errcode = s.errcode := rfl
@[simp] theorem State.answer_cmd (s : State) (r : Response) : (s.answer r).cmd = s.cmd := rfl
@[simp] theorem State.answer_errinfo (s : State) (r : Response) : (s.answer r).errinfo = s.errinfo := rfl
@[simp] theorem State.answer_res0 (s : State) (r : Response) : (s.answer r).res0 = s.res0 := rfl
@[simp] theorem State.answer_res1 (s : State) (r : Response) : (s.answer r).res1 = s.res1 := rfl
@[simp] theorem State.answer_res2 (s : State) (r : Response) : (s.answer r).res2 = s.res2 := rfl
@[simp] theorem State.answer_regs (s : State) (r : Response) : (s.answer r).regs = s.regs := rfl
@[simp] theorem State.answer_cb (s : State) (r : Response) : (s.answer r).cb = s.cb := rfl
@[simp] theorem State.answer_sequencer (s : State) (r : Response) : (s.answer r).sequencer = s.sequencer := rfl
@[simp] theorem State.answer_lmem (s : State) (r : Response) : (s.answer r).lmem = s.lmem := rfl
@[simp] theorem State.answer_schedule (s : State) (r : Response) : (s.answer r).schedule = s.schedule := rfl
@[simp] theorem State.answer_port (s : State) (r : Response) : (s.answer r).port = some r := rfl
@[simp] theorem State.answer_draws (s : State) (r : Response) : (s.answer r).draws = s.draws := rfl

/-! Views of the sequencer and of the codebook store. -/

@[simp] theorem State.accept_busy (s : State) (w : Word) : (s.accept w).busy = true := rfl
@[simp] theorem State.accept_operands (s : State) (w : Word) : (s.accept w).operands = s.regs := rfl
@[simp] theorem State.accept_cbValid (s : State) (w : Word) : (s.accept w).cbValid = s.cbValid := rfl
@[simp] theorem State.raise_busy (s : State) (e : Raise) : (s.raise e).busy = false := rfl
@[simp] theorem State.complete_busy (s : State) (a b c : Word) : (s.complete a b c).busy = false := rfl
@[simp] theorem State.clearCb_operands (s : State) : s.clearCb.operands = s.operands := rfl
@[simp] theorem State.clearCb_busy (s : State) : s.clearCb.busy = s.busy := rfl
@[simp] theorem State.clearCb_cbValid (s : State) : s.clearCb.cbValid = false := rfl
@[simp] theorem State.scramble_operands (s : State) (rs : List Region) : (s.scramble rs).operands = s.operands := rfl
@[simp] theorem State.scramble_busy (s : State) (rs : List Region) : (s.scramble rs).busy = s.busy := rfl
@[simp] theorem State.setWerr_operands (s : State) : s.setWerr.operands = s.operands := rfl
@[simp] theorem State.setWerr_busy (s : State) : s.setWerr.busy = s.busy := rfl
@[simp] theorem State.writeStatus_busy (s : State) (v : Word) : (s.writeStatus v).busy = s.busy := rfl
@[simp] theorem State.answer_operands (s : State) (r : Response) : (s.answer r).operands = s.operands := rfl
@[simp] theorem State.answer_busy (s : State) (r : Response) : (s.answer r).busy = s.busy := rfl

/-! The beginning of execution and success, which are built from the updates above. -/

theorem State.busy_eq_true_iff (s : State) : s.busy = true ↔ ∃ cur, s.sequencer = .busy cur := by
  unfold State.busy; cases s.sequencer <;> simp

theorem State.busy_eq_false_iff (s : State) : s.busy = false ↔ s.sequencer = .idle := by
  unfold State.busy; cases s.sequencer <;> simp

theorem State.operands_of_busy {s : State} {cur : Cur} (h : s.sequencer = .busy cur) : s.operands = cur.regs := by
  unfold State.operands; rw [h]

theorem State.operands_of_idle {s : State} (h : s.sequencer = .idle) : s.operands = s.regs := by
  unfold State.operands; rw [h]

@[simp] theorem State.beginExecution_params (s : State) (sh : Shape) : (s.beginExecution sh).params = s.params := by
  unfold State.beginExecution; split <;> rfl
@[simp] theorem State.beginExecution_irqEn (s : State) (sh : Shape) : (s.beginExecution sh).irqEn = s.irqEn := by
  unfold State.beginExecution; split <;> rfl
@[simp] theorem State.beginExecution_done (s : State) (sh : Shape) : (s.beginExecution sh).done = s.done := by
  unfold State.beginExecution; split <;> rfl
@[simp] theorem State.beginExecution_err (s : State) (sh : Shape) : (s.beginExecution sh).err = s.err := by
  unfold State.beginExecution; split <;> rfl
@[simp] theorem State.beginExecution_werr (s : State) (sh : Shape) : (s.beginExecution sh).werr = s.werr := by
  unfold State.beginExecution; split <;> rfl
@[simp] theorem State.beginExecution_errcode (s : State) (sh : Shape) : (s.beginExecution sh).errcode = s.errcode := by
  unfold State.beginExecution; split <;> rfl
@[simp] theorem State.beginExecution_cmd (s : State) (sh : Shape) : (s.beginExecution sh).cmd = s.cmd := by
  unfold State.beginExecution; split <;> rfl
@[simp] theorem State.beginExecution_errinfo (s : State) (sh : Shape) : (s.beginExecution sh).errinfo = s.errinfo := by
  unfold State.beginExecution; split <;> rfl
@[simp] theorem State.beginExecution_res0 (s : State) (sh : Shape) : (s.beginExecution sh).res0 = s.res0 := by
  unfold State.beginExecution; split <;> rfl
@[simp] theorem State.beginExecution_res1 (s : State) (sh : Shape) : (s.beginExecution sh).res1 = s.res1 := by
  unfold State.beginExecution; split <;> rfl
@[simp] theorem State.beginExecution_res2 (s : State) (sh : Shape) : (s.beginExecution sh).res2 = s.res2 := by
  unfold State.beginExecution; split <;> rfl
@[simp] theorem State.beginExecution_regs (s : State) (sh : Shape) : (s.beginExecution sh).regs = s.regs := by
  unfold State.beginExecution; split <;> rfl
@[simp] theorem State.beginExecution_sequencer (s : State) (sh : Shape) : (s.beginExecution sh).sequencer = s.sequencer := by
  unfold State.beginExecution; split <;> rfl
@[simp] theorem State.beginExecution_lmem (s : State) (sh : Shape) : (s.beginExecution sh).lmem = s.lmem := by
  unfold State.beginExecution; split <;> rfl
@[simp] theorem State.beginExecution_schedule (s : State) (sh : Shape) : (s.beginExecution sh).schedule = s.schedule := by
  unfold State.beginExecution; split <;> rfl
@[simp] theorem State.beginExecution_port (s : State) (sh : Shape) : (s.beginExecution sh).port = s.port := by
  unfold State.beginExecution; split <;> rfl
@[simp] theorem State.beginExecution_draws (s : State) (sh : Shape) : (s.beginExecution sh).draws = s.draws := by
  unfold State.beginExecution; split <;> rfl
@[simp] theorem State.beginExecution_cb (s : State) (sh : Shape) :
    (s.beginExecution sh).cb = if sh.replacesCb then none else s.cb := by
  unfold State.beginExecution; split <;> rfl
@[simp] theorem State.beginExecution_operands (s : State) (sh : Shape) : (s.beginExecution sh).operands = s.operands := by
  unfold State.beginExecution; split <;> rfl

@[simp] theorem State.succeed_params (s : State) (r : Result) : (s.succeed r).params = s.params := by
  unfold State.succeed; dsimp only; split <;> split <;> rfl
@[simp] theorem State.succeed_irqEn (s : State) (r : Result) : (s.succeed r).irqEn = s.irqEn := by
  unfold State.succeed; dsimp only; split <;> split <;> rfl
@[simp] theorem State.succeed_done (s : State) (r : Result) : (s.succeed r).done = true := by
  unfold State.succeed; dsimp only; split <;> split <;> rfl
@[simp] theorem State.succeed_err (s : State) (r : Result) : (s.succeed r).err = s.err := by
  unfold State.succeed; dsimp only; split <;> split <;> rfl
@[simp] theorem State.succeed_werr (s : State) (r : Result) : (s.succeed r).werr = s.werr := by
  unfold State.succeed; dsimp only; split <;> split <;> rfl
@[simp] theorem State.succeed_errcode (s : State) (r : Result) : (s.succeed r).errcode = s.errcode := by
  unfold State.succeed; dsimp only; split <;> split <;> rfl
@[simp] theorem State.succeed_cmd (s : State) (r : Result) : (s.succeed r).cmd = s.cmd := by
  unfold State.succeed; dsimp only; split <;> split <;> rfl
@[simp] theorem State.succeed_errinfo (s : State) (r : Result) : (s.succeed r).errinfo = s.errinfo := by
  unfold State.succeed; dsimp only; split <;> split <;> rfl
@[simp] theorem State.succeed_res0 (s : State) (r : Result) : (s.succeed r).res0 = r.res0 := by
  unfold State.succeed; dsimp only; split <;> split <;> rfl
@[simp] theorem State.succeed_res1 (s : State) (r : Result) : (s.succeed r).res1 = r.res1 := by
  unfold State.succeed; dsimp only; split <;> split <;> rfl
@[simp] theorem State.succeed_res2 (s : State) (r : Result) : (s.succeed r).res2 = r.res2 := by
  unfold State.succeed; dsimp only; split <;> split <;> rfl
@[simp] theorem State.succeed_regs (s : State) (r : Result) : (s.succeed r).regs = s.regs := by
  unfold State.succeed; dsimp only; split <;> split <;> rfl
@[simp] theorem State.succeed_sequencer (s : State) (r : Result) : (s.succeed r).sequencer = .idle := by
  unfold State.succeed; dsimp only; split <;> split <;> rfl
@[simp] theorem State.succeed_schedule (s : State) (r : Result) : (s.succeed r).schedule = s.schedule := by
  unfold State.succeed; dsimp only; split <;> split <;> rfl
@[simp] theorem State.succeed_port (s : State) (r : Result) : (s.succeed r).port = s.port := by
  unfold State.succeed; dsimp only; split <;> split <;> rfl
@[simp] theorem State.succeed_cb (s : State) (r : Result) :
    (s.succeed r).cb = if r.installs.isSome then r.installs else s.cb := by
  unfold State.succeed; dsimp only; split <;> split <;> rfl
theorem State.succeed_draws (s : State) (r : Result) :
    (s.succeed r).draws = if r.scratchUsed then s.draws + 1 else s.draws := by
  unfold State.succeed; dsimp only; split <;> split <;> rfl
theorem State.succeed_lmem (s : State) (r : Result) :
    (s.succeed r).lmem =
      if r.scratchUsed then
        (s.lmem.writeBytes s.operands.dstAddr.toNat r.out).writeBytes s.operands.arg0.toNat
          (freeBytes s.draws s.operands.arg0.toNat s.operands.arg1.toNat)
      else s.lmem.writeBytes s.operands.dstAddr.toNat r.out := by
  unfold State.succeed; dsimp only; split <;> split <;> rfl

end Sys2Proof.Machine
end

