-- ==== Sys2Proof/Laws/Lifecycle.lean ====
section
/-! SUPPORT. What a command can do, said once: every command is `runCommand` of its shape and its pseudocode, and
`runCommand` ends in one of three ways. -/

namespace Sys2Proof.Machine

open Sys2Proof.Config

/-- The pseudocode of every command. -/
def bodyOf : Instr → Inputs → Except Raise Result
  | .nop => nopBody
  | .bpack p => bpackBody p
  | .bunpack p => bunpackBody p
  | .vwrite => vwriteBody
  | .vread => vreadBody
  | .hbuild w => hbuildBody w
  | .henc w => hencBody w
  | .hdec => hdecBody
  | .hser => hserBody
  | .hdeser => hdeserBody
  | .hcode => hcodeBody
  | .lzcomp => lzcompBody
  | .lzdec => lzdecBody
  | .ccomp => ccompBody
  | .cdec => cdecBody

/-- Every command runs through the shared operation. -/
theorem exec_eq_runCommand (i : Instr) (s : State) : exec i s = .next (s.runCommand (shapeOf i) (bodyOf i)) := by
  cases i <;> rfl

theorem exec_eq_next {i : Instr} {s t : State} (h : exec i s = .next t) :
    t = s.runCommand (shapeOf i) (bodyOf i) := by
  rw [exec_eq_runCommand] at h
  exact (Host.Outcome.next.inj h).symm

/-- The three ends of a command: turned away at acceptance, an error of its pseudocode, success. -/
theorem runCommand_cases (s : State) (sh : Shape) (body : Inputs → Except Raise Result) :
    (∃ e, acceptanceError sh s.params s.operands s.cbValid = some e ∧ s.runCommand sh body = s.raise e) ∨
    (acceptanceError sh s.params s.operands s.cbValid = none ∧
      ((∃ e, body (s.inputs sh) = .error e ∧
          s.runCommand sh body = ((s.beginExecution sh).scramble (sh.written s.operands)).raise e) ∨
       (∃ r, body (s.inputs sh) = .ok r ∧ s.runCommand sh body = (s.beginExecution sh).succeed r))) := by
  unfold State.runCommand
  cases h : acceptanceError sh s.params s.operands s.cbValid with
  | some e => exact .inl ⟨e, rfl, rfl⟩
  | none =>
    refine .inr ⟨rfl, ?_⟩
    cases hb : body (s.inputs sh) with
    | error e => exact .inl ⟨e, rfl, rfl⟩
    | ok r => exact .inr ⟨r, rfl, rfl⟩

theorem runCommand_of_acceptanceError {s : State} {sh : Shape} {body : Inputs → Except Raise Result} {e : Raise}
    (h : acceptanceError sh s.params s.operands s.cbValid = some e) : s.runCommand sh body = s.raise e := by
  simp [State.runCommand, h]

theorem runCommand_of_ok {s : State} {sh : Shape} {body : Inputs → Except Raise Result} {r : Result}
    (h : acceptanceError sh s.params s.operands s.cbValid = none) (hb : body (s.inputs sh) = .ok r) :
    s.runCommand sh body = (s.beginExecution sh).succeed r := by
  simp [State.runCommand, h, hb]

theorem runCommand_of_error {s : State} {sh : Shape} {body : Inputs → Except Raise Result} {e : Raise}
    (h : acceptanceError sh s.params s.operands s.cbValid = none) (hb : body (s.inputs sh) = .error e) :
    s.runCommand sh body = ((s.beginExecution sh).scramble (sh.written s.operands)).raise e := by
  simp [State.runCommand, h, hb]

/-- No acceptance check fails exactly when every condition of the list is false (R120). -/
theorem acceptanceError_eq_none {sh : Shape} {p : Params} {o : LockedRegs} {v : Bool} :
    acceptanceError sh p o v = none ↔ ∀ c ∈ acceptanceChecks sh p o v, c.1 = false := by
  simp [acceptanceError]

/-- Emission gives the bytes themselves, and only when they fit (R119). -/
theorem emit_eq_ok {x : Inputs} {out b : List Byte} :
    emit x out = .ok b ↔ b = out ∧ out.length ≤ x.ops.dstCap.toNat := by
  unfold emit
  split
  · rename_i h; simp [h, eq_comm]
  · rename_i h; simp [h]

theorem emit_eq_error {x : Inputs} {out : List Byte} {e : Raise} :
    emit x out = .error e ↔ e = ErrorKind.capacityExceeded.at 1 ∧ x.ops.dstCap.toNat < out.length := by
  unfold emit
  split
  · rename_i h; simp [h]
  · rename_i h; simp at h; simp [h, eq_comm]

/-- What a command leaves of the registers, whatever its end (R374): everything but its own results. -/
theorem runCommand_frame (s : State) (sh : Shape) (body : Inputs → Except Raise Result) :
    (s.runCommand sh body).regs = s.regs ∧ (s.runCommand sh body).cmd = s.cmd ∧
    (s.runCommand sh body).irqEn = s.irqEn ∧ (s.runCommand sh body).werr = s.werr ∧
    (s.runCommand sh body).params = s.params ∧ (s.runCommand sh body).schedule = s.schedule ∧
    (s.runCommand sh body).port = s.port ∧ (s.runCommand sh body).sequencer = .idle ∧
    (s.runCommand sh body).done = true := by
  rcases runCommand_cases s sh body with ⟨e, -, h⟩ | ⟨-, ⟨e, -, h⟩ | ⟨r, -, h⟩⟩ <;> rw [h] <;> simp

/-- The bytes outside the regions of a draw keep their value. -/
theorem readByte_scramble_outside (s : State) (rs : List Region) (a : Nat)
    (h : ∀ r ∈ rs, a < r.addr ∨ r.addr + r.len ≤ a) : (s.scramble rs).lmem.readByte a = s.lmem.readByte a := by
  rw [State.scramble_lmem]
  suffices ∀ m : Memory,
      (rs.foldl (fun m r => m.writeBytes r.addr (freeBytes s.draws r.addr r.len)) m).readByte a = m.readByte a from this _
  induction rs with
  | nil => intro m; rfl
  | cons r rs ih =>
    intro m
    rw [List.foldl_cons, ih (fun q hq => h q (List.mem_cons_of_mem _ hq))]
    apply readByte_writeBytes_outside
    have := h r List.mem_cons_self
    simpa using this

/-- A draw keeps LMEM's canonical form. -/
theorem wf_scramble {s : State} (h : s.lmem.wf = true) (rs : List Region) : (s.scramble rs).lmem.wf = true := by
  rw [State.scramble_lmem]
  suffices ∀ m : Memory, m.wf = true →
      (rs.foldl (fun m r => m.writeBytes r.addr (freeBytes s.draws r.addr r.len)) m).wf = true from this _ h
  induction rs with
  | nil => intro m hm; exact hm
  | cons r rs ih => intro m hm; exact ih _ (wf_writeBytes hm _ _)

/-- A draw inside LMEM stays inside LMEM. -/
theorem within_scramble {s : State} {size : Nat} (h : s.lmem.within size = true) (rs : List Region)
    (hr : ∀ r ∈ rs, r.len = 0 ∨ r.addr + r.len ≤ size) : (s.scramble rs).lmem.within size = true := by
  rw [State.scramble_lmem]
  suffices ∀ m : Memory, m.within size = true →
      (rs.foldl (fun m r => m.writeBytes r.addr (freeBytes s.draws r.addr r.len)) m).within size = true from this _ h
  induction rs with
  | nil => intro m hm; exact hm
  | cons r rs ih =>
    intro m hm
    refine ih (fun q hq => hr q (List.mem_cons_of_mem _ hq)) _ (within_writeBytes hm _ _ ?_)
    rcases hr r List.mem_cons_self with h0 | h1
    · left; apply List.eq_nil_of_length_eq_zero; simpa using h0
    · right; simpa using h1

end Sys2Proof.Machine
end

