-- ==== Sys2Proof/Laws/Bitpack.lean ====
section
/-! SUPPORT. The laws of the bit packer (41_bitpack R160, R161): lengths, the digits of packed bytes, and unpacking what
was packed. -/

namespace Sys2Proof.Machine

theorem ceil8_le (n : Nat) : n ≤ 8 * ceil8 n := by unfold ceil8; omega

theorem ceil8_lt (n : Nat) : 8 * ceil8 n < n + 8 := by unfold ceil8; omega

@[simp] theorem packMSB_length (s : Bits) : (packMSB s).length = ceil8 s.length := by simp [packMSB]

@[simp] theorem stream_length (s : Bits) : (stream s).length = 1 + ceil8 s.length := by
  simp [stream]; omega

@[simp] theorem byteBits_length (b : Byte) : (byteBits b).length = 8 := by simp [byteBits]

/-- Eight digits make a byte whose digits they are. -/
theorem byteBits_ofNat_bitsNat (a b c d e f g h : Bool) :
    byteBits (BitVec.ofNat 8 (bitsNat [a, b, c, d, e, f, g, h])) = [a, b, c, d, e, f, g, h] := by
  revert a b c d e f g h; decide

/-- The digits of a packed byte (R160). -/
theorem byteBits_packByte (s : Bits) (k : Nat) :
    byteBits (packByte s k) = (List.range 8).map fun j => s.getD (8 * k + j) false := by
  simp only [packByte, show List.range 8 = [0, 1, 2, 3, 4, 5, 6, 7] from rfl, List.map_cons, List.map_nil]
  rw [byteBits_ofNat_bitsNat]

/-- Digit j of a packed byte is digit 8k + j of the string (R160). -/
theorem packByte_getLsbD (s : Bits) (k j : Nat) (hj : j < 8) :
    (packByte s k).getLsbD (7 - j) = s.getD (8 * k + j) false := by
  have h := congrArg (fun l => l.getD j false) (byteBits_packByte s k)
  simpa [byteBits, List.getD_eq_getElem?_getD, List.getElem?_range, hj] using h

theorem flatMap_range_eight {α : Type} (f : Nat → α) (n : Nat) :
    (List.range n).flatMap (fun k => (List.range 8).map fun j => f (8 * k + j)) = (List.range (8 * n)).map f := by
  induction n with
  | zero => rfl
  | succ n ih =>
    rw [List.range_succ (n := n), List.flatMap_append, ih, Nat.mul_succ, List.range_add, List.map_append]
    simp

/-- All the digits of a packed string: the string, padded with zeros (R160). -/
theorem flatMap_byteBits_packMSB (s : Bits) :
    (packMSB s).flatMap byteBits = (List.range (8 * ceil8 s.length)).map fun i => s.getD i false := by
  rw [← flatMap_range_eight]
  simp only [packMSB, List.flatMap_map, byteBits_packByte]

/-- The valid digits of a packed string are its own (R161). -/
theorem validBits_ceil8 (n : Nat) : validBits (ceil8 n) (n % 8) = n := by
  unfold validBits ceil8
  split <;> omega

theorem take_map_getD (s : Bits) (n : Nat) (h : s.length ≤ n) :
    ((List.range n).map fun i => s.getD i false).take s.length = s := by
  apply List.ext_getElem
  · simp [h]
  · intro i h1 h2
    simp [List.getD_eq_getElem?_getD, h2]

/-- Unpacking what was packed gives the string back (R164). -/
theorem unpackMSB_packMSB (s : Bits) : unpackMSB (packMSB s) (s.length % 8) = s := by
  unfold unpackMSB
  rw [packMSB_length, validBits_ceil8, flatMap_byteBits_packMSB]
  exact take_map_getD s _ (ceil8_le _)

/-- The stream form reads back (R161, R164). -/
theorem streamBits_stream (s : Bits) (info : Nat) : streamBits (stream s) info = .ok s := by
  have h8 : s.length % 8 < 8 := Nat.mod_lt _ (by omega)
  have hr : (BitVec.ofNat 8 (s.length % 8)).toNat = s.length % 8 := by
    simp
    omega
  have h2 : ¬ (packMSB s).length = 0 ∨ (BitVec.ofNat 8 (s.length % 8)).toNat = 0 := by
    rw [packMSB_length, hr]
    unfold ceil8
    omega
  unfold streamBits stream
  simp only
  rw [if_neg (by omega), if_neg (by tauto), hr, unpackMSB_packMSB]

theorem unpackMSB_length (P : List Byte) (r : Nat) : (unpackMSB P r).length = min (validBits P.length r) (8 * P.length) := by
  have : (P.flatMap byteBits).length = 8 * P.length := by
    induction P with
    | nil => rfl
    | cons b P ih => rw [List.flatMap_cons, List.length_append, ih, byteBits_length, List.length_cons]; omega
  rw [unpackMSB, List.length_take, this]

end Sys2Proof.Machine
end

