-- ==== Sys2Proof/Laws/Varint.lean ====
section
/-! SUPPORT. The laws of the varint codec (42_varint R181, R182, R184): lengths, and reading what was written, at any
place of a longer buffer. -/

namespace Sys2Proof.Machine

theorem varintBytes_length (v : Nat) : (varintBytes v).length = varintLen v := by
  unfold varintBytes varintLen
  split
  · rfl
  · split <;> simp

theorem varintLen_pos (v : Nat) : 1 ≤ varintLen v := by
  unfold varintLen; split
  · omega
  · split <;> omega

theorem getElem?_append_at (A B : List Byte) (j : Nat) : (A ++ B)[A.length + j]? = B[j]? := by
  rw [List.getElem?_append_right (by omega)]
  congr 1
  omega

/-- A tier-2 lead byte: its value, and its low seven bits (R180). -/
theorem tier2_lead (k : Nat) (h : k < 64) :
    (BitVec.ofNat 8 k ||| 0x80#8).toNat = 128 + k ∧ ((BitVec.ofNat 8 k ||| 0x80#8) &&& 0x7F#8).toNat = k := by
  have : ∀ k : Fin 64, (BitVec.ofNat 8 k ||| 0x80#8).toNat = 128 + k ∧
      ((BitVec.ofNat 8 k ||| 0x80#8) &&& 0x7F#8).toNat = k := by decide
  exact this ⟨k, h⟩

/-- Tier 1 (R182). -/
theorem readVarInt_tier1 {B : List Byte} {c : Nat} {lead : Byte} (h : B[c]? = some lead) (h1 : lead.toNat < 128) :
    readVarInt B c = .ok (lead.toNat, c + 1) := by
  simp [readVarInt, h, h1]

/-- Tier 2 (R182). -/
theorem readVarInt_tier2 {B : List Byte} {c : Nat} {lead b : Byte} (h : B[c]? = some lead) (h1 : 128 ≤ lead.toNat)
    (h2 : lead.toNat < 255) (hb : B[c + 1]? = some b) :
    readVarInt B c = .ok ((lead &&& 0x7F#8).toNat * 256 + b.toNat, c + 2) := by
  have h3 : ¬ lead.toNat < 128 := by omega
  have h4 : ¬ lead = 255#8 := by rintro rfl; simp at h2
  simp [readVarInt, h, h3, h4, hb]

/-- Tier 3 (R182). -/
theorem readVarInt_tier3 {B : List Byte} {c : Nat} (h : B[c]? = some 0xFF#8) (h1 : c + 4 < B.length) :
    readVarInt B c = .ok (beNat ((B.drop (c + 1)).take 4), c + 5) := by
  have h3 : ¬ B.length ≤ c + 4 := by omega
  simp [readVarInt, h, h3]

/-- Reading a varint that was written at a place of a buffer (R184). -/
theorem readVarInt_varintBytes (A B : List Byte) (v : Nat) (h : v < 2 ^ 32) :
    readVarInt (A ++ varintBytes v ++ B) A.length = .ok (v, A.length + varintLen v) := by
  rw [List.append_assoc]
  have h0 := getElem?_append_at A (varintBytes v ++ B) 0
  have h1 := getElem?_append_at A (varintBytes v ++ B) 1
  rw [Nat.add_zero] at h0
  by_cases hv1 : v < 128
  · have hm : (BitVec.ofNat 8 v).toNat = v := by simp; omega
    have hb : varintBytes v = [BitVec.ofNat 8 v] := by simp [varintBytes, hv1]
    rw [hb] at h0 ⊢
    rw [readVarInt_tier1 h0 (by omega), hm]
    simp [varintLen, hv1]
  · by_cases hv2 : v < 16384
    · obtain ⟨ha, hb⟩ := tier2_lead (v / 256) (by omega)
      have hm : (BitVec.ofNat 8 (v % 256)).toNat = v % 256 := by simp
      have he : varintBytes v = [BitVec.ofNat 8 (v / 256) ||| 0x80#8, BitVec.ofNat 8 (v % 256)] := by
        simp [varintBytes, hv1, hv2]
      rw [he] at h0 h1 ⊢
      rw [readVarInt_tier2 h0 (by omega) (by omega) h1, hb, hm]
      have : v / 256 * 256 + v % 256 = v := by omega
      simp [varintLen, hv1, hv2, this]
    · have he : varintBytes v = 0xFF#8 :: be32 (BitVec.ofNat 32 v) := by simp [varintBytes, hv1, hv2]
      rw [he] at h0 ⊢
      have hd : ((A ++ (0xFF#8 :: be32 (BitVec.ofNat 32 v) ++ B)).drop (A.length + 1)).take 4
          = be32 (BitVec.ofNat 32 v) := by
        rw [← List.drop_drop, List.drop_left]
        rfl
      have hval : beNat (be32 (BitVec.ofNat 32 v)) = v := by
        rw [beNat_be32]; simp; omega
      rw [readVarInt_tier3 h0 (by simp), hd, hval]
      simp [varintLen, hv1, hv2]

/-- Reading at the start of what was written (R184). -/
theorem readVarInt_varintBytes_zero (B : List Byte) (v : Nat) (h : v < 2 ^ 32) :
    readVarInt (varintBytes v ++ B) 0 = .ok (v, varintLen v) := by
  simpa using readVarInt_varintBytes [] B v h

/-- A varint that is read lies wholly inside the buffer, and advances the cursor (R182). -/
theorem readVarInt_ok {B : List Byte} {c v p : Nat} (h : readVarInt B c = .ok (v, p)) :
    c < p ∧ p ≤ B.length ∧ p ≤ c + 5 ∧ v < 2 ^ 32 := by
  unfold readVarInt at h
  cases hl : B[c]? with
  | none => simp [hl] at h
  | some lead =>
    have hc : c < B.length := by
      by_contra hn
      rw [List.getElem?_eq_none (by omega)] at hl
      simp at hl
    have hlead := lead.isLt
    simp only [hl] at h
    split at h
    · simp at h; omega
    · split at h
      · split at h
        · simp at h
        · simp only [Except.ok.injEq, Prod.mk.injEq] at h
          have hlen : ((B.drop (c + 1)).take 4).length = 4 := by simp; omega
          obtain ⟨b0, b1, b2, b3, hb⟩ : ∃ b0 b1 b2 b3, (B.drop (c + 1)).take 4 = [b0, b1, b2, b3] := by
            match hm : (B.drop (c + 1)).take 4, hlen with
            | [b0, b1, b2, b3], _ => exact ⟨b0, b1, b2, b3, rfl⟩
          rw [hb, beNat_four] at h
          have := b0.isLt; have := b1.isLt; have := b2.isLt; have := b3.isLt
          omega
      · cases h2 : B[c + 1]? with
        | none => simp [h2] at h
        | some b =>
          have hc2 : c + 1 < B.length := by
            by_contra hn
            rw [List.getElem?_eq_none (by omega)] at h2
            simp at h2
          simp only [h2, Except.ok.injEq, Prod.mk.injEq] at h
          have := b.isLt
          have := (lead &&& 0x7F#8).isLt
          omega

end Sys2Proof.Machine
end

