-- ==== Sys2Proof/Laws/Huffman.lean ====
section
/-! SUPPORT. The laws of the Huffman engine (43_huffman): the frequency table, the tree, the codebook and its
prefix-freedom, and one step each of encoding, decoding, serializing and parsing. -/

namespace Sys2Proof.Machine

open Sys2Proof.Config

/-! ## The frequency table (R201) -/

/-- The keys of a table are in strictly ascending order. -/
def TableSorted (F : List (Word × Nat)) : Prop := F.Pairwise fun a b => a.1.toNat < b.1.toNat

theorem mem_countSymbol {s : Word} {F : List (Word × Nat)} {t : Word × Nat} (h : t ∈ countSymbol s F) :
    t.1 = s ∨ ∃ k, (t.1, k) ∈ F := by
  induction F with
  | nil => simp [countSymbol] at h; exact .inl (by rw [h])
  | cons u F ih =>
    obtain ⟨v, k⟩ := u
    rw [countSymbol] at h
    split at h
    · rename_i hs
      rcases List.mem_cons.mp h with rfl | h
      · exact .inl hs.symm
      · exact .inr ⟨t.2, List.mem_cons_of_mem _ h⟩
    · split at h
      · rcases List.mem_cons.mp h with rfl | h
        · exact .inl rfl
        · exact .inr ⟨t.2, h⟩
      · rcases List.mem_cons.mp h with rfl | h
        · exact .inr ⟨k, List.mem_cons_self⟩
        · rcases ih h with h | ⟨k', h⟩
          · exact .inl h
          · exact .inr ⟨k', List.mem_cons_of_mem _ h⟩

theorem countSymbol_sorted {s : Word} {F : List (Word × Nat)} (h : TableSorted F) : TableSorted (countSymbol s F) := by
  induction F with
  | nil => simp [countSymbol, TableSorted]
  | cons u F ih =>
    obtain ⟨v, k⟩ := u
    unfold TableSorted at h ih ⊢
    rw [List.pairwise_cons] at h
    rw [countSymbol]
    split
    · rw [List.pairwise_cons]; exact h
    · rename_i hne
      split
      · rename_i hlt
        rw [List.pairwise_cons]
        refine ⟨fun t ht => ?_, List.pairwise_cons.mpr h⟩
        rcases List.mem_cons.mp ht with rfl | ht
        · exact hlt
        · have := h.1 t ht
          simp only at this hlt ⊢
          omega
      · rename_i hlt
        rw [List.pairwise_cons]
        refine ⟨fun t ht => ?_, ih h.2⟩
        rcases mem_countSymbol ht with ht | ⟨k', ht⟩
        · have hne' : s.toNat ≠ v.toNat := fun hc => hne (BitVec.eq_of_toNat_eq hc)
          rw [ht]
          simp only
          omega
        · exact h.1 (t.1, k') ht

theorem lookup_cons_ne {s v : Word} (h : ¬ s = v) (k : Nat) (F : List (Word × Nat)) :
    ((v, k) :: F).lookup s = F.lookup s := by
  rw [List.lookup_cons, show (s == v) = false by simp [h]]

theorem lookup_eq_none_of_lt {v s : Word} {F : List (Word × Nat)} (h : ∀ t ∈ F, v.toNat < t.1.toNat)
    (hs : s.toNat ≤ v.toNat) : F.lookup s = none := by
  induction F with
  | nil => rfl
  | cons u F ih =>
    obtain ⟨w, k⟩ := u
    have hw := h (w, k) List.mem_cons_self
    simp only at hw
    have hne : ¬ s = w := by rintro rfl; omega
    rw [List.lookup_cons, show (s == w) = false by simp [hne]]
    exact ih fun t ht => h t (List.mem_cons_of_mem _ ht)

/-- Counting one occurrence adds one to its symbol's count and nothing else (R201). -/
theorem lookup_countSymbol {F : List (Word × Nat)} (h : TableSorted F) (a s : Word) :
    (countSymbol a F).lookup s = if s = a then some ((F.lookup a).getD 0 + 1) else F.lookup s := by
  induction F with
  | nil =>
    by_cases hs : s = a
    · subst hs; simp [countSymbol]
    · rw [countSymbol, List.lookup_cons, show (s == a) = false by simp [hs], if_neg hs]
  | cons u F ih =>
    obtain ⟨v, k⟩ := u
    unfold TableSorted at h ih
    rw [List.pairwise_cons] at h
    rw [countSymbol]
    by_cases hav : a = v
    · subst hav
      by_cases hs : s = a
      · subst hs; simp
      · rw [if_pos rfl, lookup_cons_ne hs, lookup_cons_ne hs, if_neg hs]
    · rw [if_neg hav]
      by_cases hlt : a.toNat < v.toNat
      · rw [if_pos hlt]
        have hnone : F.lookup a = none := lookup_eq_none_of_lt h.1 (Nat.le_of_lt hlt)
        by_cases hs : s = a
        · subst hs
          rw [if_pos rfl, List.lookup_cons_self, List.lookup_cons, show (s == v) = false by simp [hav], hnone]
          rfl
        · rw [if_neg hs, List.lookup_cons, show (s == a) = false by simp [hs]]
      · rw [if_neg hlt, List.lookup_cons, ih h.2]
        by_cases hsv : s = v
        · subst hsv
          have : ¬ s = a := fun hc => hav hc.symm
          simp [this]
        · by_cases hs : s = a
          · subst hs
            rw [if_pos rfl, if_pos rfl, lookup_cons_ne hsv, show (s == v) = false by simp [hsv]]
          · rw [if_neg hs, if_neg hs, lookup_cons_ne hsv, show (s == v) = false by simp [hsv]]

theorem freqTable_append (x : List Word) (a : Word) : freqTable (x ++ [a]) = countSymbol a (freqTable x) := by
  simp [freqTable]

theorem freqTable_sorted (x : List Word) : TableSorted (freqTable x) := by
  induction x using List.reverseRecOn with
  | nil => simp [freqTable, TableSorted]
  | append_singleton x a ih => rw [freqTable_append]; exact countSymbol_sorted ih

/-- The table holds the count of every symbol that occurs, and no other symbol (R201). -/
theorem lookup_freqTable (x : List Word) (s : Word) :
    (freqTable x).lookup s = if x.count s = 0 then none else some (x.count s) := by
  induction x using List.reverseRecOn with
  | nil => rfl
  | append_singleton x a ih =>
    have iha := ih
    rw [freqTable_append, lookup_countSymbol (freqTable_sorted x), List.count_append]
    by_cases hs : s = a
    · subst hs
      rw [ih]
      simp
      split <;> simp_all
    · have : List.count s [a] = 0 := by simp [Ne.symm hs]
      rw [if_neg hs, ih, this, Nat.add_zero]

theorem mem_iff_lookup {F : List (Word × Nat)} (h : TableSorted F) (s : Word) (k : Nat) :
    (s, k) ∈ F ↔ F.lookup s = some k := by
  induction F with
  | nil => simp
  | cons u F ih =>
    obtain ⟨v, j⟩ := u
    unfold TableSorted at h ih
    rw [List.pairwise_cons] at h
    rw [List.mem_cons, List.lookup_cons, ih h.2]
    by_cases hs : s = v
    · subst hs
      have hnone := lookup_eq_none_of_lt h.1 (Nat.le_refl _)
      simp [hnone, eq_comm]
    · rw [show (s == v) = false by simp [hs]]
      simp [hs]

/-- An entry of the table is a symbol that occurs, with its count (R201). -/
theorem mem_freqTable (x : List Word) (s : Word) (k : Nat) :
    (s, k) ∈ freqTable x ↔ k = x.count s ∧ 0 < k := by
  rw [mem_iff_lookup (freqTable_sorted x), lookup_freqTable]
  split <;> simp <;> omega

theorem mem_keys_freqTable (x : List Word) (s : Word) : s ∈ (freqTable x).map Prod.fst ↔ s ∈ x := by
  rw [List.mem_map]
  constructor
  · rintro ⟨⟨t, k⟩, h, rfl⟩
    obtain ⟨rfl, hk⟩ := (mem_freqTable x t k).mp h
    exact List.count_pos_iff.mp hk
  · intro h
    exact ⟨(s, x.count s), (mem_freqTable x s _).mpr ⟨rfl, List.count_pos_iff.mpr h⟩, rfl⟩

theorem keys_nodup (x : List Word) : ((freqTable x).map Prod.fst).Nodup := by
  rw [List.Nodup, List.pairwise_map]
  refine (freqTable_sorted x).imp fun {a b} h hc => ?_
  rw [hc] at h
  omega

/-- K is the number of distinct symbols (R201). -/
theorem freqTable_length (x : List Word) : (freqTable x).length = x.dedup.length := by
  have h : ((freqTable x).map Prod.fst).Perm x.dedup :=
    (List.perm_ext_iff_of_nodup (keys_nodup x) x.nodup_dedup).mpr fun s => by rw [mem_keys_freqTable, List.mem_dedup]
  simpa using h.length_eq

/-- Every count together is the length of the sequence. -/
theorem sum_countSymbol (a : Word) (F : List (Word × Nat)) :
    ((countSymbol a F).map Prod.snd).sum = (F.map Prod.snd).sum + 1 := by
  induction F with
  | nil => simp [countSymbol]
  | cons u F ih =>
    obtain ⟨v, k⟩ := u
    rw [countSymbol]
    split
    · simp; omega
    · split
      · simp; omega
      · simp [ih]; omega

theorem sum_freqTable (x : List Word) : ((freqTable x).map Prod.snd).sum = x.length := by
  induction x using List.reverseRecOn with
  | nil => rfl
  | append_singleton x a ih => rw [freqTable_append, sum_countSymbol, ih]; simp

/-! ## The tree (R200-R207) -/

/-- The symbols at the leaves, left to right. -/
def Node.syms : Node → List Word
  | .leaf s _ _ => [s]
  | .dummy _ => []
  | .node _ _ l r => l.syms ++ r.syms

theorem Node.leafCount_pos (n : Node) : 1 ≤ n.leafCount := by
  induction n with
  | leaf => simp [Node.leafCount]
  | dummy => simp [Node.leafCount]
  | node _ _ _ _ ih => simp only [Node.leafCount]; omega

theorem push_perm (n : Node) (Q : List Node) : (push n Q).Perm (n :: Q) := by
  induction Q with
  | nil => rfl
  | cons m Q ih =>
    rw [push]
    split
    · rfl
    · exact (ih.cons m).trans (List.Perm.swap n m Q)

theorem foldl_push_perm (L Q : List Node) : (L.foldl (fun Q n => push n Q) Q).Perm (L ++ Q) := by
  induction L generalizing Q with
  | nil => rfl
  | cons n L ih =>
    rw [List.foldl_cons]
    refine (ih (push n Q)).trans ?_
    refine ((push_perm n Q).append_left L).trans ?_
    exact List.perm_middle

/-- The merge loop keeps the leaves and the total frequency (R204), and ends in one root. -/
theorem mergeLoop_spec (fuel next : Nat) (Q : List Node) (hQ : Q ≠ []) (hf : Q.length ≤ fuel + 1) :
    ∃ root, mergeLoop fuel next Q = some root ∧ root.syms.Perm (Q.flatMap Node.syms) ∧
      root.freq = (Q.map Node.freq).sum ∧ root.leafCount = (Q.map Node.leafCount).sum := by
  induction fuel generalizing next Q with
  | zero =>
    match Q, hQ, hf with
    | [root], _, _ => exact ⟨root, rfl, by simp, by simp, by simp⟩
  | succ fuel ih =>
    match Q, hQ, hf with
    | [root], _, _ => exact ⟨root, rfl, by simp, by simp, by simp⟩
    | a :: b :: Q, _, hf =>
      have hp := push_perm (.node (a.freq + b.freq) next a b) Q
      obtain ⟨root, h1, h2, h3, h4⟩ := ih (next + 1) (push (.node (a.freq + b.freq) next a b) Q)
        (by intro hc; rw [hc] at hp; simpa using hp.length_eq) (by rw [hp.length_eq]; simp at hf ⊢; omega)
      refine ⟨root, h1, ?_, ?_, ?_⟩
      · refine h2.trans ((hp.flatMap_right Node.syms).trans ?_)
        simp [Node.syms]
      · rw [h3, (hp.map Node.freq).sum_eq]
        simp [Node.freq]; omega
      · rw [h4, (hp.map Node.leafCount).sum_eq]
        simp [Node.leafCount]; omega

theorem leavesFrom_syms (k : Nat) (F : List (Word × Nat)) :
    (leavesFrom k F).flatMap Node.syms = F.map Prod.fst := by
  induction F generalizing k with
  | nil => rfl
  | cons u F ih => obtain ⟨s, f⟩ := u; rw [leavesFrom, List.flatMap_cons, ih]; rfl

theorem leavesFrom_length (k : Nat) (F : List (Word × Nat)) : (leavesFrom k F).length = F.length := by
  induction F generalizing k with
  | nil => rfl
  | cons u F ih => obtain ⟨s, f⟩ := u; rw [leavesFrom, List.length_cons, ih, List.length_cons]

theorem leavesFrom_freq (k : Nat) (F : List (Word × Nat)) :
    ((leavesFrom k F).map Node.freq).sum = (F.map Prod.snd).sum := by
  induction F generalizing k with
  | nil => rfl
  | cons u F ih => obtain ⟨s, f⟩ := u; simp [leavesFrom, ih, Node.freq]

theorem leavesFrom_leafCount (k : Nat) (F : List (Word × Nat)) :
    ((leavesFrom k F).map Node.leafCount).sum = F.length := by
  induction F generalizing k with
  | nil => rfl
  | cons u F ih => obtain ⟨s, f⟩ := u; simp [leavesFrom, ih, Node.leafCount]; omega

theorem leaves_syms (F : List (Word × Nat)) : (leaves F).flatMap Node.syms = F.map Prod.fst := by
  rw [leaves, List.flatMap_append, leavesFrom_syms]
  split <;> simp [Node.syms]

theorem leaves_freq (F : List (Word × Nat)) : ((leaves F).map Node.freq).sum = (F.map Prod.snd).sum := by
  rw [leaves, List.map_append, List.sum_append, leavesFrom_freq]
  split <;> simp [Node.freq]

theorem leaves_length (F : List (Word × Nat)) :
    (leaves F).length = if F.length = 1 then 2 else F.length := by
  rw [leaves, List.length_append, leavesFrom_length]
  split <;> simp <;> omega

theorem leaves_leafCount (F : List (Word × Nat)) : ((leaves F).map Node.leafCount).sum = (leaves F).length := by
  rw [leaves_length, leaves, List.map_append, List.sum_append, leavesFrom_leafCount]
  split <;> simp [Node.leafCount] <;> omega

theorem buildTree_nil : buildTree [] = none := rfl

/-- The tree of a table that is not empty (R204-R206): its leaves are the table's symbols, its frequency the total. -/
theorem buildTree_spec (F : List (Word × Nat)) (h : F ≠ []) :
    ∃ root, buildTree F = some root ∧ root.syms.Perm (F.map Prod.fst) ∧ root.freq = (F.map Prod.snd).sum ∧
      root.leafCount = (if F.length = 1 then 2 else F.length) := by
  have hp := foldl_push_perm (leaves F) []
  rw [List.append_nil] at hp
  have hlen : 1 ≤ F.length := List.length_pos_iff.mpr h
  have hne : (leaves F).foldl (fun Q n => push n Q) [] ≠ [] := by
    intro hc
    rw [hc] at hp
    have := hp.length_eq
    rw [leaves_length] at this
    split at this <;> simp at this
    omega
  obtain ⟨root, h1, h2, h3, h4⟩ := mergeLoop_spec (leaves F).length (leaves F).length _ hne (by rw [hp.length_eq]; omega)
  refine ⟨root, h1, ?_, ?_, ?_⟩
  · refine h2.trans ((hp.flatMap_right Node.syms).trans ?_)
    rw [leaves_syms]
  · rw [h3, (hp.map Node.freq).sum_eq, leaves_freq]
  · rw [h4, (hp.map Node.leafCount).sum_eq, leaves_leafCount, leaves_length]

/-! ## The codebook (R208, R210) -/

theorem walk_syms (n : Node) (c : Bits) : (walk n c).map Entry.sym = n.syms := by
  induction n generalizing c with
  | leaf => rfl
  | dummy => rfl
  | node _ _ l r ihl ihr => rw [walk, List.map_append, ihl, ihr, Node.syms]

/-- Below a node every code begins with the node's own (R208). -/
theorem walk_code_append (n : Node) (c : Bits) (hc : c ≠ []) : ∀ e ∈ walk n c, c <+: e.code := by
  induction n generalizing c with
  | leaf s f q =>
    intro e he
    simp only [walk, hc, if_false, List.mem_singleton] at he
    subst he
    exact List.prefix_rfl
  | dummy => intro e he; simp [walk] at he
  | node f q l r ihl ihr =>
    intro e he
    rcases List.mem_append.mp he with he | he
    · exact (List.prefix_append c _).trans (ihl (c ++ [false]) (by simp) e he)
    · exact (List.prefix_append c _).trans (ihr (c ++ [true]) (by simp) e he)

theorem walk_code_pos (n : Node) (c : Bits) : ∀ e ∈ walk n c, 1 ≤ e.code.length := by
  induction n generalizing c with
  | leaf s f q =>
    intro e he
    simp only [walk, List.mem_singleton] at he
    subst he
    dsimp only
    split
    · simp
    · rename_i h; exact List.length_pos_iff.mpr h
  | dummy => intro e he; simp [walk] at he
  | node f q l r ihl ihr =>
    intro e he
    rcases List.mem_append.mp he with he | he
    · exact ihl _ e he
    · exact ihr _ e he

theorem not_prefix_of_diverge {c d e : Bits} (hd : c ++ [false] <+: d) (he : c ++ [true] <+: e) :
    ¬ d <+: e ∧ ¬ e <+: d := by
  obtain ⟨u, rfl⟩ := hd
  obtain ⟨v, rfl⟩ := he
  constructor <;> rintro ⟨w, hw⟩ <;> simp [List.append_assoc] at hw

/-- The codes of a tree are prefix-free (R210): distinct leaves lie on distinct paths. -/
theorem walk_prefixFree (n : Node) (c : Bits) : Codebook.PrefixFree (walk n c) := by
  unfold Codebook.PrefixFree
  induction n generalizing c with
  | leaf => simp [walk]
  | dummy => simp [walk]
  | node f q l r ihl ihr =>
    rw [walk, List.pairwise_append]
    refine ⟨ihl _, ihr _, fun d hd e he => ?_⟩
    exact not_prefix_of_diverge (walk_code_append l _ (by simp) d hd) (walk_code_append r _ (by simp) e he)

theorem add_perm (e : Entry) (C : Codebook) : (Codebook.add e C).Perm (e :: C) := by
  induction C with
  | nil => rfl
  | cons d C ih =>
    rw [Codebook.add]
    split
    · rfl
    · exact (ih.cons d).trans (List.Perm.swap e d C)

theorem foldl_add_perm (L C : Codebook) : (L.foldl (fun C e => Codebook.add e C) C).Perm (L ++ C) := by
  induction L generalizing C with
  | nil => rfl
  | cons e L ih =>
    rw [List.foldl_cons]
    exact (ih _).trans (((add_perm e C).append_left L).trans List.perm_middle)

/-- Symbols in strictly ascending order. -/
def SymsAscend (C : Codebook) : Prop := C.Pairwise fun d e => d.sym.toNat < e.sym.toNat

theorem add_ascend {e : Entry} {C : Codebook} (h : SymsAscend C) (he : ∀ d ∈ C, d.sym ≠ e.sym) :
    SymsAscend (Codebook.add e C) := by
  unfold SymsAscend at h ⊢
  induction C with
  | nil => simp [Codebook.add]
  | cons d C ih =>
    rw [List.pairwise_cons] at h
    rw [Codebook.add]
    have hd := he d List.mem_cons_self
    have hd' : d.sym.toNat ≠ e.sym.toNat := fun hc => hd (BitVec.eq_of_toNat_eq hc)
    split
    · rename_i hlt
      rw [List.pairwise_cons]
      refine ⟨fun q hq => ?_, List.pairwise_cons.mpr h⟩
      rcases List.mem_cons.mp hq with rfl | hq
      · exact hlt
      · have := h.1 q hq; omega
    · rw [List.pairwise_cons]
      refine ⟨fun q hq => ?_, ih h.2 fun q hq => he q (List.mem_cons_of_mem _ hq)⟩
      rcases List.mem_cons.mp ((add_perm e C).mem_iff.mp hq) with rfl | hq
      · omega
      · exact h.1 q hq

theorem foldl_add_ascend (L C : Codebook) (h : SymsAscend C) (hn : ((L ++ C).map Entry.sym).Nodup) :
    SymsAscend (L.foldl (fun C e => Codebook.add e C) C) := by
  induction L generalizing C with
  | nil => exact h
  | cons e L ih =>
    rw [List.foldl_cons]
    have hp : (L ++ Codebook.add e C).Perm (e :: (L ++ C)) := ((add_perm e C).append_left L).trans List.perm_middle
    refine ih _ (add_ascend h fun d hd hc => ?_) ?_
    · have hn' : ((e :: (L ++ C)).map Entry.sym).Nodup := by simpa using hn
      rw [List.map_cons, List.nodup_cons] at hn'
      exact hn'.1 (List.mem_map.mpr ⟨d, List.mem_append_right _ hd, hc⟩)
    · refine ((hp.map Entry.sym).nodup_iff).mpr ?_
      simpa using hn

theorem buildCodebook_perm (root : Node) : (buildCodebook root).Perm (walk root []) := by
  have := foldl_add_perm (walk root []) []
  rwa [List.append_nil] at this

/-- What the codebook of a table is (R208, R210): a code for every symbol of the table, in ascending order,
prefix-free, no code empty. -/
theorem codebookOf_spec (F : List (Word × Nat)) (h : TableSorted F) :
    SymsAscend (codebookOf F) ∧ Codebook.PrefixFree (codebookOf F) ∧ (∀ e ∈ codebookOf F, 1 ≤ e.code.length) ∧
      ((codebookOf F).map Entry.sym).Perm (F.map Prod.fst) := by
  by_cases hF : F = []
  · subst hF
    show SymsAscend [] ∧ _
    exact ⟨List.Pairwise.nil, List.Pairwise.nil, by intro e he; simp [codebookOf, buildTree_nil] at he, by rfl⟩
  · obtain ⟨root, h1, h2, -, -⟩ := buildTree_spec F hF
    have hC : codebookOf F = buildCodebook root := by simp [codebookOf, h1]
    have hp := buildCodebook_perm root
    have hs : ((buildCodebook root).map Entry.sym).Perm (F.map Prod.fst) :=
      (hp.map Entry.sym).trans (by rw [walk_syms]; exact h2)
    have hnd : (F.map Prod.fst).Nodup := by
      rw [List.Nodup, List.pairwise_map]
      exact h.imp fun {a b} hlt hc => by rw [hc] at hlt; omega
    rw [hC]
    refine ⟨?_, ?_, ?_, hs⟩
    · apply foldl_add_ascend _ _ List.Pairwise.nil
      rw [List.append_nil, walk_syms]
      exact h2.nodup_iff.mpr hnd
    · exact (hp.pairwise_iff fun {a b} h => ⟨h.2, h.1⟩).mpr (walk_prefixFree root [])
    · intro e he
      exact walk_code_pos root [] e (hp.mem_iff.mp he)

theorem codebookOf_length (F : List (Word × Nat)) (h : TableSorted F) : (codebookOf F).length = F.length := by
  have := (codebookOf_spec F h).2.2.2.length_eq
  simpa using this

theorem PrefixFree.codes_ne {C : Codebook} (h : Codebook.PrefixFree C) : C.Pairwise fun d e => d.code ≠ e.code :=
  h.imp fun {d e} hd hc => hd.1 (by rw [hc])

theorem tooLong_eq_false {C : Codebook} : C.tooLong = false ↔ ∀ e ∈ C, e.code.length ≤ maxCodeLen := by
  simp [Codebook.tooLong]

/-- A codebook that HBUILD may install is legal (R56). -/
theorem codebookOf_legal (F : List (Word × Nat)) (h : TableSorted F) (n : Nat) (hn : F.length ≤ n)
    (hl : (codebookOf F).tooLong = false) : Codebook.Legal n (codebookOf F) := by
  obtain ⟨h1, h2, h3, -⟩ := codebookOf_spec F h
  refine ⟨h1, PrefixFree.codes_ne h2, fun e he => ⟨h3 e he, tooLong_eq_false.mp hl e he⟩, ?_⟩
  rw [codebookOf_length F h]
  exact hn

/-! ## Looking up (R56, R215) -/

theorem codeOf_eq_some {C : Codebook} (h : SymsAscend C) (s : Word) (c : Bits) :
    C.codeOf s = some c ↔ ({ sym := s, code := c } : Entry) ∈ C := by
  unfold Codebook.codeOf
  constructor
  · intro hs
    obtain ⟨e, he, rfl⟩ := Option.map_eq_some_iff.mp hs
    have h1 := List.mem_of_find?_eq_some he
    have h2 := List.find?_some he
    have : e.sym = s := by simpa using h2
    subst this
    exact h1
  · intro hm
    have : ∀ (D : Codebook), SymsAscend D → ({ sym := s, code := c } : Entry) ∈ D →
        (D.find? fun e => e.sym == s) = some { sym := s, code := c } := by
      intro D hD hmem
      induction D with
      | nil => simp at hmem
      | cons d D ih =>
        unfold SymsAscend at hD
        rw [List.pairwise_cons] at hD
        rcases List.mem_cons.mp hmem with rfl | hmem
        · simp
        · have := hD.1 _ hmem
          have hne : ¬ d.sym = s := by rintro rfl; simp at this
          rw [List.find?_cons, show (d.sym == s) = false by simp [hne]]
          exact ih hD.2 hmem
    rw [this C h hm]
    rfl

theorem codeOf_isSome {C : Codebook} (s : Word) : (C.codeOf s).isSome ↔ s ∈ C.map Entry.sym := by
  simp [Codebook.codeOf, List.find?_isSome]

theorem symOf_eq_some {C : Codebook} {c : Bits} {s : Word} (h : C.symOf c = some s) :
    ({ sym := s, code := c } : Entry) ∈ C := by
  unfold Codebook.symOf at h
  obtain ⟨e, he, rfl⟩ := Option.map_eq_some_iff.mp h
  have h1 := List.mem_of_find?_eq_some he
  have h2 := List.find?_some he
  have : e.code = c := by simpa using h2
  subst this
  exact h1

theorem symOf_of_mem {C : Codebook} (h : C.Pairwise fun d e => d.code ≠ e.code) {e : Entry} (he : e ∈ C) :
    C.symOf e.code = some e.sym := by
  unfold Codebook.symOf
  have : (C.find? fun d => d.code == e.code) = some e := by
    induction C with
    | nil => simp at he
    | cons d C ih =>
      rw [List.pairwise_cons] at h
      rcases List.mem_cons.mp he with rfl | he
      · simp
      · have hne := h.1 e he
        rw [List.find?_cons, show (d.code == e.code) = false by simp [hne]]
        exact ih h.2 he
  rw [this]
  rfl

/-- In a prefix-free codebook no proper prefix of a code is a code (R210, R215). -/
theorem symOf_proper_prefix {C : Codebook} (h : Codebook.PrefixFree C) {e : Entry} (he : e ∈ C) {u v : Bits}
    (hv : v ≠ []) (hc : e.code = u ++ v) : C.symOf u = none := by
  by_contra hne
  obtain ⟨s, hs⟩ := Option.ne_none_iff_exists'.mp hne
  have hd := symOf_eq_some hs
  have hneq : ({ sym := s, code := u } : Entry) ≠ e := by
    intro hc2
    rw [← hc2] at hc
    simp only at hc
    exact hv (by simpa using hc)
  have hpair : ∀ d ∈ C, ∀ f ∈ C, d ≠ f → ¬ d.code <+: f.code ∧ ¬ f.code <+: d.code := by
    intro d hd f hf hdf
    obtain ⟨i, hi, rfl⟩ := List.mem_iff_getElem.mp hd
    obtain ⟨j, hj, rfl⟩ := List.mem_iff_getElem.mp hf
    have hp := List.pairwise_iff_getElem.mp h
    rcases Nat.lt_trichotomy i j with hij | rfl | hij
    · exact hp i j hi hj hij
    · exact absurd rfl hdf
    · exact (hp j i hj hi hij).symm
  exact (hpair _ hd _ he hneq).1 ⟨v, hc.symm⟩

/-! ## Encoding and decoding (R213, R215) -/

/-- Decoding one code puts out its symbol (R215). -/
theorem decodeBits_code {C : Codebook} (h : Codebook.PrefixFree C) {e : Entry} (he : e ∈ C) (cap : Nat)
    (full tail : Raise) (k : Nat) (hk : 4 * (k + 1) ≤ cap) (rest : Bits) (u v : Bits) (hv : v ≠ [])
    (hc : e.code = u ++ v) :
    decodeBits C cap full tail (v ++ rest) u k =
      (decodeBits C cap full tail rest [] (k + 1)) >>= fun l => .ok (e.sym :: l) := by
  induction v generalizing u with
  | nil => exact absurd rfl hv
  | cons b v ih =>
    rw [List.cons_append, decodeBits]
    by_cases hvn : v = []
    · subst hvn
      rw [← hc, symOf_of_mem (PrefixFree.codes_ne h) he]
      have : ¬ cap < 4 * (k + 1) := by omega
      simp only [this, if_false, List.nil_append]
    · have hnone : C.symOf (u ++ [b]) = none := symOf_proper_prefix h he hvn (by rw [hc]; simp)
      simp only [hnone]
      exact ih (u ++ [b]) hvn (by rw [hc]; simp)

/-- Decoding what was encoded gives the symbols back (R223), with room for them. -/
theorem decodeBits_encodeBits {C : Codebook} (ha : SymsAscend C) (h : Codebook.PrefixFree C)
    (hpos : ∀ e ∈ C, 1 ≤ e.code.length) (cap : Nat) (full tail : Raise) (x : List Word) (i k : Nat) (s : Bits)
    (hs : encodeBits C i x = .ok s) (hk : 4 * (k + x.length) ≤ cap) :
    decodeBits C cap full tail s [] k = .ok x := by
  induction x generalizing i k s with
  | nil =>
    simp only [encodeBits, Except.ok.injEq] at hs
    subst hs
    simp [decodeBits]
  | cons a x ih =>
    rw [encodeBits] at hs
    cases hcode : C.codeOf a with
    | none => simp [hcode] at hs
    | some code =>
      simp only [hcode] at hs
      obtain ⟨rest, hrest, hs⟩ := bind_eq_ok.mp hs
      simp only [Except.ok.injEq] at hs
      subst hs
      have hm := (codeOf_eq_some ha a code).mp hcode
      have hlen := hpos _ hm
      simp only at hlen
      rw [List.length_cons] at hk
      rw [decodeBits_code h hm cap full tail k (by omega) rest [] code (by rintro rfl; simp at hlen) rfl,
        ih (i + 1) (k + 1) rest hrest (by omega)]
      rfl

/-- Encoding succeeds when every symbol has a code (R213, R339). -/
theorem encodeBits_of_mem {C : Codebook} (x : List Word) (i : Nat) (h : ∀ s ∈ x, (C.codeOf s).isSome) :
    ∃ s, encodeBits C i x = .ok s := by
  induction x generalizing i with
  | nil => exact ⟨[], rfl⟩
  | cons a x ih =>
    obtain ⟨code, hcode⟩ := Option.isSome_iff_exists.mp (h a List.mem_cons_self)
    obtain ⟨s, hs⟩ := ih (i + 1) fun q hq => h q (List.mem_cons_of_mem _ hq)
    exact ⟨code ++ s, by simp [encodeBits, hcode, hs]⟩

/-- The codebook of a sequence's own table has a code for each of its symbols (R339). -/
theorem codeOf_codebookOf (x : List Word) : ∀ s ∈ x, ((codebookOf (freqTable x)).codeOf s).isSome := by
  intro s hs
  rw [codeOf_isSome, (codebookOf_spec _ (freqTable_sorted x)).2.2.2.mem_iff, mem_keys_freqTable]
  exact hs

/-- Symbols put out by decoding never exceed the capacity (R119, R216). -/
theorem decodeBits_length {C : Codebook} {cap : Nat} {full tail : Raise} {s cand : Bits} {k : Nat} {l : List Word}
    (h : decodeBits C cap full tail s cand k = .ok l) : 4 * (k + l.length) ≤ cap ∨ l = [] := by
  induction s generalizing cand k l with
  | nil =>
    rw [decodeBits] at h
    split at h
    · right; simpa using h.symm
    · simp at h
  | cons b s ih =>
    rw [decodeBits] at h
    cases hsym : C.symOf (cand ++ [b]) with
    | none => simp only [hsym] at h; exact ih h
    | some sym =>
      simp only [hsym] at h
      split at h
      · simp at h
      · obtain ⟨rest, hrest, h⟩ := bind_eq_ok.mp h
        simp only [Except.ok.injEq] at h
        subst h
        left
        rcases ih hrest with h1 | rfl
        · simp only [List.length_cons]; omega
        · simp only [List.length_singleton]; omega

/-! ## The wire form (R211, R217) -/

theorem serEntry_length (e : Entry) :
    (serEntry e).length = varintLen e.sym.toNat + varintLen e.code.length + ceil8 e.code.length := by
  simp [serEntry, varintBytes_length, Nat.add_assoc]

/-- The size of a serialized codebook, from the count, the symbols and the lengths (R211, R219). -/
theorem serCB_length (C : Codebook) : (serCB C).length =
    varintLen C.length + (C.map fun e => varintLen e.sym.toNat + varintLen e.code.length + ceil8 e.code.length).sum := by
  have : ∀ D : Codebook, (D.flatMap serEntry).length =
      (D.map fun e => varintLen e.sym.toNat + varintLen e.code.length + ceil8 e.code.length).sum := by
    intro D
    induction D with
    | nil => rfl
    | cons e D ih => rw [List.flatMap_cons, List.length_append, ih, serEntry_length]; simp
  rw [serCB, List.length_append, varintBytes_length, this]

theorem add_last {e : Entry} {C : Codebook} (h : ∀ d ∈ C, d.sym.toNat < e.sym.toNat) : Codebook.add e C = C ++ [e] := by
  induction C with
  | nil => rfl
  | cons d C ih =>
    have hd := h d List.mem_cons_self
    rw [Codebook.add, if_neg (by omega), ih fun q hq => h q (List.mem_cons_of_mem _ hq)]
    rfl

/-- Parsing one serialized entry whose symbol and code are new (R217). -/
theorem parseEntry_serEntry (A B : List Byte) (e : Entry) (C : Codebook) (h1 : 1 ≤ e.code.length)
    (h2 : e.code.length ≤ maxCodeLen) (hs : ∀ d ∈ C, d.sym ≠ e.sym) (hc : ∀ d ∈ C, d.code ≠ e.code) :
    parseEntry (A ++ serEntry e ++ B) A.length C = .ok (Codebook.add e C, A.length + (serEntry e).length) := by
  have hsym := e.sym.isLt
  have hlen : e.code.length < 2 ^ 32 := by unfold maxCodeLen at h2; omega
  have e1 : A ++ serEntry e ++ B =
      A ++ varintBytes e.sym.toNat ++ (varintBytes e.code.length ++ packMSB e.code ++ B) := by simp [serEntry]
  have e2 : A ++ serEntry e ++ B =
      (A ++ varintBytes e.sym.toNat) ++ varintBytes e.code.length ++ (packMSB e.code ++ B) := by simp [serEntry]
  have r1 : readVarInt (A ++ serEntry e ++ B) A.length = .ok (e.sym.toNat, A.length + varintLen e.sym.toNat) := by
    rw [e1]; exact readVarInt_varintBytes A _ _ hsym
  have r2 : readVarInt (A ++ serEntry e ++ B) (A.length + varintLen e.sym.toNat) =
      .ok (e.code.length, A.length + varintLen e.sym.toNat + varintLen e.code.length) := by
    have := readVarInt_varintBytes (A ++ varintBytes e.sym.toNat) (packMSB e.code ++ B) e.code.length hlen
    rw [List.length_append, varintBytes_length] at this
    rw [e2]; exact this
  have e3 : ((A ++ serEntry e ++ B).drop (A.length + varintLen e.sym.toNat + varintLen e.code.length)).take
      (ceil8 e.code.length) = packMSB e.code := by
    have : A ++ serEntry e ++ B =
        (A ++ varintBytes e.sym.toNat ++ varintBytes e.code.length) ++ (packMSB e.code ++ B) := by simp [serEntry]
    rw [this, List.drop_left' (by simp [varintBytes_length]; omega), List.take_left' (by simp)]
  have hl : (A ++ serEntry e ++ B).length = A.length + (serEntry e).length + B.length := by
    simp [Nat.add_assoc]
  have hso := serEntry_length e
  have hnc : (C.codeOf e.sym).isSome = false := by
    rw [Bool.eq_false_iff]
    intro hcon
    have := (codeOf_isSome e.sym).mp hcon
    obtain ⟨d, hd, hde⟩ := List.mem_map.mp this
    exact hs d hd hde
  have hns : (C.symOf e.code).isSome = false := by
    rw [Bool.eq_false_iff]
    intro hcon
    obtain ⟨t, ht⟩ := Option.isSome_iff_exists.mp hcon
    exact hc _ (symOf_eq_some ht) rfl
  unfold parseEntry
  rw [r1]
  simp only [ok_bind]
  rw [r2]
  simp only [ok_bind]
  rw [if_neg (by omega), if_neg (by omega), if_neg (by omega), e3, unpackMSB_packMSB]
  have hw : BitVec.ofNat 32 e.sym.toNat = e.sym := by simp
  rw [hw, hnc, hns]
  simp only [Bool.or_self, Bool.false_eq_true, if_false]
  rw [hso]
  congr 2
  omega

/-- Parsing serialized entries with distinct symbols and codes, in any order, adds them one by one (R217). -/
theorem parseEntries_serEntries (A B : List Byte) (C D : Codebook)
    (hs : (C ++ D).Pairwise fun d e => d.sym ≠ e.sym) (hc : (C ++ D).Pairwise fun d e => d.code ≠ e.code)
    (hl : ∀ e ∈ D, 1 ≤ e.code.length ∧ e.code.length ≤ maxCodeLen) :
    parseEntries (A ++ D.flatMap serEntry ++ B) D.length A.length C =
      .ok (D.foldl (fun C e => Codebook.add e C) C, A.length + (D.flatMap serEntry).length) := by
  induction D generalizing A C with
  | nil => simp [parseEntries]
  | cons e D ih =>
    have hel := hl e (by simp)
    have hs' : ∀ d ∈ C, d.sym ≠ e.sym := fun d hd => (List.pairwise_append.mp hs).2.2 d hd e List.mem_cons_self
    have hc' : ∀ d ∈ C, d.code ≠ e.code := fun d hd => (List.pairwise_append.mp hc).2.2 d hd e List.mem_cons_self
    have e1 : A ++ (e :: D).flatMap serEntry ++ B = A ++ serEntry e ++ (D.flatMap serEntry ++ B) := by simp
    have e2 : A ++ serEntry e ++ (D.flatMap serEntry ++ B) = (A ++ serEntry e) ++ D.flatMap serEntry ++ B := by simp
    rw [List.length_cons, parseEntries, e1, parseEntry_serEntry A _ e C hel.1 hel.2 hs' hc']
    simp only [ok_bind]
    rw [e2]
    have hp : (Codebook.add e C ++ D).Perm (C ++ e :: D) :=
      ((add_perm e C).append_right D).trans List.perm_middle.symm
    have := ih (A ++ serEntry e) (Codebook.add e C) ((hp.pairwise_iff fun {a b} h => Ne.symm h).mpr hs)
      ((hp.pairwise_iff fun {a b} h => Ne.symm h).mpr hc) fun q hq => hl q (List.mem_cons_of_mem _ hq)
    rw [List.length_append] at this
    rw [this]
    simp [Nat.add_assoc]

/-- Adding entries that come in ascending order appends them. -/
theorem foldl_add_ascending (C D : Codebook) (h : SymsAscend (C ++ D)) :
    D.foldl (fun C e => Codebook.add e C) C = C ++ D := by
  induction D generalizing C with
  | nil => simp
  | cons e D ih =>
    have hs : ∀ d ∈ C, d.sym.toNat < e.sym.toNat := fun d hd =>
      (List.pairwise_append.mp h).2.2 d hd e List.mem_cons_self
    rw [List.foldl_cons, add_last hs, ih (C ++ [e]) (by simpa using h)]
    simp

/-- Parsing a serialized legal codebook at a place of a buffer gives it back (R217, R223). -/
theorem parseCB_serCB (A B : List Byte) (C : Codebook) (n : Nat) (h : Codebook.Legal n C) (hC : C.length < 2 ^ 32) :
    parseCB n (A ++ serCB C ++ B) A.length = .ok (C, A.length + (serCB C).length) := by
  have e1 : A ++ serCB C ++ B = A ++ varintBytes C.length ++ (C.flatMap serEntry ++ B) := by simp [serCB]
  have e2 : A ++ serCB C ++ B = (A ++ varintBytes C.length) ++ C.flatMap serEntry ++ B := by simp [serCB]
  have r1 : readVarInt (A ++ serCB C ++ B) A.length = .ok (C.length, A.length + varintLen C.length) := by
    rw [e1]; exact readVarInt_varintBytes A _ _ hC
  have hs : C.Pairwise fun (d e : Entry) => d.sym ≠ e.sym := h.1.imp fun {d e} hlt he => by rw [he] at hlt; omega
  have r2 := parseEntries_serEntries (A ++ varintBytes C.length) B [] C hs h.2.1 h.2.2.1
  rw [foldl_add_ascending [] C h.1, List.nil_append, List.length_append, varintBytes_length] at r2
  unfold parseCB
  rw [r1]
  simp only [ok_bind]
  have hn : ¬ n < C.length := by have := h.2.2.2; omega
  rw [if_neg hn, e2, r2]
  simp [serCB, varintBytes_length, Nat.add_assoc]

/-! ## What the parser accepts is legal (R56, R217) -/

theorem parseEntry_legal {B : List Byte} {e : Nat} {C C' : Codebook} {p : Nat}
    (h : parseEntry B e C = .ok (C', p)) (n : Nat) (hC : Codebook.Legal n C) :
    Codebook.Legal (n + 1) C' ∧ C'.length = C.length + 1 := by
  unfold parseEntry at h
  obtain ⟨⟨sym, p1⟩, -, h⟩ := bind_eq_ok.mp h
  obtain ⟨⟨len, p2⟩, -, h⟩ := bind_eq_ok.mp h
  simp only at h
  split at h
  · simp at h
  split at h
  · simp at h
  split at h
  · simp at h
  rename_i hl0 hl1 hl2
  split at h
  · simp at h
  rename_i hdup
  simp only [Except.ok.injEq, Prod.mk.injEq] at h
  obtain ⟨rfl, -⟩ := h
  simp only [Bool.or_eq_true, not_or] at hdup
  set code := unpackMSB ((B.drop p2).take (ceil8 len)) (len % 8) with hcode
  obtain ⟨hs, hc, hl, hn⟩ := hC
  have hp := add_perm { sym := BitVec.ofNat 32 sym, code := code } C
  have hlen : code.length = len := by
    have h8 := ceil8_le len
    have h9 := ceil8_lt len
    have : ((B.drop p2).take (ceil8 len)).length = ceil8 len := by simp; omega
    rw [hcode, unpackMSB_length, this, validBits_ceil8]
    omega
  refine ⟨⟨?_, ?_, ?_, ?_⟩, ?_⟩
  · refine add_ascend hs fun d hd hde => hdup.1 ?_
    rw [codeOf_isSome]
    exact List.mem_map.mpr ⟨d, hd, hde⟩
  · refine (hp.pairwise_iff fun {a b} hab => Ne.symm hab).mpr ?_
    rw [List.pairwise_cons]
    refine ⟨fun d hd hde => hdup.2 ?_, hc⟩
    simp only at hde
    rw [hde, symOf_of_mem hc hd]
    rfl
  · intro d hd
    rcases List.mem_cons.mp (hp.mem_iff.mp hd) with rfl | hd
    · simp only [hlen]; omega
    · exact hl d hd
  · rw [hp.length_eq, List.length_cons]; omega
  · rw [hp.length_eq, List.length_cons]

theorem parseEntries_legal {B : List Byte} {k p : Nat} {C C' : Codebook} {q : Nat}
    (h : parseEntries B k p C = .ok (C', q)) (n : Nat) (hC : Codebook.Legal n C) :
    Codebook.Legal (n + k) C' ∧ C'.length = C.length + k := by
  induction k generalizing p C n with
  | zero =>
    simp only [parseEntries, Except.ok.injEq, Prod.mk.injEq] at h
    obtain ⟨rfl, -⟩ := h
    exact ⟨hC, rfl⟩
  | succ k ih =>
    rw [parseEntries] at h
    obtain ⟨⟨C1, p1⟩, h1, h⟩ := bind_eq_ok.mp h
    obtain ⟨hl, hlen⟩ := parseEntry_legal h1 n hC
    obtain ⟨hl2, hlen2⟩ := ih h (n + 1) hl
    exact ⟨by rw [show n + (k + 1) = n + 1 + k by omega]; exact hl2, by omega⟩

/-- A codebook that HDESER may install is legal (R56). -/
theorem parseCB_legal {B : List Byte} {p0 n p : Nat} {C : Codebook} (h : parseCB n B p0 = .ok (C, p)) :
    Codebook.Legal n C := by
  unfold parseCB at h
  obtain ⟨⟨K, p1⟩, -, h⟩ := bind_eq_ok.mp h
  simp only at h
  split at h
  · simp at h
  · rename_i hK
    have h0 : Codebook.Legal 0 [] := ⟨List.Pairwise.nil, List.Pairwise.nil, by simp, by simp⟩
    obtain ⟨⟨h1, h2, h3, -⟩, h5⟩ := parseEntries_legal h 0 h0
    refine ⟨h1, h2, h3, ?_⟩
    simp only [List.length_nil] at h5
    omega

end Sys2Proof.Machine
end

