-- ==== Sys2Proof/Laws/Commands.lean ====
section
/-! SUPPORT. The bridge between the words of Safety.lean and the shared run of a command: an accepted command whose
pseudocode succeeds, or raises; and the word forms of a source (30_encoding R121). -/

namespace Sys2Proof.Machine

open Sys2Proof.Config

/-! ## Acceptance -/

theorem leaves_eq_false (a n size : Nat) : Region.leaves ⟨a, n⟩ size = false ↔ a + n ≤ size := by
  simp [Region.leaves]

theorem overlaps_eq_false (a n b m : Nat) : Region.overlaps ⟨a, n⟩ ⟨b, m⟩ = false ↔ Apart a n b m := by
  simp only [Region.overlaps, Apart, Bool.and_eq_false_iff, decide_eq_false_iff_not]
  omega

/-- A command whose conditions hold passes every acceptance check (R115-R118). -/
theorem acceptanceError_of_accepts {s : State} {i : Instr} (h : s.Accepts i) :
    acceptanceError (shapeOf i) s.params s.operands s.cbValid = none := by
  rw [acceptanceError_eq_none]
  rcases i with _ | p | p | _ | _ | w | w | _ | _ | _ | _ | _ | _ | _ | _
  all_goals
    simp only [State.Accepts, State.SourceFits, State.DestinationFits, State.ScratchFits, State.SourceAligned,
      State.SourceDestinationApart, State.SourceScratchApart, State.DestinationScratchApart] at h
  all_goals try cases p
  all_goals try cases w
  all_goals
    simp [acceptanceChecks, shapeOf, Shape.srcIsWords, Shape.regions, LockedRegs.srcRegion, LockedRegs.dstRegion,
      LockedRegs.scratchRegion, leaves_eq_false, anyOverlap, overlaps_eq_false, State.cbValid,
      Option.isSome_iff_ne_none] at *
  all_goals first | assumption | tauto

/-! ## The two ends of an accepted command -/

theorem bodyOf_inputs_src {s : State} {i : Instr} (h : i.usesSource = true) : (s.inputs (shapeOf i)).src = s.source := by
  cases i <;> simp [Instr.usesSource] at h <;> rfl

theorem beginExecution_cb (s : State) (i : Instr) :
    (s.beginExecution (shapeOf i)).cb = if i.clearsCbValid then none else s.cb := by
  cases i <;> rfl

/-- Where the pseudocode of an accepted command succeeds, the command ends in its success (R142). -/
theorem exec_of_ok {s : State} {i : Instr} {r : Result} (h : s.Accepts i)
    (hb : bodyOf i (s.inputs (shapeOf i)) = .ok r) :
    exec i s = .next ((s.beginExecution (shapeOf i)).succeed r) := by
  rw [exec_eq_runCommand, runCommand_of_ok (acceptanceError_of_accepts h) hb]

/-- The success of a command that clears no codebook and leaves the scratch alone. -/
theorem exec_of_ok_plain {s : State} {i : Instr} {out : List Byte} {r0 r1 r2 : Nat} (h : s.Accepts i)
    (hc : i.clearsCbValid = false)
    (hb : bodyOf i (s.inputs (shapeOf i)) =
      .ok { out := out, res0 := BitVec.ofNat 32 r0, res1 := BitVec.ofNat 32 r1, res2 := BitVec.ofNat 32 r2 }) :
    exec i s = .next (s.completed out r0 r1 r2) := by
  rw [exec_of_ok h hb]
  cases i <;> simp [Instr.clearsCbValid] at hc <;> rfl

/-- The success of a command that installs a codebook. -/
theorem exec_of_ok_installs {s : State} {i : Instr} {C : Codebook} {r0 r1 r2 : Nat} (h : s.Accepts i)
    (hb : bodyOf i (s.inputs (shapeOf i)) =
      .ok { installs := some C, res0 := BitVec.ofNat 32 r0, res1 := BitVec.ofNat 32 r1, res2 := BitVec.ofNat 32 r2 }) :
    exec i s = .next { s.completed [] r0 r1 r2 with cb := some C } := by
  rw [exec_of_ok h hb]
  have : ∀ sh, (s.beginExecution sh).lmem = s.lmem ∧ (s.beginExecution sh).operands = s.operands := by
    intro sh; unfold State.beginExecution State.clearCb; split <;> exact ⟨rfl, rfl⟩
  cases i <;> rfl

theorem mem_written {s : State} {i : Instr} {r : Region} (h : r ∈ (shapeOf i).written s.operands) (a : Nat)
    (ha : ¬ s.MayWrite i a) : a < r.addr ∨ r.addr + r.len ≤ a := by
  have hr : (i.usesDestination = true ∧ r = s.operands.dstRegion) ∨ (i.usesScratch = true ∧ r = s.operands.scratchRegion) := by
    cases i <;> simp [shapeOf, Shape.written, Instr.usesDestination, Instr.usesScratch] at h ⊢ <;> tauto
  unfold State.MayWrite State.InDestination State.InScratch at ha
  rcases hr with ⟨h1, rfl⟩ | ⟨h1, rfl⟩
  · simp only [h1, true_and, LockedRegs.dstRegion] at *; omega
  · simp only [h1, true_and, LockedRegs.scratchRegion] at *; omega

/-- Where the pseudocode of an accepted command raises, the command ends in that error's completion (R322, R326). -/
theorem exec_of_error {s : State} {i : Instr} {e : Raise} (h : s.Accepts i)
    (hb : bodyOf i (s.inputs (shapeOf i)) = .error e) : ∃ t, exec i s = .next t ∧ s.Failed i e t := by
  rw [exec_eq_runCommand, runCommand_of_error (acceptanceError_of_accepts h) hb]
  refine ⟨_, rfl, rfl, rfl, rfl, rfl, rfl, rfl, ⟨rfl, rfl⟩, ?_, ?_, ?_⟩
  · exact beginExecution_cb s i
  · unfold State.SameRegisters State.beginExecution State.clearCb
    split <;> simp
  · intro a ha
    have hl : (s.beginExecution (shapeOf i)).lmem = s.lmem := by
      unfold State.beginExecution State.clearCb; split <;> rfl
    rw [State.raise_lmem, readByte_scramble_outside _ _ _ fun r hr => mem_written hr a ha, hl]

/-! ## The forms of a source (R121) -/

theorem source_length (s : State) : s.source.length = s.operands.srcLen.toNat := readBytes_length _ _ _

theorem readBytes_add (m : Memory) (a n k : Nat) : m.readBytes a (n + k) = m.readBytes a n ++ m.readBytes (a + n) k := by
  simp [Memory.readBytes, List.range_add, Nat.add_assoc]

/-- A byte sequence of whole words, read as words, is the sequence of big-endian words at every fourth offset. -/
theorem wordsOf_readBytes (m : Memory) (a k : Nat) :
    wordsOf (m.readBytes a (4 * k)) = (List.range k).map fun i => m.readWord (a + 4 * i) := by
  induction k generalizing a with
  | zero => rfl
  | succ k ih =>
    rw [show 4 * (k + 1) = 4 + 4 * k by omega, readBytes_add]
    have h4 : m.readBytes a 4 = [m.readByte a, m.readByte (a + 1), m.readByte (a + 2), m.readByte (a + 3)] := rfl
    rw [List.range_succ_eq_map, List.map_cons, List.map_map, h4]
    have hf : ∀ rest, wordsOf ([m.readByte a, m.readByte (a + 1), m.readByte (a + 2), m.readByte (a + 3)] ++ rest) =
        m.readWord a :: wordsOf rest := fun rest => rfl
    rw [hf, ih]
    simp only [Nat.mul_zero, Nat.add_zero, List.cons.injEq, true_and]
    apply List.map_congr_left
    intro i _
    simp only [Function.comp_apply]
    congr 1
    omega

theorem wordsOf_source {s : State} (h : s.operands.srcLen.toNat % 4 = 0) : wordsOf s.source = s.wordSource := by
  have : s.operands.srcLen.toNat = 4 * (s.operands.srcLen.toNat / 4) := by omega
  unfold State.source State.wordSource
  rw [this, wordsOf_readBytes]
  congr 2
  omega

/-- The symbols HBUILD and HENC see (R121). -/
theorem inputs_symbols {s : State} {i : Instr} {w : Bool} (hi : i.usesSource = true)
    (h : w = true → s.operands.srcLen.toNat % 4 = 0) : (s.inputs (shapeOf i)).symbols w = s.symbols w := by
  unfold Inputs.symbols State.symbols
  rw [bodyOf_inputs_src hi]
  cases w with
  | false => rfl
  | true => simp only [if_true]; exact wordsOf_source (h rfl)

/-- The tokens LZDEC sees (R121, R259). -/
theorem tokensOf_source {s : State} (h : s.operands.srcLen.toNat % 12 = 0) :
    tokensOf (wordsOf s.source) = s.tokenSource := by
  rw [wordsOf_source (by omega)]
  unfold State.wordSource State.tokenSource
  obtain ⟨k, hk⟩ : ∃ k, s.operands.srcLen.toNat = 12 * k := ⟨_, (Nat.mul_div_cancel' (Nat.dvd_of_mod_eq_zero h)).symm⟩
  rw [hk, show 12 * k / 4 = 3 * k by omega, show 12 * k / 12 = k by omega]
  have key : ∀ (a k : Nat), tokensOf ((List.range (3 * k)).map fun i => s.lmem.readWord (a + 4 * i)) =
      (List.range k).map fun t => ({ off := (s.lmem.readWord (a + 12 * t)).toNat
                                     len := (s.lmem.readWord (a + 12 * t + 4)).toNat
                                     next := (s.lmem.readWord (a + 12 * t + 8)).toNat } : Token) := by
    intro a k
    induction k generalizing a with
    | zero => rfl
    | succ k ih =>
      rw [show 3 * (k + 1) = 3 + 3 * k by omega, List.range_add, List.map_append, List.map_map]
      have hf : ∀ rest, tokensOf (((List.range 3).map fun i => s.lmem.readWord (a + 4 * i)) ++ rest) =
          ⟨(s.lmem.readWord (a + 12 * 0)).toNat, (s.lmem.readWord (a + 12 * 0 + 4)).toNat,
            (s.lmem.readWord (a + 12 * 0 + 8)).toNat⟩ :: tokensOf rest := fun rest => rfl
      rw [hf, List.range_succ_eq_map, List.map_cons, List.map_map]
      congr 1
      have hg : ((fun i => s.lmem.readWord (a + 4 * i)) ∘ fun x => 3 + x) = fun i => s.lmem.readWord (a + 12 + 4 * i) := by
        funext i; simp only [Function.comp_apply]; congr 1; omega
      rw [hg, ih]
      apply List.map_congr_left
      intro t _
      simp only [Function.comp_apply]
      rw [show a + 12 + 12 * t = a + 12 * t.succ by omega]
  exact key _ k

/-! ## Successful pseudocode -/

/-- What every successful pseudocode promises: its output fits the destination and there is none without a destination
(R119, R83), the scratch is used only where there is one, and a codebook it installs is legal (R56). -/
theorem bodyOf_ok {i : Instr} {x : Inputs} {r : Result} (h : bodyOf i x = .ok r) :
    r.out.length ≤ x.ops.dstCap.toNat ∧ ((shapeOf i).dst.isSome = false → r.out = []) ∧ (r.scratchUsed = true → (shapeOf i).scratch = true) ∧
    (∀ C, r.installs = some C → C.Legal x.params.maxSymbols) := by
  cases i with
  | nop =>
    simp [bodyOf, nopBody] at h
    subst h
    simp
  | bpack p =>
    simp [bodyOf, bpackBody] at h
    obtain ⟨o, h1, h⟩ := bind_eq_ok.mp h
    simp at h
    subst h
    have := emit_eq_ok.mp h1
    simp [shapeOf]
    rw [this.1]
    exact this.2
  | bunpack p =>
    simp [bodyOf, bunpackBody] at h
    obtain ⟨s, h0, h⟩ := bind_eq_ok.mp h
    obtain ⟨o, h1, h⟩ := bind_eq_ok.mp h
    simp at h
    subst h
    have := emit_eq_ok.mp h1
    simp [shapeOf]
    rw [this.1]
    exact this.2
  | vwrite =>
    simp [bodyOf, vwriteBody] at h
    obtain ⟨o, h1, h⟩ := bind_eq_ok.mp h
    simp at h
    subst h
    have := emit_eq_ok.mp h1
    simp [shapeOf]
    rw [this.1]
    exact this.2
  | vread =>
    simp [bodyOf, vreadBody] at h
    obtain ⟨o, h1, h⟩ := bind_eq_ok.mp h
    simp at h
    subst h
    simp [shapeOf]
  | hbuild w =>
    simp only [bodyOf, hbuildBody] at h
    split at h
    · simp at h
    · split at h
      · simp at h
      · simp at h
        subst h
        simp [shapeOf]
        apply codebookOf_legal _ (freqTable_sorted _) <;> simp_all
  | henc w =>
    simp [bodyOf, hencBody] at h
    obtain ⟨s, h0, h⟩ := bind_eq_ok.mp h
    obtain ⟨o, h1, h⟩ := bind_eq_ok.mp h
    simp at h
    subst h
    have := emit_eq_ok.mp h1
    simp [shapeOf]
    rw [this.1]
    exact this.2
  | hdec =>
    simp [bodyOf, hdecBody] at h
    obtain ⟨s, h0, h⟩ := bind_eq_ok.mp h
    obtain ⟨s2, h02, h⟩ := bind_eq_ok.mp h
    obtain ⟨o, h1, h⟩ := bind_eq_ok.mp h
    simp at h
    subst h
    have := emit_eq_ok.mp h1
    simp [shapeOf]
    rw [this.1]
    exact this.2
  | hser =>
    simp [bodyOf, hserBody] at h
    obtain ⟨o, h1, h⟩ := bind_eq_ok.mp h
    simp at h
    subst h
    have := emit_eq_ok.mp h1
    simp [shapeOf]
    rw [this.1]
    exact this.2
  | hdeser =>
    simp [bodyOf, hdeserBody] at h
    obtain ⟨⟨C, p⟩, h1, h⟩ := bind_eq_ok.mp h
    simp at h
    subst h
    simp [shapeOf]
    exact parseCB_legal h1
  | hcode =>
    simp only [bodyOf, hcodeBody] at h
    split at h
    · simp at h
    · simp at h
      subst h
      simp [shapeOf]
  | lzcomp =>
    simp [bodyOf, lzcompBody] at h
    obtain ⟨o, h1, h⟩ := bind_eq_ok.mp h
    simp at h
    subst h
    have := emit_eq_ok.mp h1
    simp [shapeOf]
    rw [this.1]
    exact this.2
  | lzdec =>
    simp [bodyOf, lzdecBody] at h
    obtain ⟨s, h0, h⟩ := bind_eq_ok.mp h
    obtain ⟨o, h1, h⟩ := bind_eq_ok.mp h
    simp at h
    subst h
    have := emit_eq_ok.mp h1
    simp [shapeOf]
    rw [this.1]
    exact this.2
  | ccomp =>
    simp only [bodyOf, ccompBody] at h
    split at h
    all_goals
      obtain ⟨s, h0, h⟩ := bind_eq_ok.mp h
      obtain ⟨o, h1, h⟩ := bind_eq_ok.mp h
      simp at h
      subst h
      have := emit_eq_ok.mp h1
      simp [shapeOf]
      rw [this.1]
      exact this.2
  | cdec =>
    simp only [bodyOf, cdecBody] at h
    obtain ⟨s, h0, h⟩ := bind_eq_ok.mp h
    split at h
    · obtain ⟨o, h1, h⟩ := bind_eq_ok.mp h
      simp at h
      subst h
      have := emit_eq_ok.mp h1
      simp [shapeOf]
      rw [this.1]
      exact this.2
    · obtain ⟨o, h1, h⟩ := bind_eq_ok.mp h
      obtain ⟨o2, h2, h⟩ := bind_eq_ok.mp h
      simp at h
      subst h
      have := emit_eq_ok.mp h2
      simp [shapeOf]
      rw [this.1]
      exact this.2

end Sys2Proof.Machine
end

