-- ==== Sys2Proof/Laws/Lz77.lean ====
section
/-! SUPPORT. The laws of the matcher and the reconstructor (44_lz77): what a match is, what the best match is, one token
of the scan, the copy loop, and the replay of a scan. -/

namespace Sys2Proof.Machine

open Sys2Proof.Config

/-! ## Runs and matches (R251) -/

theorem runLength_succ_cons (l : Nat) (a b : Byte) (as bs : List Byte) :
    runLength (l + 1) (a :: as) (b :: bs) = if a = b then runLength l as bs + 1 else 0 := rfl

theorem runLength_zero (as bs : List Byte) : runLength 0 as bs = 0 := by
  unfold runLength; rfl

theorem runLength_nil_left (l : Nat) (bs : List Byte) : runLength l [] bs = 0 := by
  cases l <;> rfl

theorem runLength_nil_right (l : Nat) (as : List Byte) : runLength l as [] = 0 := by
  cases l <;> cases as <;> rfl

/-- A run is no longer than its limit and either sequence. -/
theorem runLength_le (l : Nat) (as bs : List Byte) :
    runLength l as bs ≤ l ∧ runLength l as bs ≤ as.length ∧ runLength l as bs ≤ bs.length := by
  induction l generalizing as bs with
  | zero => simp [runLength_zero]
  | succ l ih =>
    cases as with
    | nil => simp [runLength_nil_left]
    | cons a as =>
      cases bs with
      | nil => simp [runLength_nil_right]
      | cons b bs =>
        rw [runLength_succ_cons]
        have := ih as bs
        split
        · simp; omega
        · simp

/-- Inside a run the sequences agree. -/
theorem runLength_agree (l : Nat) (as bs : List Byte) (j : Nat) (h : j < runLength l as bs) : as[j]? = bs[j]? := by
  induction l generalizing as bs j with
  | zero => simp [runLength_zero] at h
  | succ l ih =>
    cases as with
    | nil => simp [runLength_nil_left] at h
    | cons a as =>
      cases bs with
      | nil => simp [runLength_nil_right] at h
      | cons b bs =>
        rw [runLength_succ_cons] at h
        split at h
        · rename_i hab
          cases j with
          | zero => simp [hab]
          | succ j => simpa using ih as bs j (by omega)
        · omega

/-- A run ends at its limit, at the end of a sequence, or at a difference. -/
theorem runLength_maximal (l : Nat) (as bs : List Byte) (h1 : runLength l as bs < l)
    (h2 : runLength l as bs < as.length) (h3 : runLength l as bs < bs.length) :
    as[runLength l as bs]? ≠ bs[runLength l as bs]? := by
  induction l generalizing as bs with
  | zero => omega
  | succ l ih =>
    cases as with
    | nil => simp [runLength_nil_left] at h2
    | cons a as =>
      cases bs with
      | nil => simp [runLength_nil_right] at h3
      | cons b bs =>
        by_cases hab : a = b
        · simp only [runLength_succ_cons, hab, if_true, List.length_cons, List.getElem?_cons_succ] at *
          exact ih as bs (by omega) (by omega) (by omega)
        · simp [runLength_succ_cons, hab]

/-- A match lies inside the input and its two sides agree (R251). -/
theorem matchLen_spec (x : List Byte) (L pos off : Nat) (h1 : 1 ≤ off) (h2 : off ≤ pos) (h3 : pos < x.length) :
    matchLen x L pos off ≤ L ∧ pos + matchLen x L pos off ≤ x.length ∧
    (∀ j < matchLen x L pos off, x[pos - off + j]? = x[pos + j]?) ∧
    (matchLen x L pos off < L → pos + matchLen x L pos off < x.length →
      x[pos - off + matchLen x L pos off]? ≠ x[pos + matchLen x L pos off]?) := by
  unfold matchLen
  have hle := runLength_le L (x.drop (pos - off)) (x.drop pos)
  simp only [List.length_drop] at hle
  refine ⟨hle.1, by omega, ?_, ?_⟩
  · intro j hj
    have := runLength_agree L _ _ j hj
    simpa [List.getElem?_drop] using this
  · intro hL hn
    have := runLength_maximal L (x.drop (pos - off)) (x.drop pos) hL (by simp; omega) (by simp; omega)
    simpa [List.getElem?_drop] using this

/-- A left-to-right search that keeps the first of the longest (R251: "strictly longer only"). -/
theorem foldl_best (f : Nat → Nat) (k : Nat) (b : Nat × Nat)
    (h : b = (List.range k).foldl (fun best i => if best.2 < f i then (i + 1, f i) else best) (0, 0)) :
    (b = (0, 0) ∧ ∀ i < k, f i = 0) ∨
    (∃ i < k, b.1 = i + 1 ∧ b.2 = f i ∧ 0 < b.2 ∧ (∀ j < k, f j ≤ b.2) ∧ ∀ j < i, f j < b.2) := by
  induction k generalizing b with
  | zero => left; exact ⟨by simpa using h, by omega⟩
  | succ k ih =>
    rw [List.range_succ, List.foldl_append] at h
    set c := (List.range k).foldl (fun best i => if best.2 < f i then (i + 1, f i) else best) (0, 0) with hc
    simp only [List.foldl_cons, List.foldl_nil] at h
    rcases ih c rfl with ⟨h0, hz⟩ | ⟨i, hi, e1, e2, hpos, hall, hfirst⟩
    · by_cases hk : c.2 < f k
      · rw [if_pos hk] at h
        right
        refine ⟨k, by omega, by rw [h], by rw [h], by rw [h]; simp only; omega, ?_, ?_⟩
        · intro j hj
          rw [h]
          rcases Nat.lt_succ_iff_lt_or_eq.mp hj with hj | rfl
          · rw [hz j hj]; exact Nat.zero_le _
          · exact Nat.le_refl _
        · intro j hj
          rw [h, hz j hj]
          simp only
          omega
      · rw [if_neg hk] at h
        left
        refine ⟨h.trans h0, fun i hi => ?_⟩
        rw [h0] at hk
        rcases Nat.lt_succ_iff_lt_or_eq.mp hi with hi | rfl
        · exact hz i hi
        · simp only at hk; omega
    · right
      by_cases hk : c.2 < f k
      · rw [if_pos hk] at h
        refine ⟨k, by omega, by rw [h], by rw [h], by rw [h]; simp only; omega, ?_, ?_⟩
        · intro j hj
          rw [h]
          simp only
          rcases Nat.lt_succ_iff_lt_or_eq.mp hj with hj | rfl
          · have := hall j hj; omega
          · exact Nat.le_refl _
        · intro j hj
          rw [h]
          simp only
          have := hall j hj
          omega
      · rw [if_neg hk] at h
        subst h
        refine ⟨i, by omega, e1, e2, hpos, ?_, hfirst⟩
        intro j hj
        rcases Nat.lt_succ_iff_lt_or_eq.mp hj with hj | rfl
        · exact hall j hj
        · omega

/-- The best match: none at all, or the smallest of the offsets with the longest match (R251). -/
theorem bestMatch_cases (x : List Byte) (W L pos : Nat) :
    (bestMatch x W L pos = (0, 0) ∧ ∀ off, 1 ≤ off → off ≤ min W pos → matchLen x L pos off = 0) ∨
    (1 ≤ (bestMatch x W L pos).1 ∧ (bestMatch x W L pos).1 ≤ min W pos ∧
      (bestMatch x W L pos).2 = matchLen x L pos (bestMatch x W L pos).1 ∧ 0 < (bestMatch x W L pos).2 ∧
      (∀ off, 1 ≤ off → off ≤ min W pos → matchLen x L pos off ≤ (bestMatch x W L pos).2) ∧
      ∀ off, 1 ≤ off → off < (bestMatch x W L pos).1 → matchLen x L pos off < (bestMatch x W L pos).2) := by
  rcases foldl_best (fun i => matchLen x L pos (i + 1)) (min W pos) (bestMatch x W L pos) rfl with
    ⟨h0, hz⟩ | ⟨i, hi, e1, e2, hpos, hall, hfirst⟩
  · left
    refine ⟨h0, fun off h1 h2 => ?_⟩
    have := hz (off - 1) (by omega)
    simpa [Nat.sub_add_cancel h1] using this
  · right
    refine ⟨by omega, by omega, by rw [e1, e2], hpos, ?_, ?_⟩
    · intro off h1 h2
      have := hall (off - 1) (by omega)
      simpa [Nat.sub_add_cancel h1] using this
    · intro off h1 h2
      have := hfirst (off - 1) (by omega)
      simpa [Nat.sub_add_cancel h1] using this

/-- The best match's length stays inside the limit and the input. -/
theorem bestMatch_le (x : List Byte) (W L pos : Nat) (h : pos < x.length) :
    (bestMatch x W L pos).2 ≤ L ∧ pos + (bestMatch x W L pos).2 ≤ x.length := by
  rcases bestMatch_cases x W L pos with ⟨h0, -⟩ | ⟨h1, h2, h3, -⟩
  · rw [h0]; simp only; omega
  · have := matchLen_spec x L pos (bestMatch x W L pos).1 h1 (by omega) h
    rw [h3]
    exact ⟨this.1, this.2.1⟩

/-! ## The scan (R252) -/

/-- The token of the scan at a position, with the position after it. -/
def scanToken (x : List Byte) (W L M pos : Nat) (b : Byte) : Token :=
  if M ≤ (bestMatch x W L pos).2 then
    ⟨(bestMatch x W L pos).1, (bestMatch x W L pos).2,
      match x[pos + (bestMatch x W L pos).2]? with
        | some c => c.toNat
        | none => noneSymbol⟩
  else ⟨0, 0, b.toNat⟩

theorem lzScan_zero (x : List Byte) (W L M pos : Nat) : lzScan x W L M 0 pos = [] := rfl

theorem lzScan_end (x : List Byte) (W L M fuel pos : Nat) (h : x.length ≤ pos) : lzScan x W L M fuel pos = [] := by
  cases fuel with
  | zero => rfl
  | succ f =>
    have : x[pos]? = none := List.getElem?_eq_none h
    simp only [lzScan, this]

theorem lzScan_succ (x : List Byte) (W L M fuel pos : Nat) (b : Byte) (h : x[pos]? = some b) :
    lzScan x W L M (fuel + 1) pos =
      scanToken x W L M pos b :: lzScan x W L M fuel (pos + (scanToken x W L M pos b).len + 1) := by
  by_cases hM : M ≤ (bestMatch x W L pos).2
  · cases hn : x[pos + (bestMatch x W L pos).2]? <;> simp [lzScan, h, scanToken, hM, hn]
  · simp only [lzScan, h, scanToken, hM, if_false, Nat.add_zero]

theorem byte_ne_none (b : Byte) : ¬ b.toNat = noneSymbol := by
  have := b.isLt
  simp only [noneSymbol]
  omega

/-- What a token of the scan is (R254 items 1-3), for M ≥ 1. -/
theorem scanToken_cases (x : List Byte) (W L M pos : Nat) (b : Byte) (h : x[pos]? = some b) (hM : 1 ≤ M) :
    (scanToken x W L M pos b = ⟨0, 0, b.toNat⟩) ∨
    (∃ off len next, scanToken x W L M pos b = ⟨off, len, next⟩ ∧ 1 ≤ off ∧ off ≤ min W pos ∧ M ≤ len ∧ len ≤ L ∧
      (∀ j < len, x[pos - off + j]? = x[pos + j]?) ∧
      ((∃ c, x[pos + len]? = some c ∧ next = c.toNat) ∨ (pos + len = x.length ∧ next = noneSymbol))) := by
  have hp : pos < x.length := by
    by_contra hn
    rw [List.getElem?_eq_none (by omega)] at h
    simp at h
  by_cases hm : M ≤ (bestMatch x W L pos).2
  · right
    obtain ⟨hL, hn⟩ := bestMatch_le x W L pos hp
    rcases bestMatch_cases x W L pos with ⟨h0, -⟩ | ⟨h1, h2, h3, -⟩
    · rw [h0] at hm; simp only at hm; omega
    · have hs := matchLen_spec x L pos _ h1 (by omega) hp
      rw [← h3] at hs
      cases hc : x[pos + (bestMatch x W L pos).2]? with
      | some c =>
        exact ⟨_, _, c.toNat, by simp only [scanToken, hm, if_true, hc], h1, h2, hm, hL, hs.2.2.1,
          .inl ⟨c, hc, rfl⟩⟩
      | none =>
        have := List.getElem?_eq_none_iff.mp hc
        exact ⟨_, _, noneSymbol, by simp only [scanToken, hm, if_true, hc], h1, h2, hm, hL, hs.2.2.1,
          .inr ⟨by omega, rfl⟩⟩
  · left
    simp only [scanToken, hm, if_false]

/-- The token at an index of the scan is the token at the position behind the tokens before it (R252). -/
theorem lzScan_getElem? (x : List Byte) (W L M fuel pos i : Nat) (k : Token)
    (h : (lzScan x W L M fuel pos)[i]? = some k) :
    ∃ b, x[pos + (((lzScan x W L M fuel pos).take i).map fun k => k.len + 1).sum]? = some b ∧
      k = scanToken x W L M (pos + (((lzScan x W L M fuel pos).take i).map fun k => k.len + 1).sum) b := by
  induction fuel generalizing pos i with
  | zero => simp [lzScan_zero] at h
  | succ fuel ih =>
    cases hb : x[pos]? with
    | none => rw [lzScan_end _ _ _ _ _ _ (List.getElem?_eq_none_iff.mp hb)] at h; simp at h
    | some b =>
      rw [lzScan_succ _ _ _ _ _ _ b hb] at h ⊢
      cases i with
      | zero => exact ⟨b, by simpa using hb, by simpa using h.symm⟩
      | succ i =>
        obtain ⟨b', h1, h2⟩ := ih _ _ h
        refine ⟨b', ?_, ?_⟩
        · simpa [Nat.add_assoc] using h1
        · simpa [Nat.add_assoc] using h2

/-- The scan reaches the end of the input (R252). -/
theorem lzScan_reaches (x : List Byte) (W L M fuel pos : Nat) (h : x.length ≤ pos + fuel) :
    x.length ≤ pos + ((lzScan x W L M fuel pos).map fun k => k.len + 1).sum := by
  induction fuel generalizing pos with
  | zero => omega
  | succ fuel ih =>
    cases hb : x[pos]? with
    | none => have := List.getElem?_eq_none_iff.mp hb; omega
    | some b =>
      have := ih (pos + (scanToken x W L M pos b).len + 1) (by omega)
      rw [lzScan_succ _ _ _ _ _ _ b hb, List.map_cons, List.sum_cons]
      omega

/-! ## The replay (R257) -/

theorem take_succ_of_getElem? (x : List Byte) (pos : Nat) (b : Byte) (h : x[pos]? = some b) :
    x.take pos ++ [b] = x.take (pos + 1) := by
  rw [List.take_add_one, h]
  rfl

/-- The copy loop reproduces a match, overlapping or not (R251 item 4, R258). -/
theorem copyBack_match (x : List Byte) (off len pos : Nat) (h1 : 1 ≤ off) (h2 : off ≤ pos) (h3 : pos + len ≤ x.length)
    (h : ∀ j < len, x[pos - off + j]? = x[pos + j]?) : copyBack off len (x.take pos) = x.take (pos + len) := by
  induction len generalizing pos with
  | zero => rfl
  | succ len ih =>
    have hlen : (x.take pos).length = pos := by simp; omega
    have h0 := h 0 (by omega)
    rw [Nat.add_zero, Nat.add_zero] at h0
    have hget : (x.take pos).getD (pos - off) 0 = x[pos]'(by omega) := by
      rw [List.getD_eq_getElem?_getD, List.getElem?_take_of_lt (by omega), h0, List.getElem?_eq_getElem (by omega)]
      rfl
    rw [copyBack, hlen, hget, take_succ_of_getElem? x pos _ (List.getElem?_eq_getElem (by omega)),
      ih (pos + 1) (by omega) (by omega)]
    · congr 1; omega
    · intro j hj
      have := h (j + 1) (by omega)
      rw [show pos + 1 - off + j = pos - off + (j + 1) by omega, show pos + 1 + j = pos + (j + 1) by omega]
      exact this

theorem copyBack_length (off len : Nat) (out : List Byte) : (copyBack off len out).length = out.length + len := by
  induction len generalizing out with
  | zero => rfl
  | succ len ih => rw [copyBack, ih]; simp; omega

/-- One token of a replay that passes the checks (R257). -/
theorem lzReplay_cons {cap t : Nat} {out : List Byte} {k : Token} {T : List Token}
    (ha : ¬ (k.off = 0 ∧ 0 < k.len)) (hb : ¬ (¬ (k.off = 0 ∧ k.len = 0) ∧ out.length < k.off))
    (hc : ¬ noneSymbol < k.next) (hd : ¬ cap < out.length + k.added) :
    lzReplay cap t out (k :: T) =
      lzReplay cap (t + 1)
        (if k.next = noneSymbol then copyBack k.off k.len out else copyBack k.off k.len out ++ [BitVec.ofNat 8 k.next]) T := by
  rw [lzReplay, if_neg ha, if_neg hb, if_neg hc, if_neg hd]

/-- The replay from the middle of a scan (R258): with the input up to `pos` put out, the rest of the scan puts out the
rest of the input. -/
theorem lzReplay_lzScan (x : List Byte) (W L M : Nat) (hM : 1 ≤ M) (fuel pos t : Nat) (hf : x.length ≤ pos + fuel) :
    lzReplay x.length t (x.take pos) (lzScan x W L M fuel pos) = .ok x := by
  induction fuel generalizing pos t with
  | zero => rw [lzScan_zero, lzReplay, List.take_of_length_le (by omega)]
  | succ fuel ih =>
    by_cases hp : pos < x.length
    · have hb : x[pos]? = some x[pos] := List.getElem?_eq_getElem hp
      rw [lzScan_succ x W L M fuel pos _ hb]
      have hlen : (x.take pos).length = pos := by simp; omega
      rcases scanToken_cases x W L M pos _ hb hM with h | ⟨off, len, next, h, h1, h2, h3, h4, h5, h6⟩
      · rw [h]
        have hne := byte_ne_none x[pos]
        have hlt := x[pos].isLt
        rw [lzReplay_cons (by simp) (by simp) (by simp [noneSymbol]; omega)
          (by simp [Token.added, hne, hlen]; omega)]
        have hbyte : BitVec.ofNat 8 x[pos].toNat = x[pos] := by simp
        simp only [hne, if_false, copyBack, hbyte]
        rw [take_succ_of_getElem? x pos _ hb]
        exact ih (pos + 1) (t + 1) (by omega)
      · rw [h]
        have hin : pos + len ≤ x.length := by
          rcases h6 with ⟨c, hc, -⟩ | ⟨hc, -⟩
          · by_contra hn
            rw [List.getElem?_eq_none (by omega)] at hc
            simp at hc
          · omega
        have hcopy := copyBack_match x off len pos h1 (by omega) hin h5
        rcases h6 with ⟨c, hc, hn⟩ | ⟨hc, hn⟩
        · have hcl : pos + len < x.length := by
            by_contra hn
            rw [List.getElem?_eq_none (by omega)] at hc
            simp at hc
          have hne := byte_ne_none c
          have hlt := c.isLt
          subst hn
          rw [lzReplay_cons (by simp; omega) (by simp; omega) (by simp [noneSymbol]; omega)
            (by simp [Token.added, hne, hlen]; omega)]
          have hbyte : BitVec.ofNat 8 c.toNat = c := by simp
          simp only [hne, if_false, hcopy, hbyte]
          rw [take_succ_of_getElem? x _ _ hc]
          exact ih (pos + len + 1) (t + 1) (by omega)
        · subst hn
          rw [lzReplay_cons (by simp; omega) (by simp; omega) (by simp) (by simp [Token.added, hlen]; omega)]
          simp only [if_true, hcopy]
          rw [lzScan_end _ _ _ _ _ _ (by show x.length ≤ pos + len + 1; omega), lzReplay, List.take_of_length_le (by omega)]
    · rw [lzScan_end _ _ _ _ _ _ (by omega), lzReplay, List.take_of_length_le (by omega)]

/-! ## Tokens in memory (R250, R255) -/

theorem flatten_length (T : List Token) : (flatten T).length = 3 * T.length := by
  unfold flatten
  induction T with
  | nil => rfl
  | cons k T ih => rw [List.flatMap_cons, List.length_append, ih, List.length_cons]; simp [Token.words]; omega

/-- Tokens whose fields fit 32 bits survive the memory form (R250). -/
theorem tokensOf_flatten (T : List Token) (h : ∀ k ∈ T, k.off < 2 ^ 32 ∧ k.len < 2 ^ 32 ∧ k.next < 2 ^ 32) :
    tokensOf (flatten T) = T := by
  induction T with
  | nil => rfl
  | cons k T ih =>
    obtain ⟨h1, h2, h3⟩ := h k List.mem_cons_self
    have hT := ih fun q hq => h q (List.mem_cons_of_mem _ hq)
    show _ :: tokensOf (flatten T) = k :: T
    rw [hT]
    congr 1
    cases k
    simp only [BitVec.toNat_ofNat] at *
    congr 1 <;> omega

theorem tokensOf_length (ws : List Word) : (tokensOf ws).length = ws.length / 3 := by
  fun_induction tokensOf ws with
  | case1 a b c rest ih => simp [ih]; omega
  | case2 ws h =>
    match ws, h with
    | [], _ => simp
    | [_], _ => simp
    | [_, _], _ => simp
    | a :: b :: c :: rest, h => exact absurd rfl (h a b c rest)

theorem wordsOf_length (bs : List Byte) : (wordsOf bs).length = bs.length / 4 := by
  fun_induction wordsOf bs with
  | case1 a b c d rest ih => simp [ih]; omega
  | case2 bs h =>
    match bs, h with
    | [], _ => simp
    | [_], _ => simp
    | [_, _], _ => simp
    | [_, _, _], _ => simp
    | a :: b :: c :: d :: rest, h => exact absurd rfl (h a b c d rest)

/-- A replay puts out at most the capacity (R257 check d). -/
theorem lzReplay_length {cap t : Nat} {out res : List Byte} {T : List Token} (h : lzReplay cap t out T = .ok res)
    (ho : out.length ≤ cap) : res.length ≤ cap := by
  induction T generalizing t out with
  | nil => simp only [lzReplay, Except.ok.injEq] at h; subst h; exact ho
  | cons k T ih =>
    rw [lzReplay] at h
    split at h
    · simp at h
    · split at h
      · simp at h
      · split at h
        · simp at h
        · split at h
          · simp at h
          · rename_i hd
            refine ih h ?_
            unfold Token.added at hd
            split <;> rename_i hn
            · rw [copyBack_length]; rw [if_pos hn] at hd; omega
            · rw [List.length_append, copyBack_length]; rw [if_neg hn] at hd
              simp only [List.length_singleton]; omega

end Sys2Proof.Machine
end

