-- ==== Sys2Proof/Laws/Container.lean ====
section
/-! SUPPORT. The laws of the container (45_container): the sizes of the two record forms, and one step each of parsing
them back. -/

namespace Sys2Proof.Machine

open Sys2Proof.Config

theorem rawRecord_length (x : List Byte) : (rawRecord x).length = sizeRaw x.length := by
  simp [rawRecord, magic, sizeRaw]; omega

theorem serCBLength_eq (C : Codebook) : serCBLength C = (serCB C).length := by rw [serCB_length]; rfl

theorem entRecord_length (C : Codebook) (s : Bits) : (entRecord C s).length = sizeEnt C s := by
  simp only [entRecord, magic, sizeEnt, serCBLength_eq, List.length_append, List.length_cons, List.length_nil,
    varintBytes_length, stream_length]

/-- A RAW record is parsed back, whatever follows it (R291). -/
theorem parseRecord_rawRecord (n : Nat) (x rest : List Byte) (hx : x.length < 2 ^ 32) :
    parseRecord n (rawRecord x ++ rest) = .ok (.raw x (9 + x.length)) := by
  have hb : beNat (be32 (BitVec.ofNat 32 x.length)) = x.length := by
    rw [beNat_be32, BitVec.toNat_ofNat, Nat.mod_eq_of_lt hx]
  have h0 : rawRecord x ++ rest = [0x4F, 0x57, 0x4F, 0x32, 0x00] ++ (be32 (BitVec.ofNat 32 x.length) ++ (x ++ rest)) := by
    simp [rawRecord, magic]
  have hl : (rawRecord x ++ rest).length = 9 + x.length + rest.length := by
    rw [List.length_append, rawRecord_length]; rfl
  have h5 : (rawRecord x ++ rest).drop 5 = be32 (BitVec.ofNat 32 x.length) ++ (x ++ rest) := by rw [h0]; rfl
  have h9 : (rawRecord x ++ rest).drop 9 = x ++ rest := by rw [h0]; rfl
  have h4 : (rawRecord x ++ rest)[4]? = some 0x00#8 := by rw [h0]; rfl
  have ht : (rawRecord x ++ rest).take 4 = magic := by rw [h0]; rfl
  have hn : beNat (((rawRecord x ++ rest).drop 5).take 4) = x.length := by
    rw [h5, List.take_left' (by simp), hb]
  unfold parseRecord
  rw [if_neg (by simp [ht]), h4]
  simp only
  rw [if_neg (by decide), if_pos (by decide)]
  unfold parseRaw
  rw [if_neg (by omega)]
  simp only [hn]
  rw [if_neg (by omega), h9, List.take_left' rfl]

/-- A DICTIONARY_ENTROPY record of a legal codebook is parsed back, whatever follows it (R291). -/
theorem parseRecord_entRecord (n : Nat) (C : Codebook) (s : Bits) (rest : List Byte) (hC : Codebook.Legal n C)
    (hn : C.length < 2 ^ 32) (hs : (stream s).length < 2 ^ 32) :
    parseRecord n (entRecord C s ++ rest) = .ok (.ent C s
      (5 + (serCB C).length + varintLen (stream s).length) (entRecord C s).length) := by
  have h0 : entRecord C s ++ rest =
      [0x4F, 0x57, 0x4F, 0x32, 0x01] ++ serCB C ++ (varintBytes (stream s).length ++ (stream s ++ rest)) := by
    simp [entRecord, magic]
  have h1 : entRecord C s ++ rest =
      ([0x4F, 0x57, 0x4F, 0x32, 0x01] ++ serCB C) ++ varintBytes (stream s).length ++ (stream s ++ rest) := by
    simp [entRecord, magic]
  have h2 : entRecord C s ++ rest =
      ([0x4F, 0x57, 0x4F, 0x32, 0x01] ++ serCB C ++ varintBytes (stream s).length) ++ (stream s ++ rest) := by
    simp [entRecord, magic]
  have h4 : (entRecord C s ++ rest)[4]? = some 0x01#8 := by rw [h0]; rfl
  have ht : (entRecord C s ++ rest).take 4 = magic := by rw [h0]; rfl
  have p1 : parseCB n (entRecord C s ++ rest) 5 = .ok (C, 5 + (serCB C).length) := by
    rw [h0]; exact parseCB_serCB _ _ C n hC hn
  have p2 : readVarInt (entRecord C s ++ rest) (5 + (serCB C).length) =
      .ok ((stream s).length, 5 + (serCB C).length + varintLen (stream s).length) := by
    have := readVarInt_varintBytes ([0x4F, 0x57, 0x4F, 0x32, 0x01] ++ serCB C) (stream s ++ rest) (stream s).length hs
    rw [← h1, List.length_append] at this
    exact this
  have hlen := entRecord_length C s
  unfold sizeEnt at hlen
  rw [serCBLength_eq] at hlen
  have hstream := stream_length s
  have hl : (entRecord C s ++ rest).length =
      5 + (serCB C).length + varintLen (stream s).length + (stream s).length + rest.length := by
    rw [List.length_append, hlen, hstream]
  have p3 : ((entRecord C s ++ rest).drop (5 + (serCB C).length + varintLen (stream s).length)).take (stream s).length =
      stream s := by
    rw [h2, List.drop_left' (by simp [varintBytes_length]; omega), List.take_left' rfl]
  unfold parseRecord
  rw [if_neg (by simp [ht]), h4]
  simp only
  rw [if_neg (by decide), if_neg (by decide)]
  unfold parseEnt
  rw [p1]
  simp only [ok_bind]
  rw [p2]
  simp only [ok_bind]
  rw [if_neg (by omega), if_neg (by omega), p3, streamBits_stream]
  simp only [ok_bind]
  congr 2
  rw [hlen, hstream]

end Sys2Proof.Machine
end

