-- ==== Sys2Proof/Laws/PerInstr.lean ====
section
/-! SUPPORT. The statements made command by command (30_encoding R110-R114): the word the encoder writes for a command is
legal, and its fields are the command's. -/

namespace Sys2Proof.Laws.Encoding

/-- The command's word is legal (R114), its OPCODE and F0 are the command's (R112, R113), and it is assigned. -/
def Statement (i : Instr) : Prop :=
  (fieldsOf (encode i)).wellFormed = true ∧ (fieldsOf (encode i)).opcode = i.opcode ∧
    (fieldsOf (encode i)).f0 = i.f0 ∧ i.opcode ∈ assignedOpcodes

theorem nop : Statement .nop := by unfold Statement; decide
theorem bpack (p : Bool) : Statement (.bpack p) := by unfold Statement; revert p; decide
theorem bunpack (p : Bool) : Statement (.bunpack p) := by unfold Statement; revert p; decide
theorem vwrite : Statement .vwrite := by unfold Statement; decide
theorem vread : Statement .vread := by unfold Statement; decide
theorem hbuild (w : Bool) : Statement (.hbuild w) := by unfold Statement; revert w; decide
theorem henc (w : Bool) : Statement (.henc w) := by unfold Statement; revert w; decide
theorem hdec : Statement .hdec := by unfold Statement; decide
theorem hser : Statement .hser := by unfold Statement; decide
theorem hdeser : Statement .hdeser := by unfold Statement; decide
theorem hcode : Statement .hcode := by unfold Statement; decide
theorem lzcomp : Statement .lzcomp := by unfold Statement; decide
theorem lzdec : Statement .lzdec := by unfold Statement; decide
theorem ccomp : Statement .ccomp := by unfold Statement; decide
theorem cdec : Statement .cdec := by unfold Statement; decide

end Sys2Proof.Laws.Encoding
end

