-- ==== Sys2Proof/Laws/Tree.lean ====
section
/-! SUPPORT. The laws that tie buildTree and buildCodebook to R202-R208 said apart from them: the leaves of a sequence, the
order of the queue, the merges (MergesTo) and the paths (PathTo). -/

namespace Sys2Proof.Machine

/-! ## The order (R203) -/

theorem Node.Precedes.asymm {a b : Node} (h : a.Precedes b) : ¬ b.Precedes a := by
  unfold Node.Precedes at *; omega

theorem before_iff (a b : Node) : a.before b = true ↔ a.Precedes b := by
  simp [Node.before, Node.Precedes]

/-- Nodes of different seq are ordered one way or the other. -/
theorem precedes_of_not_before {a b : Node} (h : ¬ a.before b = true) (hs : b.seq ≠ a.seq) : b.Precedes a := by
  rw [before_iff] at h
  unfold Node.Precedes at *
  omega

theorem push_ordered {n : Node} {Q : List Node} (h : Q.Pairwise Node.Precedes) (hs : ∀ m ∈ Q, m.seq ≠ n.seq) :
    (push n Q).Pairwise Node.Precedes := by
  induction Q with
  | nil => simp [push]
  | cons m Q ih =>
    rw [List.pairwise_cons] at h
    rw [push]
    split
    · rename_i hb
      rw [before_iff] at hb
      refine List.pairwise_cons.mpr ⟨fun q hq => ?_, List.pairwise_cons.mpr h⟩
      rcases List.mem_cons.mp hq with rfl | hq
      · exact hb
      · have := h.1 q hq
        unfold Node.Precedes at *
        omega
    · rename_i hb
      refine List.pairwise_cons.mpr ⟨fun q hq => ?_, ih h.2 fun q hq => hs q (List.mem_cons_of_mem _ hq)⟩
      rcases List.mem_cons.mp ((push_perm n Q).mem_iff.mp hq) with rfl | hq
      · exact precedes_of_not_before hb (hs m List.mem_cons_self)
      · exact h.1 q hq

theorem foldl_push_ordered (L : List Node) {Q : List Node} (h : Q.Pairwise Node.Precedes)
    (hs : ((L ++ Q).map Node.seq).Nodup) : (L.foldl (fun Q n => push n Q) Q).Pairwise Node.Precedes := by
  induction L generalizing Q with
  | nil => exact h
  | cons n L ih =>
    have hp : (L ++ push n Q).Perm (n :: L ++ Q) := ((push_perm n Q).append_left L).trans List.perm_middle
    refine ih (push_ordered h fun m hm he => ?_) ((hp.map Node.seq).nodup_iff.mpr hs)
    rw [List.cons_append, List.map_cons, List.nodup_cons] at hs
    exact hs.1 (he ▸ List.mem_map_of_mem (List.mem_append_right L hm))

/-! ## The merges (R204, R207) -/

/-- The order in which a queue is listed does not matter. -/
theorem MergesTo.perm {next : Nat} {Q Q' : List Node} {root : Node} (h : MergesTo next Q root) (hp : Q.Perm Q') :
    MergesTo next Q' root := by
  cases h with
  | root => rw [List.perm_singleton.mp hp.symm]; exact .root _ _
  | merge _ _ rest a b _ hq ha hb hm => exact .merge _ _ rest a b _ (hp.symm.trans hq) ha hb hm

/-- An empty queue merges to nothing (R205). -/
theorem MergesTo.not_nil (next : Nat) (root : Node) : ¬ MergesTo next [] root := by
  intro h
  cases h with
  | merge _ _ _ _ _ _ hq => exact absurd hq.length_eq (by simp)

/-- The node that precedes all the others is the same in two listings of one queue. -/
theorem least_unique {a b : Node} {A B : List Node} (hp : (a :: A).Perm (b :: B)) (ha : ∀ m ∈ A, a.Precedes m)
    (hb : ∀ m ∈ B, b.Precedes m) : a = b ∧ A.Perm B := by
  have hab : a = b := by
    rcases List.mem_cons.mp (hp.mem_iff.mpr List.mem_cons_self) with h | h
    · exact h.symm
    · rcases List.mem_cons.mp (hp.mem_iff.mp List.mem_cons_self) with h' | h'
      · exact h'
      · exact absurd (hb a h') (ha b h).asymm
  subst hab
  exact ⟨rfl, hp.cons_inv⟩

/-- A queue merges to one root only: popmin is deterministic (R203). -/
theorem MergesTo.unique {next : Nat} {Q Q' : List Node} {root root' : Node} (h : MergesTo next Q root)
    (h' : MergesTo next Q' root') (hp : Q.Perm Q') : root = root' := by
  induction h generalizing Q' root' with
  | root next n =>
    rw [List.perm_singleton.mp hp.symm] at h'
    cases h' with
    | root => rfl
    | merge _ _ _ _ _ _ hq => exact absurd hq.length_eq (by simp)
  | merge next Q rest a b root hq ha hb _ ih =>
    cases h' with
    | root => exact absurd (hq.symm.trans hp).length_eq (by simp)
    | merge _ _ rest' a' b' _ hq' ha' hb' hm' =>
      obtain ⟨rfl, h1⟩ := least_unique (hq.symm.trans (hp.trans hq')) ha ha'
      obtain ⟨rfl, h2⟩ := least_unique h1 hb hb'
      exact ih hm' (h2.cons _)

/-- The loop over a queue in priority order does the merges of R204. -/
theorem mergeLoop_mergesTo {fuel next : Nat} {Q : List Node} {root : Node} (hQ : Q.Pairwise Node.Precedes)
    (hs : ∀ m ∈ Q, m.seq < next) (h : mergeLoop fuel next Q = some root) : MergesTo next Q root := by
  induction fuel generalizing next Q with
  | zero =>
    match Q, h with
    | [n], h => cases h; exact .root _ _
  | succ fuel ih =>
    match Q, h with
    | [n], h => cases h; exact .root _ _
    | a :: b :: Q, h =>
      have hp := push_perm (.node (a.freq + b.freq) next a b) Q
      rw [List.pairwise_cons, List.pairwise_cons] at hQ
      have hlt : ∀ m ∈ Q, m.seq < next := fun m hm => hs m (by simp [hm])
      refine .merge _ _ Q a b _ (.refl _) hQ.1 hQ.2.1 ((ih ?_ ?_ h).perm hp)
      · exact push_ordered hQ.2.2 fun m hm => Nat.ne_of_lt (hlt m hm)
      · intro m hm
        rcases List.mem_cons.mp (hp.mem_iff.mp hm) with rfl | hm
        · exact Nat.lt_succ_self next
        · exact Nat.lt_succ_of_lt (hlt m hm)

/-! ## The leaves (R201, R202, R206) -/

theorem leavesFrom_seq (k : Nat) (F : List (Word × Nat)) :
    (leavesFrom k F).map Node.seq = List.range' k F.length := by
  induction F generalizing k with
  | nil => rfl
  | cons u F ih => rw [leavesFrom, List.map_cons, ih, List.length_cons, List.range'_succ]; rfl

/-- The leaves are numbered 0, 1, … in their order. -/
theorem leaves_seq (F : List (Word × Nat)) : (leaves F).map Node.seq = List.range (leaves F).length := by
  rw [leaves_length, leaves, List.map_append, leavesFrom_seq, ← List.range_eq_range']
  split
  · rename_i h; rw [h]; rfl
  · simp

theorem leavesFrom_map (x S : List Word) (k : Nat) :
    leavesFrom k (S.map fun s => (s, x.count s)) =
      (List.range S.length).map fun j => .leaf (S.getD j 0) (x.count (S.getD j 0)) (k + j) := by
  induction S generalizing k with
  | nil => rfl
  | cons s S ih =>
    rw [List.map_cons, leavesFrom, ih, List.length_cons, List.range_succ_eq_map]
    simp [Nat.add_assoc, Nat.add_comm 1]

/-- The table of a sequence, from its distinct symbols in ascending order. -/
theorem freqTable_eq {x S : List Word} (h : DistinctAscending x S) :
    freqTable x = S.map fun s => (s, x.count s) := by
  refine List.Perm.eq_of_pairwise (le := fun a b : Word × Nat => a.1.toNat < b.1.toNat)
    (fun a b _ _ h1 h2 => by omega) (freqTable_sorted x) ?_ ?_
  · rw [List.pairwise_map]; exact h.1
  · refine (List.perm_ext_iff_of_nodup ?_ ?_).mpr fun ⟨s, k⟩ => ?_
    · exact (freqTable_sorted x).imp fun {a b} h hc => by rw [hc] at h; omega
    · rw [List.Nodup, List.pairwise_map]
      refine h.1.imp fun {a b} h hc => ?_
      rw [(Prod.mk.inj hc).1] at h
      omega
    · rw [mem_freqTable, List.mem_map]
      constructor
      · rintro ⟨rfl, hk⟩
        exact ⟨s, (h.2 s).mpr (List.count_pos_iff.mp hk), rfl⟩
      · rintro ⟨t, ht, he⟩
        cases he
        exact ⟨rfl, List.count_pos_iff.mpr ((h.2 _).mp ht)⟩

theorem leaves_freqTable {x S : List Word} (h : DistinctAscending x S) :
    leaves (freqTable x) = numberedLeaves x S := by
  rw [freqTable_eq h, leaves, leavesFrom_map, List.length_map, numberedLeaves]
  simp

/-- buildTree is the merges of R204 on the leaves of R202, numbered from their number upwards. -/
theorem mergesTo_iff_buildTree {x S : List Word} (h : DistinctAscending x S) (root : Node) :
    MergesTo (numberedLeaves x S).length (numberedLeaves x S) root ↔ buildTree (freqTable x) = some root := by
  by_cases hF : freqTable x = []
  · rw [← leaves_freqTable h, hF, buildTree_nil]
    exact ⟨fun h' => absurd h' (MergesTo.not_nil 0 root), nofun⟩
  obtain ⟨r, hr, -⟩ := buildTree_spec (freqTable x) hF
  have hp := foldl_push_perm (leaves (freqTable x)) []
  rw [List.append_nil] at hp
  have hm : MergesTo (leaves (freqTable x)).length (leaves (freqTable x)) r := by
    refine (mergeLoop_mergesTo (foldl_push_ordered _ List.Pairwise.nil ?_) (fun m hm => ?_) hr).perm hp
    · rw [List.append_nil, leaves_seq]; exact List.nodup_range
    · rw [← List.mem_range, ← leaves_seq]
      exact List.mem_map_of_mem (hp.mem_iff.mp hm)
  rw [leaves_freqTable h] at hm
  rw [hr]
  constructor
  · intro h'; rw [hm.unique h' (.refl _)]
  · intro h'; cases h'; exact hm

/-- A leaf is never the root of a sequence's tree (R206): every sequence that is not empty has at least two leaves. -/
theorem buildTree_root {F : List (Word × Nat)} {root : Node} (h : buildTree F = some root) : 2 ≤ root.leafCount := by
  by_cases hF : F = []
  · rw [hF, buildTree_nil] at h; exact absurd h nofun
  · obtain ⟨r, hr, -, -, hc⟩ := buildTree_spec F hF
    rw [hr] at h
    cases h
    have := List.length_pos_iff.mpr hF
    split at hc <;> omega

/-! ## The codes (R208) -/

/-- The traversal below a node finds the path to each symbol, behind the node's own code. -/
theorem mem_walk (n : Node) (c : Bits) (sym : Word) (code : Bits) :
    ({ sym := sym, code := code } : Entry) ∈ walk n c ↔
      ∃ p, PathTo sym n p ∧ code = if c ++ p = [] then [false] else c ++ p := by
  induction n generalizing c with
  | leaf s f q => simp [walk, PathTo, eq_comm, and_assoc]
  | dummy => simp [walk, PathTo]
  | node f q l r ihl ihr =>
    rw [walk, List.mem_append, ihl, ihr]
    simp only [PathTo]
    constructor
    · rintro (⟨p, hp, rfl⟩ | ⟨p, hp, rfl⟩)
      · exact ⟨false :: p, .inl ⟨p, rfl, hp⟩, by simp⟩
      · exact ⟨true :: p, .inr ⟨p, rfl, hp⟩, by simp⟩
    · rintro ⟨_, ⟨p, rfl, hp⟩ | ⟨p, rfl, hp⟩, rfl⟩
      · exact .inl ⟨p, hp, by simp⟩
      · exact .inr ⟨p, hp, by simp⟩

/-- A code of the codebook is the path to its symbol's leaf, "0" for a root that is a leaf. -/
theorem mem_buildCodebook (root : Node) (sym : Word) (code : Bits) :
    ({ sym := sym, code := code } : Entry) ∈ buildCodebook root ↔
      ∃ p, PathTo sym root p ∧ code = if p = [] then [false] else p := by
  rw [(buildCodebook_perm root).mem_iff, mem_walk]
  simp

/-- The codes of a sequence are the paths of its tree: the substitution of "0" is never met (90_conflicts C5). -/
theorem mem_codebookOf {F : List (Word × Nat)} {root : Node} (h : buildTree F = some root) (sym : Word) (code : Bits) :
    ({ sym := sym, code := code } : Entry) ∈ codebookOf F ↔ PathTo sym root code := by
  have hC : codebookOf F = buildCodebook root := by simp [codebookOf, h]
  rw [hC, mem_buildCodebook]
  cases root with
  | leaf => exact absurd (buildTree_root h) (by simp [Node.leafCount])
  | dummy => exact absurd (buildTree_root h) (by simp [Node.leafCount])
  | node f q l r =>
    constructor
    · rintro ⟨p, hp, rfl⟩
      rw [if_neg]
      · exact hp
      · rintro rfl; simp [PathTo] at hp
    · intro hp
      refine ⟨code, hp, ?_⟩
      rw [if_neg]
      rintro rfl
      simp [PathTo] at hp

end Sys2Proof.Machine
end

