-- ==== Sys2Proof/Laws/Wire.lean ====
section
/-! SUPPORT. What readVarInt, parseCB and the replay answer, from the words of Safety.lean: one lemma for each way a varint,
an entry or a codebook lies on the wire or fails there (42_varint R182, 43_huffman R217), and one for each outcome of a
token (44_lz77 R257). -/

namespace Sys2Proof.Machine

open Sys2Proof.Config

/-! ## Varints (R182) -/

theorem byteAt_of_getElem? {B : List Byte} {c : Nat} {b : Byte} (h : B[c]? = some b) : byteAt B c = b.toNat := by
  simp [byteAt, List.getD_eq_getElem?_getD, h]

theorem byteAt_lt (B : List Byte) (c : Nat) : byteAt B c < 256 := (B.getD c 0).isLt

theorem getElem?_of_lt {B : List Byte} {c : Nat} (h : c < B.length) : ∃ b, B[c]? = some b ∧ byteAt B c = b.toNat :=
  ⟨B[c], List.getElem?_eq_getElem h, byteAt_of_getElem? (List.getElem?_eq_getElem h)⟩

theorem and_low_seven (b : Byte) (h : 128 ≤ b.toNat) : (b &&& 0x7F#8).toNat = b.toNat - 128 := by
  have : ∀ k : Fin 128, (BitVec.ofNat 8 (128 + k) &&& 0x7F#8).toNat = k := by decide
  have hb := b.isLt
  have h2 := this ⟨b.toNat - 128, by omega⟩
  have h3 : BitVec.ofNat 8 (128 + (b.toNat - 128)) = b := by
    apply BitVec.eq_of_toNat_eq; simp; omega
  simpa [h3] using h2

theorem take_four {B : List Byte} {c : Nat} (h : c + 4 ≤ B.length) :
    beNat ((B.drop c).take 4) =
      byteAt B c * 2 ^ 24 + byteAt B (c + 1) * 2 ^ 16 + byteAt B (c + 2) * 2 ^ 8 + byteAt B (c + 3) := by
  have e : (B.drop c).take 4 = [B.getD c 0, B.getD (c + 1) 0, B.getD (c + 2) 0, B.getD (c + 3) 0] := by
    apply List.ext_getElem
    · simp; omega
    · intro i h1 h2
      simp only [List.length_cons, List.length_nil] at h2
      rw [List.getElem_take, List.getElem_drop]
      match i, h2 with
      | 0, _ | 1, _ | 2, _ | 3, _ =>
        simp [List.getD_eq_getElem?_getD, List.getElem?_eq_getElem (show c < B.length by omega),
          List.getElem?_eq_getElem (show c + 1 < B.length by omega), List.getElem?_eq_getElem (show c + 2 < B.length by omega),
          List.getElem?_eq_getElem (show c + 3 < B.length by omega)]
  rw [e, beNat_four]
  unfold byteAt
  omega

/-- A varint that lies at a cursor is read there. -/
theorem readVarInt_of_at {B : List Byte} {c v d : Nat} (h : VarintAt B c v d) : readVarInt B c = .ok (v, d) := by
  rcases h with ⟨h1, h2, rfl, rfl⟩ | ⟨h1, h2, h3, rfl, rfl⟩ | ⟨h1, h2, rfl, rfl⟩
  · obtain ⟨b, hb, e⟩ := getElem?_of_lt h1
    rw [e]
    exact readVarInt_tier1 hb (by omega)
  · obtain ⟨b, hb, e⟩ := getElem?_of_lt (show c < B.length by omega)
    obtain ⟨b', hb', e'⟩ := getElem?_of_lt h1
    rw [readVarInt_tier2 hb (by omega) (by omega) hb', and_low_seven b (by omega), e, e']
  · obtain ⟨b, hb, e⟩ := getElem?_of_lt (show c < B.length by omega)
    have : b = 0xFF#8 := by apply BitVec.eq_of_toNat_eq; rw [← e, h2]; rfl
    rw [this] at hb
    rw [readVarInt_tier3 hb h1, take_four (by omega)]

/-- A varint that is cut off is MalformedVarInt at its lead byte. -/
theorem readVarInt_of_cut {B : List Byte} {c : Nat} (h : VarintCut B c) :
    readVarInt B c = .error { kind := .malformedVarInt, info := BitVec.ofNat 32 c } := by
  by_cases h0 : B.length ≤ c
  · simp [readVarInt, List.getElem?_eq_none h0, ErrorKind.at]
  · obtain ⟨b, hb, e⟩ := getElem?_of_lt (show c < B.length by omega)
    rcases h with h | ⟨h1, h2⟩ | ⟨h1, h2⟩
    · omega
    · have h3 : ¬ b.toNat < 128 := by omega
      have h4 : B[c + 1]? = none := List.getElem?_eq_none h1
      have h5 : B.length ≤ c + 4 := by omega
      by_cases h6 : b = 255#8 <;> simp [readVarInt, hb, h3, h4, h5, h6, ErrorKind.at]
    · have : b = 255#8 := by apply BitVec.eq_of_toNat_eq; rw [← e, h2]; rfl
      subst this
      simp [readVarInt, hb, h1, ErrorKind.at]

/-- At every cursor a varint lies or is cut off. -/
theorem varint_cases (B : List Byte) (c : Nat) : VarintCut B c ∨ ∃ v d, VarintAt B c v d := by
  have h := byteAt_lt B c
  by_cases h1 : VarintCut B c
  · exact .inl h1
  · unfold VarintCut at h1
    by_cases h2 : byteAt B c < 0x80
    · exact .inr ⟨_, _, .inl ⟨by omega, h2, rfl, rfl⟩⟩
    · by_cases h3 : byteAt B c < 0xFF
      · exact .inr ⟨_, _, .inr (.inl ⟨by omega, by omega, h3, rfl, rfl⟩)⟩
      · exact .inr ⟨_, _, .inr (.inr ⟨by omega, by omega, rfl, rfl⟩)⟩

theorem VarintAt.bounds {B : List Byte} {c v d : Nat} (h : VarintAt B c v d) : c < d ∧ d ≤ B.length ∧ v < 2 ^ 32 := by
  obtain ⟨h1, h2, -, h4⟩ := readVarInt_ok (readVarInt_of_at h)
  exact ⟨h1, h2, h4⟩

/-! ## Entries and codebooks (R217) -/

/-- A digit of unpacked bytes. -/
theorem unpackMSB_getElem? (P : List Byte) (r j : Nat) (hj : j < validBits P.length r) (hP : j < 8 * P.length) :
    (unpackMSB P r)[j]? = some ((P.getD (j / 8) 0).getLsbD (7 - j % 8)) := by
  rw [unpackMSB, List.getElem?_take_of_lt hj]
  clear hj
  induction P generalizing j with
  | nil => simp at hP
  | cons b P ih =>
    rw [List.flatMap_cons]
    have hb : (byteBits b).length = 8 := by simp [byteBits]
    by_cases h8 : j < 8
    · rw [List.getElem?_append_left (by omega), show j / 8 = 0 by omega, show j % 8 = j by omega]
      simp [byteBits, h8]
    · rw [List.getElem?_append_right (by omega), hb, ih (j - 8) (by simp at hP; omega),
        show j / 8 = (j - 8) / 8 + 1 by omega, show (j - 8) % 8 = j % 8 by omega]
      rfl

/-- The packed digits of an entry, read back. -/
theorem unpack_entry {B : List Byte} {d : Nat} {code : Bits} (hq : d + ceil8 code.length ≤ B.length)
    (h : ∀ j, j < code.length → code[j]? = some ((B.getD (d + j / 8) 0).getLsbD (7 - j % 8))) :
    unpackMSB ((B.drop d).take (ceil8 code.length)) (code.length % 8) = code := by
  have hl : ((B.drop d).take (ceil8 code.length)).length = ceil8 code.length := by simp; omega
  have h8 := ceil8_le code.length
  apply List.ext_getElem?
  intro j
  by_cases hj : j < code.length
  · rw [unpackMSB_getElem? _ _ _ (by rw [hl, validBits_ceil8]; exact hj) (by omega), h j hj]
    congr 2
    rw [List.getD_eq_getElem?_getD, List.getD_eq_getElem?_getD,
      List.getElem?_take_of_lt (by unfold ceil8; omega), List.getElem?_drop]
  · rw [List.getElem?_eq_none (by rw [unpackMSB_length, hl, validBits_ceil8]; omega), List.getElem?_eq_none (by omega)]

theorem isSome_dup {C : Codebook} (x : Entry) :
    ((C.codeOf x.sym).isSome || (C.symOf x.code).isSome) = true ↔ ∃ y ∈ C, y.sym = x.sym ∨ y.code = x.code := by
  have h2 : (C.symOf x.code).isSome ↔ ∃ y ∈ C, y.code = x.code := by simp [Codebook.symOf, List.find?_isSome]
  rw [Bool.or_eq_true, codeOf_isSome, h2, List.mem_map]
  constructor
  · rintro (⟨y, h, e⟩ | ⟨y, h, e⟩)
    exacts [⟨y, h, .inl e⟩, ⟨y, h, .inr e⟩]
  · rintro ⟨y, h, e | e⟩
    exacts [.inl ⟨y, h, e⟩, .inr ⟨y, h, e⟩]

/-- An entry that lies at a cursor is a duplicate or is added. -/
theorem parseEntry_of_at {B : List Byte} {a q : Nat} {x : Entry} (C : Codebook) (h : EntryAt B a x q) :
    ((∃ y ∈ C, y.sym = x.sym ∨ y.code = x.code) →
      parseEntry B a C = .error { kind := .corruptBitstream, info := BitVec.ofNat 32 a }) ∧
    ((¬ ∃ y ∈ C, y.sym = x.sym ∨ y.code = x.code) → parseEntry B a C = .ok (Codebook.add x C, q)) := by
  obtain ⟨c, d, h1, h2, h3, h4, rfl, h6, h7⟩ := h
  have hu := unpack_entry (by unfold ceil8; exact h6) h7
  have hc : (x.code.length + 7) / 8 = ceil8 x.code.length := rfl
  have hs : BitVec.ofNat 32 x.sym.toNat = x.sym := by simp
  have hp : parseEntry B a C =
      if (C.codeOf x.sym).isSome || (C.symOf x.code).isSome then .error (ErrorKind.corruptBitstream.at a)
      else .ok (Codebook.add x C, d + ceil8 x.code.length) := by
    unfold parseEntry
    rw [readVarInt_of_at h1]
    simp only [ok_bind]
    rw [readVarInt_of_at h2]
    simp only [ok_bind]
    rw [if_neg (by omega), if_neg (by unfold maxCodeLen; omega), if_neg (by omega), hu, hs]
  rw [hp, hc]
  exact ⟨fun hd => by rw [if_pos ((isSome_dup x).mpr hd)]; rfl, fun hd => by rw [if_neg fun hc => hd ((isSome_dup x).mp hc)]⟩

/-- An entry that fails. -/
theorem parseEntry_of_fails {B : List Byte} {a : Nat} {E C : Codebook} {e : Raise} (hC : C.Perm E) (h : EntryFails B E a e) :
    parseEntry B a C = .error e := by
  rcases h with ⟨h, rfl⟩ | ⟨sym, c, h1, h2, rfl⟩ | ⟨sym, c, d, h1, h2, rfl⟩ | ⟨sym, c, len, d, h1, h2, h3, rfl⟩ |
    ⟨sym, c, len, d, h1, h2, h3, h4, h5, rfl⟩ | ⟨x, q, h1, ⟨y, hy, h2⟩, rfl⟩
  · rw [parseEntry, readVarInt_of_cut h]; rfl
  · rw [parseEntry, readVarInt_of_at h1]
    simp only [ok_bind]
    rw [readVarInt_of_cut h2]; rfl
  · rw [parseEntry, readVarInt_of_at h1]
    simp only [ok_bind]
    rw [readVarInt_of_at h2]; rfl
  · rw [parseEntry, readVarInt_of_at h1]
    simp only [ok_bind]
    rw [readVarInt_of_at h2]
    simp only [ok_bind]
    rw [if_neg (by omega), if_pos (by unfold maxCodeLen; exact h3)]; rfl
  · rw [parseEntry, readVarInt_of_at h1]
    simp only [ok_bind]
    rw [readVarInt_of_at h2]
    simp only [ok_bind]
    rw [if_neg (by omega), if_neg (by unfold maxCodeLen; omega), if_pos (by unfold ceil8; exact h5)]; rfl
  · exact (parseEntry_of_at C h1).1 ⟨y, hC.mem_iff.mpr hy, h2⟩

/-- Every entry lies at its cursor or fails there. -/
theorem entry_cases (B : List Byte) (E : List Entry) (a : Nat) :
    (∃ e, EntryFails B E a e) ∨ ∃ x q, EntryAt B a x q ∧ ¬ ∃ y ∈ E, y.sym = x.sym ∨ y.code = x.code := by
  rcases varint_cases B a with h1 | ⟨sym, c, h1⟩
  · exact .inl ⟨_, .inl ⟨h1, rfl⟩⟩
  rcases varint_cases B c with h2 | ⟨len, d, h2⟩
  · exact .inl ⟨_, .inr (.inl ⟨sym, c, h1, h2, rfl⟩)⟩
  by_cases h3 : len = 0
  · subst h3; exact .inl ⟨_, .inr (.inr (.inl ⟨sym, c, d, h1, h2, rfl⟩))⟩
  by_cases h4 : 32 < len
  · exact .inl ⟨_, .inr (.inr (.inr (.inl ⟨sym, c, len, d, h1, h2, h4, rfl⟩)))⟩
  by_cases h5 : B.length < d + (len + 7) / 8
  · exact .inl ⟨_, .inr (.inr (.inr (.inr (.inl ⟨sym, c, len, d, h1, h2, by omega, by omega, h5, rfl⟩))))⟩
  let x : Entry :=
    { sym := BitVec.ofNat 32 sym
      code := (List.range len).map fun j => (B.getD (d + j / 8) 0).getLsbD (7 - j % 8) }
  have hlen : x.code.length = len := by simp [x]
  have hsym : x.sym.toNat = sym := by have := h1.bounds.2.2; simp [x]; omega
  have hx : EntryAt B a x (d + (len + 7) / 8) := by
    refine ⟨c, d, by rw [hsym]; exact h1, by rw [hlen]; exact h2, by omega, by omega, by rw [hlen], by omega, fun j hj => ?_⟩
    simp [x, List.getElem?_range (show j < len by omega)]
  by_cases h6 : ∃ y ∈ E, y.sym = x.sym ∨ y.code = x.code
  · exact .inl ⟨_, .inr (.inr (.inr (.inr (.inr ⟨x, _, hx, h6, rfl⟩))))⟩
  · exact .inr ⟨x, _, hx, h6⟩

theorem entriesAt_append {B : List Byte} {E F : List Entry} {p q : Nat} :
    EntriesAt B p (E ++ F) q ↔ ∃ a, EntriesAt B p E a ∧ EntriesAt B a F q := by
  induction E generalizing p with
  | nil => simp [EntriesAt]
  | cons x E ih =>
    simp only [List.cons_append, EntriesAt, ih]
    constructor
    · rintro ⟨c, h, a, h1, h2⟩; exact ⟨a, ⟨c, h, h1⟩, h2⟩
    · rintro ⟨a, ⟨c, h, h1⟩, h2⟩; exact ⟨c, h, a, h1, h2⟩

/-- Entries that lie one after the other, distinct among themselves and from those already read, are added one by one. -/
theorem parseEntries_of_at {B : List Byte} {E F : List Entry} {p q : Nat} (k : Nat) (C : Codebook) (hC : C.Perm F)
    (h : EntriesAt B p E q) (hd : DistinctEntries (F ++ E)) :
    parseEntries B (E.length + k) p C = parseEntries B k q (E.foldl (fun C e => Codebook.add e C) C) := by
  induction E generalizing p C F with
  | nil => rw [show p = q from h]; simp
  | cons x E ih =>
    obtain ⟨c, hx, hE⟩ := h
    have hnew : ¬ ∃ y ∈ C, y.sym = x.sym ∨ y.code = x.code := by
      rintro ⟨y, hy, e⟩
      have := (List.pairwise_append.mp hd).2.2 y (hC.mem_iff.mp hy) x List.mem_cons_self
      rcases e with e | e
      exacts [this.1 e, this.2 e]
    rw [show (x :: E).length + k = E.length + k + 1 by simp; omega, parseEntries, (parseEntry_of_at C hx).2 hnew]
    simp only [ok_bind]
    refine ih (F := F ++ [x]) (Codebook.add x C) ?_ hE (by simpa using hd)
    exact (add_perm x C).trans ((hC.cons x).trans (List.perm_append_singleton x F).symm)

theorem DistinctEntries.syms_nodup {E : List Entry} (h : DistinctEntries E) : (E.map Entry.sym).Nodup := by
  rw [List.Nodup, List.pairwise_map]
  exact h.imp fun h => h.1

/-- A codebook that lies at a cursor is parsed, in ascending order of symbol. -/
theorem parseCB_of_at {n : Nat} {B : List Byte} {p q : Nat} {E : List Entry} (h : CodebookAt n B p E q) :
    ∃ C : Codebook, C.Perm E ∧ SymsAscend C ∧ parseCB n B p = .ok (C, q) := by
  obtain ⟨c, h1, h2, h3, h4⟩ := h
  refine ⟨E.foldl (fun C e => Codebook.add e C) [], by simpa using foldl_add_perm E [],
    foldl_add_ascend E [] List.Pairwise.nil (by simpa using h4.syms_nodup), ?_⟩
  have := parseEntries_of_at (F := []) 0 [] (.refl _) h3 (by simpa using h4)
  rw [parseCB, readVarInt_of_at h1]
  simp only [ok_bind]
  rw [if_neg (by omega)]
  simpa [parseEntries] using this

/-- A codebook that fails. -/
theorem parseCB_of_fails {n : Nat} {B : List Byte} {p : Nat} {e : Raise} (h : CodebookFails n B p e) :
    parseCB n B p = .error e := by
  rcases h with ⟨h, rfl⟩ | ⟨K, c, h1, h2, rfl⟩ | ⟨K, c, E, a, h1, h2, h3, h4, h5, h6⟩
  · rw [parseCB, readVarInt_of_cut h]; rfl
  · rw [parseCB, readVarInt_of_at h1]
    simp only [ok_bind]
    rw [if_pos h2]; rfl
  · obtain ⟨k, rfl⟩ : ∃ k, K = E.length + (k + 1) := ⟨K - E.length - 1, by omega⟩
    rw [parseCB, readVarInt_of_at h1]
    simp only [ok_bind]
    rw [if_neg (by omega), parseEntries_of_at (F := []) (k + 1) [] (.refl _) h3 (by simpa using h4), parseEntries,
      parseEntry_of_fails (by simpa using foldl_add_perm E []) h6]
    rfl

/-- Of any list of `k` more entries, behind good ones, all lie or one fails. -/
theorem entries_cases (B : List Byte) (k p : Nat) (F : List Entry) (a : Nat) (hF : EntriesAt B p F a)
    (hd : DistinctEntries F) :
    (∃ E q, E.length = F.length + k ∧ EntriesAt B p E q ∧ DistinctEntries E) ∨
      ∃ E q e, E.length < F.length + k ∧ EntriesAt B p E q ∧ DistinctEntries E ∧ EntryFails B E q e := by
  induction k generalizing F a with
  | zero => exact .inl ⟨F, a, rfl, hF, hd⟩
  | succ k ih =>
    rcases entry_cases B F a with ⟨e, h⟩ | ⟨x, q, h, hn⟩
    · exact .inr ⟨F, a, e, by omega, hF, hd, h⟩
    · have h2 : DistinctEntries (F ++ [x]) := by
        refine List.pairwise_append.mpr ⟨hd, List.pairwise_singleton _ _, fun y hy z hz => ?_⟩
        rw [List.mem_singleton.mp hz]
        exact ⟨fun e => hn ⟨y, hy, .inl e⟩, fun e => hn ⟨y, hy, .inr e⟩⟩
      have := ih (F ++ [x]) q (entriesAt_append.mpr ⟨a, hF, q, h, rfl⟩) h2
      rwa [show (F ++ [x]).length + k = F.length + (k + 1) by simp; omega] at this

/-- At every cursor a codebook lies or fails. -/
theorem codebook_cases (n : Nat) (B : List Byte) (p : Nat) :
    (∃ E q, CodebookAt n B p E q) ∨ ∃ e, CodebookFails n B p e := by
  rcases varint_cases B p with h | ⟨K, c, h⟩
  · exact .inr ⟨_, .inl ⟨h, rfl⟩⟩
  by_cases hK : n < K
  · exact .inr ⟨_, .inr (.inl ⟨K, c, h, hK, rfl⟩)⟩
  rcases entries_cases B K c [] c rfl List.Pairwise.nil with ⟨E, q, h1, h2, h3⟩ | ⟨E, q, e, h1, h2, h3, h4⟩
  · simp only [List.length_nil, Nat.zero_add] at h1
    subst h1
    exact .inl ⟨E, q, c, h, by omega, h2, h3⟩
  · exact .inr ⟨e, .inr (.inr ⟨K, c, E, q, h, by omega, h2, h3, by simpa using h1, h4⟩)⟩

/-! ## The bitstream of a record (R291, R161) -/

/-- The stream form of `len ≥ 1` bytes from cursor `p`: its prefix byte decides. -/
theorem streamBits_slice {B : List Byte} {p len : Nat} (h1 : 1 ≤ len) (h2 : p + len ≤ B.length) (info : Nat) :
    streamBits ((B.drop p).take len) info =
      if 7 < byteAt B p ∨ (len = 1 ∧ byteAt B p ≠ 0) then .error (ErrorKind.corruptBitstream.at info)
      else .ok (unpackMSB ((B.drop (p + 1)).take (len - 1)) (byteAt B p)) := by
  obtain ⟨b, hb, e⟩ := getElem?_of_lt (show p < B.length by omega)
  obtain ⟨l, rfl⟩ : ∃ l, len = l + 1 := ⟨len - 1, by omega⟩
  have hd : B.drop p = b :: B.drop (p + 1) := by
    rw [List.drop_eq_getElem_cons (by omega)]
    congr 1
    rw [List.getElem?_eq_getElem (by omega)] at hb
    simpa using hb
  rw [hd, List.take_succ_cons, Nat.add_sub_cancel, e]
  simp only [streamBits]
  by_cases h7 : 7 < b.toNat
  · simp [h7]
  · rw [if_neg h7]
    have hl : ((B.drop (p + 1)).take l).length = l := by simp; omega
    simp only [h7, false_or, hl, Nat.add_eq_right]

/-- A record of marker 1 is an entropy record. -/
theorem parseRecord_of_marker_one {B : List Byte} (n : Nat) (hm : B.take 4 = [0x4F, 0x57, 0x4F, 0x32]) (h5 : 5 ≤ B.length)
    (h1 : byteAt B 4 = 1) : parseRecord n B = parseEnt n B := by
  obtain ⟨b, hb, e⟩ := getElem?_of_lt (show 4 < B.length by omega)
  have : b = 1#8 := by apply BitVec.eq_of_toNat_eq; rw [← e]; exact h1
  subst this
  rw [parseRecord, if_neg (by rw [hm]; decide), hb]
  rfl

/-! ## The replay, token by token (R257) -/

/-- A replay of two pieces is the second from where the first ends. -/
theorem lzReplay_append {cap t : Nat} {out mid : List Byte} {S T : List Token} (h : lzReplay cap t out S = .ok mid) :
    lzReplay cap t out (S ++ T) = lzReplay cap (t + S.length) mid T := by
  induction S generalizing t out with
  | nil => simp only [lzReplay, Except.ok.injEq] at h; subst h; rfl
  | cons k S ih =>
    rw [lzReplay] at h
    split at h
    · simp at h
    split at h
    · simp at h
    split at h
    · simp at h
    split at h
    · simp at h
    rename_i ha hb hc hd
    rw [List.cons_append, lzReplay_cons ha hb hc hd, ih h]
    congr 1
    simp; omega

/-- The bytes the copy loop appends. -/
theorem copyBack_spec (off len : Nat) (out : List Byte) (h : len = 0 ∨ (1 ≤ off ∧ off ≤ out.length)) :
    ∃ copied, copied.length = len ∧ copyBack off len out = out ++ copied ∧
      ∀ j, j < len → copied[j]? = (out ++ copied)[out.length - off + j]? := by
  induction len generalizing out with
  | zero => exact ⟨[], rfl, by simp [copyBack], by simp⟩
  | succ len ih =>
    obtain ⟨h1, h2⟩ : 1 ≤ off ∧ off ≤ out.length := by omega
    obtain ⟨copied, e1, e2, e3⟩ := ih (out ++ [out.getD (out.length - off) 0]) (.inr ⟨h1, by simp; omega⟩)
    refine ⟨out.getD (out.length - off) 0 :: copied, by simp [e1], by rw [copyBack, e2]; simp, fun j hj => ?_⟩
    cases j with
    | zero =>
      have hlt : out.length - off < out.length := by omega
      rw [Nat.add_zero, List.getElem?_append_left hlt, List.getD_eq_getElem?_getD, List.getElem?_eq_getElem hlt]
      rfl
    | succ j =>
      have := e3 j (by omega)
      simp only [List.length_append, List.length_cons, List.length_nil, List.append_assoc, List.cons_append,
        List.nil_append] at this
      rw [List.getElem?_cons_succ, this]
      congr 1
      omega

end Sys2Proof.Machine
end

