-- ==== Sys2Proof/Machine/Script.lean ====
section
/-! DEFINITION. Host scripts (30_encoding R125-R128): each statement as the list of events it stands for. -/

namespace Sys2Proof.Machine

/-- The offset of a register (R31). -/
def Csr.offset (c : Csr) : Nat := 4 * csrMap.idxOf c

/-- The statements of R125, R126 and R127. A region operand is an address and a length. R125 says that a register name
stands for its offset, and leaves open whether WR and RD take a bare offset; here they do, as `wrAt` and `rdAt`, so that
a script can reach the reserved offsets (DESIGN CHOICE, entry 20). -/
inductive Stmt where
  | wr (c : Csr) (v : Word)
  | rd (c : Csr)
  | wrAt (offset : Nat) (v : Word)
  | rdAt (offset : Nat)
  | sb (offset : Nat) (bytes : List Byte)
  | ss (offset : Nat) (text : String)
  | sw (offset : Nat) (words : List Word)
  | sf (offset : Nat) (b : Byte) (n : Nat)
  | wait
  | cmd (i : Instr) (src : Option (Word × Word) := none) (dst : Option (Word × Word) := none)
      (arg0 : Option Word := none) (arg1 : Option Word := none)
  | cfg (w l m minSize ratio : Option Word)
  | srst
  | clr
  | irqOn
  | irqOff
deriving DecidableEq, Repr

/-- `WR` (R125). -/
def wrEvent (c : Csr) (v : Word) : Event := .host (.write .csr c.offset 32 v)

/-- `RD` (R125). -/
def rdEvent (c : Csr) : Event := .host (.read .csr c.offset 32)

/-- LMEM byte writes at successive offsets (R125). -/
def byteEvents (offset : Nat) : List Byte → List Event
  | [] => []
  | b :: bs => .host (.write .lmem offset 8 (b.zeroExtend 32)) :: byteEvents (offset + 1) bs

/-- LMEM word writes at successive offsets (R125). -/
def wordEvents (offset : Nat) : List Word → List Event
  | [] => []
  | v :: vs => .host (.write .lmem offset 32 v) :: wordEvents (offset + 4) vs

/-- A register write for an operand that is given (R126, R127). -/
def optEvent (c : Csr) : Option Word → List Event
  | some v => [wrEvent c v]
  | none => []

/-- The two register writes of a region operand that is given (R126). -/
def regionEvents (addr len : Csr) : Option (Word × Word) → List Event
  | some (a, n) => [wrEvent addr a, wrEvent len n]
  | none => []

/-- The ASCII codes of a text (R11, R125; entry 19). -/
def asciiBytes (text : String) : List Byte := text.toList.map fun c => BitVec.ofNat 8 c.toNat

/-- `WAIT` (R125): the sequencer has its turn, and the STATUS read that follows returns BUSY = 0 (entry 18). -/
def waitEvents : List Event := [.core, rdEvent .status]

/-- The expansion of a statement (R125-R127). -/
def Stmt.events : Stmt → List Event
  | .wr c v => [wrEvent c v]
  | .rd c => [rdEvent c]
  | .wrAt off v => [.host (.write .csr off 32 v)]
  | .rdAt off => [.host (.read .csr off 32)]
  | .sb off bs => byteEvents off bs
  | .ss off text => byteEvents off (asciiBytes text)
  | .sw off vs => wordEvents off vs
  | .sf off b n => byteEvents off (List.replicate n b)
  | .wait => waitEvents
  | .cmd i src dst arg0 arg1 =>
    regionEvents .srcAddr .srcLen src ++ regionEvents .dstAddr .dstCap dst ++ optEvent .arg0 arg0
      ++ optEvent .arg1 arg1 ++ [wrEvent .cmd (encode i)] ++ waitEvents
  | .cfg w l m minSize ratio =>
    optEvent .cfgWindow w ++ optEvent .cfgMaxlen l ++ optEvent .cfgMinmatch m ++ optEvent .cfgMinsize minSize
      ++ optEvent .cfgRatio ratio
  | .srst => [wrEvent .ctrl 0x2]
  | .clr => [wrEvent .status 0xE]
  | .irqOn => [wrEvent .ctrl 0x1]
  | .irqOff => [wrEvent .ctrl 0x0]

/-- The events of a whole script. -/
def scriptEvents (p : List Stmt) : List Event := p.flatMap Stmt.events

/-- A state with a script put before what is still to come. -/
def State.withScript (s : State) (p : List Stmt) : State := { s with schedule := scriptEvents p ++ s.schedule }

end Sys2Proof.Machine
end

