-- ==== Sys2Proof/Tests/Slice0.lean ====
section
/-! SUPPORT. Tests, their expected results from the vectors of 95_test_vectors.md (named in each docstring) or the rule
named; the ill-formed words that WellFormed refuses; and, for every obligation with hypotheses, a concrete state that
meets them, clause by clause. -/

namespace Sys2Proof.Tests

open Sys2Proof.Machine Sys2Proof.Config

/-! ## Small states -/

/-- A small legal block (R6). -/
def small : Params := { lmemSize := 4096, maxSymbols := 512 }

/-- Operands with source [0, n), destination [at, at + cap) and the two arguments. -/
def operands (n dst cap : Nat) (arg0 arg1 : Word) : LockedRegs :=
  { LockedRegs.reset with
    srcLen := BitVec.ofNat 32 n, dstAddr := BitVec.ofNat 32 dst, dstCap := BitVec.ofNat 32 cap, arg0 := arg0, arg1 := arg1 }

/-- A command latched in CUR and about to run, with the bytes `bs` written from offset 0. -/
def running (i : Instr) (r : LockedRegs) (bs : List Byte) (cb : Option Codebook) : State :=
  { State.resetOf small with
    sequencer := .busy { word := encode i, regs := r }, cmd := encode i, regs := r, lmem := cells 0 bs, cb := cb }

/-- The state after a command. -/
def ran (i : Instr) (s : State) : State :=
  match exec i s with
  | .next t => t
  | .fault _ => s
  | .refused _ => s

/-- The state after one step. -/
def stepped (s : State) : State :=
  match step s with
  | .next t => t
  | .fault _ => s
  | .refused _ => s

/-- The state after an event. -/
def after (s : State) (e : Event) : State :=
  match s.handle e with
  | .next t => t
  | .fault _ => s
  | .refused _ => s

/-- Results and error code of a command. -/
def results (t : State) : Nat × Nat × Nat × Nat := (t.res0.toNat, t.res1.toNat, t.res2.toNat, t.errcode.toNat)

/-- Error code and information. -/
def failure (t : State) : Nat × Nat := (t.errcode.toNat, t.errinfo.toNat)

/-- The codebook of "abracadabra" (vector H1). -/
def abra : Codebook :=
  [⟨0x61, [false]⟩, ⟨0x62, [true, true, false]⟩, ⟨0x63, [true, false, false]⟩, ⟨0x64, [true, false, true]⟩,
   ⟨0x72, [true, true, true]⟩]

/-- "abracadabra". -/
def abraText : List Byte := [0x61, 0x62, 0x72, 0x61, 0x63, 0x61, 0x64, 0x61, 0x62, 0x72, 0x61]

/-- B10 of section 2.2. -/
def b10 : List Byte := [1, 0, 1, 1, 0, 0, 1, 0, 1, 1]

theorem ran_eq (i : Instr) (s : State) : exec i s = .next (ran i s) := by
  simp [ran, exec_eq_runCommand]

theorem abra_legal : Codebook.Legal 512 abra := by unfold Codebook.Legal; decide

theorem running_inv (i : Instr) (r : LockedRegs) (bs : List Byte) (cb : Option Codebook) (hb : bs.length ≤ 4096)
    (hc : ∀ C, cb = some C → Codebook.Legal 512 C) : (running i r bs cb).Inv where
  params := (by decide : small.wellFormed = true)
  status := ⟨fun _ => ⟨rfl, rfl, rfl⟩, by simp [running, State.resetOf], by simp [running, State.resetOf]⟩
  hidden := fun _ => ⟨rfl, rfl, rfl, rfl⟩
  cur := by
    intro cur h
    simp only [running, Sequencer.busy.injEq] at h
    subst h
    exact ⟨rfl, rfl⟩
  codebook := hc
  lmem := by
    constructor
    · rw [wf_iff]; exact cells_pairwise 0 bs
    · rw [within_iff]
      intro c h
      have := mem_cells h
      simp only [running, State.resetOf, small]
      omega

theorem running_runs (i : Instr) (r : LockedRegs) (bs : List Byte) (cb : Option Codebook) (hb : bs.length ≤ 4096)
    (hc : ∀ C, cb = some C → Codebook.Legal 512 C) : (running i r bs cb).Runs i :=
  ⟨running_inv i r bs cb hb hc, _, rfl, rfl⟩

/-- Vector E23 as a script: a write to the reserved offset 0x60 is ignored without WERR, and the offset reads 0. -/
theorem test_script_reserved_offset :
    Sys2Proof.core.run 2 (State.reset.withScript [.wrAt 0x60 0x12345678, .rdAt 0x60]) =
      .next { State.reset with port := some (.data 0) } := by rfl

/-! ## WellFormed: each check refuses an ill-formed term -/

/-- R114: opcode 0x12 is reserved. -/
theorem test_opcode_refused : ({ opcode := 0x12, f0 := false, res := 0 } : CommandFields).wellFormed = false := by decide
/-- R114: a reserved bit is 1. -/
theorem test_reserved_refused : ({ opcode := 0x10, f0 := false, res := 1 } : CommandFields).wellFormed = false := by decide
/-- R114: F0 = 1 on NOP. -/
theorem test_flag_refused : ({ opcode := 0x00, f0 := true, res := 0 } : CommandFields).wellFormed = false := by decide
/-- R113: F0 = 1 on HENC is legal. -/
theorem test_flag_accepted : ({ opcode := 0x31, f0 := true, res := 0 } : CommandFields).wellFormed = true := by decide
/-- R6: LMEM_SIZE is a power of two from 2^12 to 2^24. -/
theorem test_lmem_size_refused :
    (Params.lmemSizeLegal { lmemSize := 5000, maxSymbols := 512 }, Params.lmemSizeLegal { lmemSize := 2048, maxSymbols := 512 },
      Params.lmemSizeLegal { lmemSize := 2 ^ 25, maxSymbols := 512 }, Params.lmemSizeLegal { lmemSize := 2 ^ 24, maxSymbols := 512 }) =
      (false, false, false, true) := by decide
/-- R6: MAX_SYMBOLS lies in [512, 2^20]. -/
theorem test_max_symbols_refused :
    (Params.maxSymbolsLegal { lmemSize := 4096, maxSymbols := 511 }, Params.maxSymbolsLegal { lmemSize := 4096, maxSymbols := 2 ^ 20 + 1 },
      Params.maxSymbolsLegal { lmemSize := 4096, maxSymbols := 2 ^ 20 }) = (false, false, true) := by decide

/-! ## Decoding: words written out from R110, R112, R113 -/

theorem test_decode_nop : decodeTableWord 32 0b00000000000000000000000000000000 = some .nop := by decide
theorem test_decode_bpack : decodeTableWord 32 0b00000000000000000000000000010000 = some (.bpack false) := by decide
theorem test_decode_bpack_p : decodeTableWord 32 0b00000000000000000000000100010000 = some (.bpack true) := by decide
theorem test_decode_bunpack : decodeTableWord 32 0b00000000000000000000000000010001 = some (.bunpack false) := by decide
theorem test_decode_bunpack_p : decodeTableWord 32 0b00000000000000000000000100010001 = some (.bunpack true) := by decide
theorem test_decode_vwrite : decodeTableWord 32 0b00000000000000000000000000100000 = some .vwrite := by decide
theorem test_decode_vread : decodeTableWord 32 0b00000000000000000000000000100001 = some .vread := by decide
theorem test_decode_hbuild : decodeTableWord 32 0b00000000000000000000000000110000 = some (.hbuild false) := by decide
theorem test_decode_hbuild_w : decodeTableWord 32 0b00000000000000000000000100110000 = some (.hbuild true) := by decide
theorem test_decode_henc : decodeTableWord 32 0b00000000000000000000000000110001 = some (.henc false) := by decide
/-- R128: `HENC.W` writes CMD = 0x00000131. -/
theorem test_decode_henc_w : decodeTableWord 32 0b00000000000000000000000100110001 = some (.henc true) := by decide
theorem test_decode_hdec : decodeTableWord 32 0b00000000000000000000000000110010 = some .hdec := by decide
theorem test_decode_hser : decodeTableWord 32 0b00000000000000000000000000110011 = some .hser := by decide
theorem test_decode_hdeser : decodeTableWord 32 0b00000000000000000000000000110100 = some .hdeser := by decide
theorem test_decode_hcode : decodeTableWord 32 0b00000000000000000000000000110101 = some .hcode := by decide
theorem test_decode_lzcomp : decodeTableWord 32 0b00000000000000000000000001000000 = some .lzcomp := by decide
theorem test_decode_lzdec : decodeTableWord 32 0b00000000000000000000000001000001 = some .lzdec := by decide
theorem test_decode_ccomp : decodeTableWord 32 0b00000000000000000000000001010000 = some .ccomp := by decide
theorem test_decode_cdec : decodeTableWord 32 0b00000000000000000000000001010001 = some .cdec := by decide
/-- Vectors E2, E3, E4: the three reasons of R114, by name. -/
theorem test_decode_refuses :
    ((decodeTableWord 32 0x100, decodeTableWord 32 0x12, decodeTableWord 32 0x210),
      (rejectReason 0x100, rejectReason 0x12, rejectReason 0x210)) =
      ((none, none, none), (.flagNotDefined, .unknownOpcode, .reservedBits)) := by decide

/-! ## Commands -/

/-- Vector E1. -/
theorem test_nop : (ran .nop (running .nop (operands 0 0 0 0 0) [] none)).statusWord = 0x00000002 := by decide
/-- Vector E3, and StepRuns: an illegal word completes with BadCommand. -/
theorem test_bad_command :
    failure (stepped { State.resetOf small with sequencer := .busy { word := 0x12, regs := LockedRegs.reset } }) =
      (12, 0x12) := by decide
/-- Vector P1. -/
theorem test_bpack_p :
    (results (ran (.bpack true) (running (.bpack true) (operands 10 64 8 0 0) b10 none)),
      (ran (.bpack true) (running (.bpack true) (operands 10 64 8 0 0) b10 none)).lmem.readBytes 64 3) =
      ((3, 10, 2, 0), [0x02, 0xB2, 0xC0]) := by decide
/-- Vector P7: only bit 0 of a source byte counts. -/
theorem test_bpack_bit0 :
    (ran (.bpack false) (running (.bpack false) (operands 3 64 8 0 0) [0x03, 0xFE, 0x81] none)).lmem.readBytes 64 1 =
      [0xA0] := by decide
/-- Vector P9. -/
theorem test_bunpack :
    (results (ran (.bunpack false) (running (.bunpack false) (operands 2 64 16 2 0) [0xB2, 0xC0] none)),
      (ran (.bunpack false) (running (.bunpack false) (operands 2 64 16 2 0) [0xB2, 0xC0] none)).lmem.readBytes 64 10) =
      ((10, 10, 2, 0), b10) := by decide
/-- Vectors P15 and P18. -/
theorem test_bunpack_fails :
    (failure (ran (.bunpack true) (running (.bunpack true) (operands 2 64 16 0 0) [0x08, 0xFF] none)),
      failure (ran (.bunpack true) (running (.bunpack true) (operands 3 64 9 0 0) [0x02, 0xB2, 0xC0] none))) =
      ((3, 0), (8, 1)) := by decide
/-- Vectors V7 and V8, the tier boundary. -/
theorem test_vwrite :
    ((ran .vwrite (running .vwrite (operands 0 64 5 16383 0) [] none)).lmem.readBytes 64 2,
      (ran .vwrite (running .vwrite (operands 0 64 5 16384 0) [] none)).lmem.readBytes 64 5) =
      ([0xBF, 0xFF], [0xFF, 0x00, 0x00, 0x40, 0x00]) := by decide
/-- Vectors V13, V15 and V17. -/
theorem test_vread :
    (results (ran .vread (running .vread (operands 3 64 0 1 0) [0x7F, 0x81, 0x2C] none)),
      results (ran .vread (running .vread (operands 2 64 0 0 0) [0xFE, 0xFF] none)),
      results (ran .vread (running .vread (operands 5 64 0 0 0) [0xFF, 0, 0, 0, 7] none))) =
      ((300, 3, 2, 0), (32511, 2, 2, 0), (7, 5, 5, 0)) := by decide
/-- Vectors V19 and V21: the cursor of the lead byte is the information. -/
theorem test_vread_fails :
    (failure (ran .vread (running .vread (operands 1 64 0 1 0) [0x05] none)),
      failure (ran .vread (running .vread (operands 1 64 0 0xFFFFFFFF 0) [0x05] none))) =
      ((2, 1), (2, 0xFFFFFFFF)) := by decide
/-- Vector H1. -/
theorem test_hbuild :
    (results (ran (.hbuild false) (running (.hbuild false) (operands 11 64 0 0 0) abraText none)),
      (ran (.hbuild false) (running (.hbuild false) (operands 11 64 0 0 0) abraText none)).cb) =
      ((5, 3, 11, 0), some abra) := by decide
/-- Vectors H7 and H10: a single symbol gets "1", and the lower frequency is on the left. -/
theorem test_hbuild_order :
    ((ran (.hbuild false) (running (.hbuild false) (operands 4 64 0 0 0) [0x7A, 0x7A, 0x7A, 0x7A] none)).cb,
      (ran (.hbuild false) (running (.hbuild false) (operands 3 64 0 0 0) [0x61, 0x61, 0x62] none)).cb) =
      (some [⟨0x7A, [true]⟩], some [⟨0x61, [true]⟩, ⟨0x62, [false]⟩]) := by decide
/-- Vector H2. -/
theorem test_henc :
    (results (ran (.henc false) (running (.henc false) (operands 11 64 8 0 0) abraText (some abra))),
      (ran (.henc false) (running (.henc false) (operands 11 64 8 0 0) abraText (some abra))).lmem.readBytes 64 4) =
      ((4, 23, 11, 0), [0x07, 0x6E, 0x8A, 0xDC]) := by decide
/-- Vector H13: the index of the first symbol without a code. -/
theorem test_henc_unknown :
    failure (ran (.henc false) (running (.henc false) (operands 3 64 8 0 0) [0x61, 0x62, 0x7A] (some abra))) = (6, 2) := by
  decide
/-- Vector H3, cut to its first word, and its results. -/
theorem test_hdec :
    (results (ran .hdec (running .hdec (operands 4 64 64 0 0) [0x07, 0x6E, 0x8A, 0xDC] (some abra))),
      (ran .hdec (running .hdec (operands 4 64 64 0 0) [0x07, 0x6E, 0x8A, 0xDC] (some abra))).lmem.readBytes 64 8) =
      ((44, 11, 23, 0), [0, 0, 0, 0x61, 0, 0, 0, 0x62]) := by decide
/-- Vector H16. -/
theorem test_hdec_tail :
    failure (ran .hdec (running .hdec (operands 2 64 64 0 0) [0x02, 0xC0] (some abra))) = (3, 0) := by decide
/-- Vector H4. -/
theorem test_hser :
    (ran .hser (running .hser (operands 0 64 16 0 0) [] (some abra))).lmem.readBytes 64 16 =
      [0x05, 0x61, 0x01, 0x00, 0x62, 0x03, 0xC0, 0x63, 0x03, 0x80, 0x64, 0x03, 0xA0, 0x72, 0x03, 0xE0] := by decide
/-- Vector H5. -/
theorem test_hdeser :
    (ran .hdeser (running .hdeser (operands 16 64 0 0 0)
      [0x05, 0x61, 0x01, 0x00, 0x62, 0x03, 0xC0, 0x63, 0x03, 0x80, 0x64, 0x03, 0xA0, 0x72, 0x03, 0xE0] none)).cb =
      some abra := by decide
/-- R220, R217: entries in descending order of symbol are accepted. -/
theorem test_hdeser_any_order :
    (ran .hdeser (running .hdeser (operands 7 64 0 0 0) [0x02, 0x62, 0x01, 0x80, 0x61, 0x01, 0x00] none)).cb =
      some [⟨0x61, [false]⟩, ⟨0x62, [true]⟩] := by decide
/-- Vector H6, and an unknown symbol (R222). -/
theorem test_hcode :
    (results (ran .hcode (running .hcode (operands 0 64 0 0x64 0) [] (some abra))),
      failure (ran .hcode (running .hcode (operands 0 64 0 0x65 0) [] (some abra)))) = ((3, 5, 0, 0), (6, 0)) := by decide
/-- Vector Z1. -/
theorem test_lzcomp :
    (results (ran .lzcomp (running .lzcomp (operands 10 64 24 0 0) (List.replicate 10 0x61) none)),
      (ran .lzcomp (running .lzcomp (operands 10 64 24 0 0) (List.replicate 10 0x61) none)).lmem.readBytes 64 24) =
      ((24, 2, 0, 0), [0, 0, 0, 0, 0, 0, 0, 0, 0, 0, 0, 0x61, 0, 0, 0, 1, 0, 0, 0, 9, 0, 0, 1, 0]) := by decide
/-- Vector Z2: an overlapping copy. -/
theorem test_lzdec :
    (results (ran .lzdec (running .lzdec (operands 24 64 10 0 0)
        [0, 0, 0, 0, 0, 0, 0, 0, 0, 0, 0, 0x61, 0, 0, 0, 1, 0, 0, 0, 9, 0, 0, 1, 0] none)),
      (ran .lzdec (running .lzdec (operands 24 64 10 0 0)
        [0, 0, 0, 0, 0, 0, 0, 0, 0, 0, 0, 0x61, 0, 0, 0, 1, 0, 0, 0, 9, 0, 0, 1, 0] none)).lmem.readBytes 64 10) =
      ((10, 2, 0, 0), List.replicate 10 0x61) := by decide
/-- R259: a first token with an offset has nothing behind it. -/
theorem test_lzdec_fails :
    failure (ran .lzdec (running .lzdec (operands 12 64 10 0 0) [0, 0, 0, 1, 0, 0, 0, 1, 0, 0, 0, 0x61] none)) = (5, 0) := by
  decide
/-- Vector K1, and that CB_VALID is cleared (R290). -/
theorem test_ccomp_empty :
    ((ran .ccomp (running .ccomp (operands 0 64 9 128 0) [] (some abra))).lmem.readBytes 64 9,
      (ran .ccomp (running .ccomp (operands 0 64 9 128 0) [] (some abra))).cb) =
      ([0x4F, 0x57, 0x4F, 0x32, 0, 0, 0, 0, 0], none) := by decide
/-- R293: the shortest record of marker 1 decodes to nothing. -/
theorem test_cdec_empty :
    results (ran .cdec (running .cdec (operands 8 64 9 128 0) [0x4F, 0x57, 0x4F, 0x32, 1, 0, 1, 0] none)) = (0, 8, 1, 0) := by
  decide
/-- Vector K5's form: a RAW record with payload, and a bad marker (R291). -/
theorem test_cdec_raw :
    (results (ran .cdec (running .cdec (operands 11 64 9 128 0) [0x4F, 0x57, 0x4F, 0x32, 0, 0, 0, 0, 2, 7, 8] none)),
      failure (ran .cdec (running .cdec (operands 5 64 9 128 0) [0x4F, 0x57, 0x4F, 0x32, 2] none))) =
      ((2, 11, 0, 0), (4, 4)) := by decide
/-- Vectors E8, E13 and E14. -/
theorem test_acceptance :
    (failure (ran (.bpack false) (running (.bpack false) { operands 2 64 8 0 0 with srcAddr := 0xFFFFFFFF } [] none)),
      failure (ran (.bunpack false) (running (.bunpack false) (operands 1 16 8 8 0) [0] none)),
      failure (ran (.henc false) (running (.henc false) (operands 1 16 8 0 0) [0] none))) =
      ((10, 1), (10, 6), (9, 0)) := by decide

/-! ## The port and the script statements -/

/-- Vectors E20 and E21: the lockout. -/
theorem test_lockout :
    ((after (running .nop (operands 0 0 0 0 0) [1] none) (.host (.write .csr 0x24 32 5))).werr,
      (after (running .nop (operands 0 0 0 0 0) [1] none) (.host (.write .csr 0x24 32 5))).regs.srcLen,
      (after (running .nop (operands 0 0 0 0 0) [1] none) (.host (.read .lmem 0 8))).port) =
      (true, 0, some (.data 0)) := by decide
/-- Vector E24, and E22's write to CTRL. -/
theorem test_bus :
    ((after State.reset (.host (.read .csr 0x14 16))).port,
      (after { State.reset with irqEn := true, done := true } (.host (.write .csr 0x10 32 3))).irqEn) =
      (some .busError, false) := by decide
/-- R128. -/
theorem test_script :
    (Stmt.cmd (.henc false) (some (0x0, 11)) (some (0x100, 64))).events =
      [.host (.write .csr 0x20 32 0), .host (.write .csr 0x24 32 11), .host (.write .csr 0x28 32 0x100),
       .host (.write .csr 0x2C 32 64), .host (.write .csr 0x18 32 0x00000031), .core, .host (.read .csr 0x14 32)] := by
  decide

/-! ## The hypotheses of the obligations are met

One theorem for each obligation with hypotheses, named after it, with a concrete case of each clause. Where a hypothesis
only says that exec answers, `ran_eq` gives the answer. -/

/-- Unfolds what a command's acceptance conditions say of a concrete state. -/
theorem accepts_running_bpack (p : Bool) :
    (running (.bpack p) (operands 10 64 8 0 0) b10 none).Accepts (.bpack p) := by
  simp only [State.Accepts, State.SourceFits, State.DestinationFits, State.SourceDestinationApart, Apart]
  cases p <;> decide

/-- Illegal for each of R114's reasons, at the boundary words: the opcode after the last of a group, bit 9, bit 31, F0 on
the last opcode. -/
theorem witness_IllegalWordsCompleteWithBadCommand :
    ((0x52 : Word).extractLsb' 0 8 ∉
        ([0x00, 0x10, 0x11, 0x20, 0x21, 0x30, 0x31, 0x32, 0x33, 0x34, 0x35, 0x40, 0x41, 0x50, 0x51] : List (BitVec 8))) ∧
    (0x200 : Word).getLsbD 9 = true ∧ (0x80000000 : Word).getLsbD 31 = true ∧
    ((0x151 : Word).getLsbD 8 = true ∧ (0x151 : Word).extractLsb' 0 8 ∉ ([0x10, 0x11, 0x30, 0x31] : List (BitVec 8))) ∧
    { State.reset with sequencer := .busy { word := 0x52, regs := LockedRegs.reset } }.sequencer =
      .busy { word := 0x52, regs := LockedRegs.reset } := by decide

theorem witness_StepRunsTheDecodedCommand :
    ∃ (s : State) (cur : Cur), s.sequencer = .busy cur ∧ decode cur.word = .ok .nop ∧ s.schedule = [] ∧
      { s with schedule := [.core] }.schedule = .core :: [] :=
  ⟨running .nop (operands 0 0 0 0 0) [] none, _, rfl, rfl, rfl, rfl⟩

theorem witness_CmdWriteAcceptsACommand :
    State.reset.busy = false ∧ (running .nop (operands 0 0 0 0 0) [] none).busy = true := ⟨rfl, rfl⟩

/-- Each check fails somewhere, at the boundary of its range, as the first one to fail; and all pass somewhere. -/
theorem witness_FirstFailingCheckEndsTheCommand :
    let at' := fun (i : Instr) (r : LockedRegs) => (running i r [] none).firstAcceptanceError i
    let bad := fun (k : ErrorKind) (n : Word) => some ({ kind := k, info := n } : Raise)
    at' .lzcomp { operands 1 64 8 0 0 with window := 0 } = bad .badConfig 0x44 ∧
    at' .lzcomp { operands 1 64 8 0 0 with maxLen := 0 } = bad .badConfig 0x48 ∧
    at' .ccomp { operands 1 64 8 0 0 with minMatch := 0 } = bad .badConfig 0x4C ∧
    at' (.bpack false) { operands 2 64 8 0 0 with srcAddr := 4095 } = bad .badOperand 1 ∧
    at' .vwrite (operands 0 4092 5 0 0) = bad .badOperand 2 ∧
    at' .cdec (operands 1 64 8 4092 5) = bad .badOperand 3 ∧
    at' (.hbuild true) (operands 6 64 8 0 0) = bad .badOperand 4 ∧
    at' .lzdec (operands 8 64 8 0 0) = bad .badOperand 4 ∧
    at' .hdec (operands 4 66 8 0 0) = bad .badOperand 4 ∧
    at' .cdec (operands 1 64 8 130 8) = bad .badOperand 4 ∧
    at' (.bpack false) (operands 9 8 8 0 0) = bad .badOperand 5 ∧
    at' (.bunpack false) (operands 1 16 8 8 0) = bad .badOperand 6 ∧
    at' .hcode (operands 0 0 0 0 0) = bad .noCodebook 0 ∧
    at' (.bpack false) (operands 8 8 8 0 0) = none ∧
    at' (.bpack false) { operands 0 0 0 0 0 with srcAddr := 4096 } = none := by decide

theorem witness_EveryCommandCompletes (i : Instr) : ∃ s : State, s.Runs i :=
  ⟨_, running_runs i (operands 0 64 8 128 8) [] none (by simp) (by simp)⟩

theorem witness_OperandsPersist :
    (after State.reset (.host (.write .csr 0x20 32 5))).regs ≠ State.reset.regs ∧
    (after State.reset (.host (.write .csr 0x54 32 5))).regs ≠ State.reset.regs ∧
    (after (after State.reset (.host (.write .csr 0x20 32 5))) .hardReset).regs ≠
      (after State.reset (.host (.write .csr 0x20 32 5))).regs := by decide

/-- A byte just beyond the one byte that VWRITE of 5 writes at 64, and one outside its region. -/
theorem witness_CommandsTouchOnlyTheirRegions :
    let s := running .vwrite (operands 0 64 8 5 0) [] none
    s.Runs .vwrite ∧ exec .vwrite s = .next (ran .vwrite s) ∧ (ran .vwrite s).err = false ∧
      Instr.vwrite.usesDestination = true ∧ s.operands.dstAddr.toNat + (ran .vwrite s).res0.toNat ≤ 65 ∧
      (Instr.vwrite.usesScratch = true → ¬ s.InScratch 65) ∧ ¬ s.MayWrite .vwrite 72 := by
  refine ⟨running_runs _ _ _ _ (by simp) (by simp), ran_eq _ _, by decide, rfl, by decide, by simp [Instr.usesScratch], ?_⟩
  simp [State.MayWrite, State.InDestination, Instr.usesScratch, running, operands, State.operands]

/-- An error after the checks (the destination is full), and an acceptance error (it leaves LMEM). -/
theorem witness_StateAfterAnError :
    (let s := running .vwrite (operands 0 64 0 5 0) [] none
     s.Runs .vwrite ∧ exec .vwrite s = .next (ran .vwrite s) ∧ (ran .vwrite s).err = true ∧ s.Accepts .vwrite) ∧
    (let s := running .vwrite (operands 0 4096 1 5 0) [] none
     s.Runs .vwrite ∧ exec .vwrite s = .next (ran .vwrite s) ∧ (ran .vwrite s).err = true ∧ ¬ s.Accepts .vwrite) := by
  refine ⟨⟨running_runs _ _ _ _ (by simp) (by simp), ran_eq _ _, by decide, ?_⟩,
    running_runs _ _ _ _ (by simp) (by simp), ran_eq _ _, by decide, ?_⟩ <;>
  · simp only [State.Accepts, State.DestinationFits]; decide

theorem witness_ErrorsAreThoseOfTheTable :
    let s := running .hcode (operands 0 0 0 0x65 0) [] (some abra)
    s.Runs .hcode ∧ exec .hcode s = .next (ran .hcode s) ∧ (ran .hcode s).err = true ∧
      ErrorListed s.operands.arg0 .hcode (ran .hcode s).errcode.toNat (ran .hcode s).errinfo := by
  refine ⟨running_runs _ _ _ _ (by simp) (by intro C h; cases h; exact abra_legal), ran_eq _ _, by decide, ?_⟩
  simp only [ErrorListed]; decide

/-- Two states that differ in WERR, in IRQ_EN and in an LMEM byte outside the source. -/
theorem witness_ResultsAreAFunctionOfTheInputs :
    let s₁ := running (.bpack true) (operands 2 64 8 0 0) [1, 0, 9] none
    let s₂ := { running (.bpack true) (operands 2 64 8 0 0) [1, 0, 7] none with werr := true, irqEn := true }
    s₁.params = s₂.params ∧ s₁.operands = s₂.operands ∧ s₁.source = s₂.source ∧ s₁.cb = s₂.cb ∧
      s₁.lmem ≠ s₂.lmem ∧ exec (.bpack true) s₁ = .next (ran (.bpack true) s₁) ∧
      exec (.bpack true) s₂ = .next (ran (.bpack true) s₂) ∧ (ran (.bpack true) s₁).err = false ∧
      s₁.Runs (.bpack true) ∧ s₂.Runs (.bpack true) := by
  refine ⟨rfl, rfl, by decide, rfl, by decide, ran_eq _ _, ran_eq _ _, by decide,
    running_runs _ _ _ _ (by simp) (by simp), ?_, _, rfl, rfl⟩
  obtain ⟨h1, h2, h3, h4, h5, h6⟩ :=
    running_inv (.bpack true) (operands 2 64 8 0 0) [1, 0, 7] none (by simp) (by simp)
  exact ⟨h1, h2, h3, h4, h5, h6⟩

/-- A successful HBUILD, a failed HDESER, a CCOMP, and an HBUILD turned away. -/
theorem witness_CodebookIsReplacedAsStated :
    (let s := running (.hbuild false) (operands 1 64 8 0 0) [7] none
     s.Runs (.hbuild false) ∧ s.Accepts (.hbuild false) ∧ (ran (.hbuild false) s).err = false) ∧
    (let s := running .hdeser (operands 1 64 8 0 0) [0x80] none
     s.Runs .hdeser ∧ s.Accepts .hdeser ∧ (ran .hdeser s).err = true) ∧
    (let s := running .ccomp (operands 0 64 9 128 0) [] (some abra)
     s.Runs .ccomp ∧ s.Accepts .ccomp) ∧
    (let s := running (.hbuild true) (operands 6 64 8 0 0) [] (some abra)
     s.Runs (.hbuild true) ∧ ¬ s.Accepts (.hbuild true)) := by
  refine ⟨⟨running_runs _ _ _ _ (by simp) (by simp), ?_, by decide⟩, ⟨running_runs _ _ _ _ (by simp) (by simp), ?_, by decide⟩,
    ⟨running_runs _ _ _ _ (by simp) (by intro C h; cases h; exact abra_legal), ?_⟩,
    running_runs _ _ _ _ (by simp) (by intro C h; cases h; exact abra_legal), ?_⟩ <;>
  · simp only [State.Accepts, State.SourceFits, State.DestinationFits, State.ScratchFits, State.SourceAligned,
      State.SourceDestinationApart, State.SourceScratchApart, State.DestinationScratchApart, Apart]
    decide

theorem witness_ResetStateMeetsTheInvariant : Params.default.wellFormed = true ∧ small.wellFormed = true := by decide

/-- The invariant holds before a step that runs a command, and before one that takes a host access. -/
theorem witness_EveryStepKeepsTheInvariant :
    (let s := running .hser (operands 0 64 16 0 0) [] (some abra)
     s.Inv ∧ step s = .next (stepped s)) ∧
    (let s := { running .hser (operands 0 64 16 0 0) [] (some abra) with
                schedule := [.host (.write .csr 0x10 32 2)] }
     s.Inv ∧ step s = .next (stepped s)) := by
  have h := running_inv .hser (operands 0 64 16 0 0) [] (some abra) (by simp) (by intro C h; cases h; exact abra_legal)
  obtain ⟨h1, h2, h3, h4, h5, h6⟩ := h
  exact ⟨⟨⟨h1, h2, h3, h4, h5, h6⟩, rfl⟩, ⟨h1, h2, h3, h4, h5, h6⟩, rfl⟩

/-- ERR = 1 with DONE = 0: after the host cleared DONE alone. -/
theorem witness_StatusIsNeverIllegal :
    let s := ran .hcode (running .hcode (operands 0 0 0 0x65 0) [] (some abra))
    let e : Event := .host (.write .csr 0x14 32 2)
    s.handle e = .next (after s e) ∧ (after s e).err = true ∧ (after s e).done = false ∧
      (2 : Word).getLsbD 1 = true ∧ (2 : Word).getLsbD 2 = false := by
  refine ⟨rfl, by decide, by decide, by decide, by decide⟩

/-- The reset input and the soft reset, with IRQ_EN set by the same write, over a running command. -/
theorem witness_ResetAbandonsTheRunningCommand :
    Event.IsReset .hardReset ∧ Event.IsReset (.host (.write .csr 0x10 32 3)) ∧
    (let s := running .vwrite (operands 0 4088 8 5 0) [] none
     s.handle .hardReset = .next (after s .hardReset) ∧
     s.handle (.host (.write .csr 0x10 32 3)) = .next (after s (.host (.write .csr 0x10 32 3))) ∧
     s.sequencer = .busy { word := 0x20, regs := operands 0 4088 8 5 0 } ∧ decode 0x20 = .ok .vwrite ∧
     4095 < s.params.lmemSize ∧ s.MayWrite .vwrite 4095 ∧ ¬ s.MayWrite .vwrite 4096) := by
  refine ⟨.inl rfl, .inr ⟨3, by decide, rfl⟩, rfl, rfl, rfl, rfl, by decide, ?_, ?_⟩ <;>
  simp [State.MayWrite, State.InDestination, Instr.usesScratch, Instr.usesDestination, running, operands, State.operands]

theorem witness_ResetGivesEveryRegisterItsValue :
    Event.IsReset .hardReset ∧ Event.IsReset (.host (.write .csr 0x10 32 3)) ∧
    (let s := running .vwrite (operands 0 4088 8 5 0) [] none
     s.handle .hardReset = .next (after s .hardReset) ∧
     s.handle (.host (.write .csr 0x10 32 3)) = .next (after s (.host (.write .csr 0x10 32 3)))) :=
  ⟨.inl rfl, .inr ⟨3, by decide, rfl⟩, rfl, rfl⟩

/-- Illegal: a width of 16, a misaligned offset, offsets just outside; legal: the last ones inside. -/
theorem witness_IllegalAccessesHaveNoEffect :
    ¬ CsrAccessLegal 0x14 16 ∧ ¬ CsrAccessLegal 0x16 32 ∧ ¬ CsrAccessLegal 0x100 32 ∧ CsrAccessLegal 0xFC 32 ∧
    ¬ LmemAccessLegal 4096 4096 8 ∧ LmemAccessLegal 4096 4095 8 ∧ ¬ LmemAccessLegal 4096 4094 32 ∧
    LmemAccessLegal 4096 4092 32 ∧ ¬ LmemAccessLegal 4096 0 16 := by
  unfold CsrAccessLegal LmemAccessLegal; decide

theorem witness_LmemWordsAreBigEndian :
    State.reset.busy = false ∧ (2 ^ 18 - 4) % 4 = 0 ∧ 2 ^ 18 - 4 + 4 ≤ State.reset.params.lmemSize ∧
      2 ^ 18 - 1 < State.reset.params.lmemSize ∧ CsrAccessLegal 0xFC 32 := by unfold CsrAccessLegal; decide

theorem witness_RegistersReadBackWhatWasWritten :
    State.reset.busy = false ∧ 0x20 ∈ lockedOffsets ∧ 0x54 ∈ lockedOffsets ∧ 0xFC < 0x100 ∧ 0xFC % 4 = 0 := by decide

theorem witness_CodebookCountAndMaxLen :
    State.reset.cb = none ∧ (running .nop (operands 0 0 0 0 0) [] (some abra)).Inv ∧
      (running .nop (operands 0 0 0 0 0) [] (some [])).Inv ∧ abra ≠ [] :=
  ⟨rfl, running_inv _ _ _ _ (by simp) (by intro C h; cases h; exact abra_legal),
    running_inv _ _ _ _ (by simp) (by intro C h; cases h; unfold Codebook.Legal; decide), by decide⟩

theorem witness_InterruptFollowsDone :
    (let s := running .nop (operands 0 0 0 0 0) [] none
     s.handle .core = .next (after s .core) ∧ s.done = false ∧ (after s .core).done = true ∧ s.busy = true) ∧
    (2 : Word).getLsbD 1 = true ∧ State.reset.busy = false ∧ (0xFFFFFFFD : Word).getLsbD 1 = false ∧
    (0xFFFFFFFD : Word).getLsbD 0 = true ∧ (0xFFFFFFFC : Word).getLsbD 1 = false ∧ (0xFFFFFFFC : Word).getLsbD 0 = false := by
  exact ⟨⟨rfl, rfl, by decide, rfl⟩, by decide, rfl, by decide, by decide, by decide, by decide⟩

/-- Locked writes at the ends of the list and LMEM accesses at the ends of LMEM set WERR; W1C clears it. -/
theorem witness_WriteErrorsAreRecorded :
    (let s := running .nop (operands 0 0 0 0 0) [] none
     s.busy = true ∧ (after s (.host (.write .csr 0x18 32 0))).werr = true ∧
     (after s (.host (.write .csr 0x54 32 0))).werr = true ∧ (after s (.host (.read .lmem 4095 8))).werr = true ∧
     (after s (.host (.write .lmem 4092 32 0))).werr = true ∧ (after s (.host (.read .lmem 4096 8))).werr = false) ∧
    (after { State.reset with werr := true } (.host (.write .csr 0x14 32 8))).werr = false := by decide

theorem witness_LockoutWhileBusy :
    (running .nop (operands 0 0 0 0 0) [] none).busy = true ∧ 0x20 ∈ lockedOffsets ∧ 0x5C ∈ readOnlyOffsets ∧
      (0 : Word).getLsbD 1 = false ∧ (2 : Word).getLsbD 1 = true ∧ State.reset.busy = false ∧
      (after { State.reset with werr := true } (.host (.read .csr 0 32))).werr = true := by decide

/-- BPACK with a destination that just fits, and one byte short. -/
theorem witness_BpackPacksItsSource :
    (running (.bpack true) (operands 8 64 2 0 0) b10 none).Accepts (.bpack true) ∧ ceil8 8 + true.toNat ≤ 2 ∧
    (running (.bpack true) (operands 9 64 2 0 0) b10 none).Accepts (.bpack true) ∧ 2 < ceil8 9 + true.toNat := by
  simp only [State.Accepts, State.SourceFits, State.DestinationFits, State.SourceDestinationApart, Apart]; decide

/-- BUNPACK: malformed at the boundaries of each reason; a count of 7; a destination one byte short. -/
theorem witness_BunpackUnpacksItsSource :
    (running (.bunpack true) (operands 0 64 16 0 0) [] none).Accepts (.bunpack true) ∧
    (running (.bunpack true) (operands 0 64 16 0 0) [] none).source = [] ∧
    (running (.bunpack true) (operands 2 64 16 0 0) [8, 0xFF] none).source = [8, 0xFF] ∧
    (running (.bunpack true) (operands 1 64 16 0 0) [1] none).source = [1] ∧
    (running (.bunpack false) (operands 2 64 15 7 0) [1, 2] none).Accepts (.bunpack false) ∧
    (unpackMSB [1, 2] 7).length = 15 ∧ (unpackMSB [1, 2] 0).length = 16 := by
  simp only [State.Accepts, State.SourceFits, State.DestinationFits, State.SourceDestinationApart, Apart]; decide

theorem witness_VwriteWritesTheVarint :
    (running .vwrite (operands 0 4091 5 16384 0) [] none).Accepts .vwrite ∧
    (running .vwrite (operands 0 4096 0 16383 0) [] none).Accepts .vwrite := by
  simp only [State.Accepts, State.DestinationFits]; decide

/-- VREAD: the last byte of each tier inside the source, and each tier cut off by one. -/
theorem witness_VreadReadsTheVarint :
    (running .vread (operands 5 64 0 0 0) [0xFF, 0, 0, 0, 7] none).Accepts .vread ∧
    (running .vread (operands 5 64 0 0 0) [0xFF, 0, 0, 0, 7] none).source = [0xFF, 0, 0, 0, 7] ∧
    (running .vread (operands 4 64 0 0 0) [0xFF, 0, 0, 0] none).source = [0xFF, 0, 0, 0] ∧
    (running .vread (operands 2 64 0 0 0) [0xFE, 0xFF] none).source = [0xFE, 0xFF] ∧
    (running .vread (operands 1 64 0 0 0) [0x80] none).source = [0x80] ∧
    (running .vread (operands 1 64 0 1 0) [0x7F] none).source = [0x7F] := by
  simp only [State.Accepts, State.SourceFits]; decide

/-- HBUILD: at MAX_SYMBOLS, above it, and a codebook within the length limit. -/
theorem witness_HbuildInstallsTheCodebook :
    (let s := running (.hbuild false) (operands 2 64 0 0 0) [1, 2] none
     s.Accepts (.hbuild false) ∧ (s.symbols false).dedup.length ≤ s.params.maxSymbols ∧
       ∀ e ∈ codebookOf (freqTable (s.symbols false)), e.code.length ≤ 32) ∧
    (let s := { running (.hbuild false) (operands 2 64 0 0 0) [1, 2] none with
                params := { lmemSize := 4096, maxSymbols := 1 } }
     s.Accepts (.hbuild false) ∧ s.params.maxSymbols < (s.symbols false).dedup.length) := by
  simp only [State.Accepts, State.SourceFits, State.SourceAligned]; decide

/-- Bytes 0 to m - 1, byte k as often as the (k + 1)-th Fibonacci number says. -/
def fibText (m : Nat) : List Byte := (List.range m).flatMap fun k => List.replicate (Nat.fib (k + 1)) (BitVec.ofNat 8 k)

/-- The frequencies of those bytes. -/
def fibTable (m : Nat) : List (Word × Nat) := (List.range m).map fun k => (BitVec.ofNat 32 k, Nat.fib (k + 1))

theorem countSymbol_after (F : List (Word × Nat)) (a : Word) (k : Nat) (h : ∀ p ∈ F, p.1.toNat < a.toNat) :
    countSymbol a F = F ++ [(a, 1)] ∧ countSymbol a (F ++ [(a, k)]) = F ++ [(a, k + 1)] := by
  induction F with
  | nil => simp [countSymbol]
  | cons p F ih =>
    obtain ⟨h1, h2⟩ := List.forall_mem_cons.mp h
    have h3 : a ≠ p.1 := fun e => by subst e; omega
    simp [countSymbol, h3, Nat.not_lt.mpr (Nat.le_of_lt h1), ih h2]

theorem count_replicate (F : List (Word × Nat)) (a : Word) (n : Nat) (h : ∀ p ∈ F, p.1.toNat < a.toNat) :
    (List.replicate (n + 1) a).foldl (fun F s => countSymbol s F) F = F ++ [(a, n + 1)] := by
  induction n with
  | zero => simpa using (countSymbol_after F a 0 h).1
  | succ n ih => rw [List.replicate_succ', List.foldl_append, ih]; exact (countSymbol_after F a _ h).2

theorem freqTable_fibText (m : Nat) (hm : m ≤ 256) : freqTable ((fibText m).map (·.zeroExtend 32)) = fibTable m := by
  induction m with
  | zero => rfl
  | succ m ih =>
    have h8 : (BitVec.ofNat 8 m).zeroExtend 32 = BitVec.ofNat 32 m := by
      apply BitVec.eq_of_toNat_eq; simp; omega
    obtain ⟨n, hn⟩ := Nat.exists_eq_succ_of_ne_zero (Nat.fib_pos.mpr m.succ_pos).ne'
    have hk : ∀ p ∈ fibTable m, p.1.toNat < (BitVec.ofNat 32 m).toNat := by
      intro p hp
      obtain ⟨k, hk, rfl⟩ := List.mem_map.mp hp
      have := List.mem_range.mp hk
      simp; omega
    rw [fibText, List.range_succ, List.flatMap_append, List.map_append, freqTable, List.foldl_append]
    have hF := ih (by omega)
    rw [freqTable, fibText] at hF
    rw [hF]
    simp only [List.flatMap_cons, List.flatMap_nil, List.append_nil, List.map_replicate, h8, hn]
    rw [count_replicate _ _ _ hk]
    simp [fibTable, List.range_succ, hn]

theorem fibText_length : (fibText 34).length = 14930351 := by
  simp only [fibText, List.length_flatMap, List.length_replicate]; decide

/-- The state of R209's error: 34 byte symbols in a block of 2^24 bytes, with counts 1, 1, 2, 3, 5, … -/
def tooLong : State :=
  let r := { LockedRegs.reset with srcLen := 14930351 }
  { State.resetOf { lmemSize := 2 ^ 24, maxSymbols := 512 } with
    sequencer := .busy { word := 0x30, regs := r }, cmd := 0x30, regs := r, lmem := Memory.writeBytes [] 0 (fibText 34) }

theorem tooLong_symbols : tooLong.symbols false = (fibText 34).map (·.zeroExtend 32) := by
  have : tooLong.source = fibText 34 := by
    have h := readBytes_writeBytes [] 0 (fibText 34)
    rw [fibText_length] at h
    exact h
  simp only [State.symbols, this, Bool.false_eq_true, if_false]

/-- HBUILD: frequencies that grow like the Fibonacci numbers put the rarest two symbols at depth 33. -/
theorem witness_HbuildTooLong :
    tooLong.Accepts (.hbuild false) ∧ (tooLong.symbols false).dedup.length ≤ tooLong.params.maxSymbols ∧
      ∃ e ∈ codebookOf (freqTable (tooLong.symbols false)), 32 < e.code.length := by
  rw [tooLong_symbols]
  refine ⟨⟨by unfold State.SourceFits; decide, nofun⟩, ?_, ?_⟩
  · rw [← freqTable_length, freqTable_fibText 34 (by decide)]; decide
  · rw [freqTable_fibText 34 (by decide)]
    have h : (codebookOf (fibTable 34)).any (fun e => 32 < e.code.length) = true := by decide
    simpa using List.any_eq_true.mp h

/-- HENC: a symbol without a code at index 2, the first one; and a source all of whose symbols have codes. -/
theorem witness_HencEncodesItsSource :
    (running (.henc false) (operands 3 64 8 0 0) [0x61, 0x62, 0x7A] (some abra)).Accepts (.henc false) ∧
    (running (.henc false) (operands 3 64 8 0 0) [0x61, 0x62, 0x7A] (some abra)).symbols false = [0x61, 0x62, 0x7A] ∧
    ([0x61, 0x62, 0x7A] : List Word)[2]? = some 0x7A ∧ abra.codeOf 0x7A = none ∧
    ([0x61, 0x62, 0x7A] : List Word).take 2 = [0x61, 0x62] ∧
    ([0x61, 0x62] : List Word).map abra.codeOf = [[false], [true, true, false]].map some := by
  refine ⟨?_, by decide, by decide, by decide, by decide, by decide⟩
  simp only [State.Accepts, State.SourceFits, State.SourceAligned, State.DestinationFits, State.SourceDestinationApart, Apart]; decide

/-- HDEC: bits "0110" are the codes of a and b with no tail, "011" one code and a tail. -/
theorem witness_HdecDecodesItsSource :
    (running .hdec (operands 2 64 8 0 0) [4, 0x60] (some abra)).Accepts .hdec ∧
    unpackMSB [0x60] 4 = [[false], [true, true, false]].flatten ++ [] ∧
    List.Forall₂ (Codebook.Emits abra) [[false], [true, true, false]] [0x61, 0x62] ∧ Codebook.Stuck abra [true, true] ∧
    Codebook.Stuck abra [] ∧ (running .hdec (operands 2 64 8 0 0) [4, 0x60] (some abra)).CodebookLegal := by
  refine ⟨?_, by decide, .cons ⟨by decide, ?_⟩ (.cons ⟨by decide, ?_⟩ .nil), ?_, ?_, ?_⟩
  · simp only [State.Accepts, State.SourceFits, State.DestinationFits, State.SourceDestinationApart, Apart]; decide
  · intro u v h hu hv
    match u, v, h with
    | [], _, _ => exact absurd rfl hu
    | _ :: _, [], _ => exact absurd rfl hv
    | _ :: _ :: _, _ :: _, h => simp at h
    | [_], _ :: _, h => simp at h
  · intro u v h hu hv
    match u, v, h with
    | [], _, _ => exact absurd rfl hu
    | _, [], _ => exact absurd rfl hv
    | [a], _ :: _, h => simp at h; obtain ⟨rfl, -⟩ := h; decide
    | [a, b], _ :: _, h => simp at h; obtain ⟨rfl, rfl, -⟩ := h; decide
    | _ :: _ :: _ :: _, _ :: _, h => simp at h
  · intro u v h hu
    match u, v, h with
    | [], _, _ => exact absurd rfl hu
    | [a], _, h => simp at h; obtain ⟨rfl, -⟩ := h; decide
    | [a, b], _, h => simp at h; obtain ⟨rfl, rfl, -⟩ := h; decide
    | _ :: _ :: _ :: _, _, h => simp at h
  · intro u v h hu
    match u, v, h with
    | [], _, _ => exact absurd rfl hu
  · intro C h; cases h; exact abra_legal

/-- HSER of a codebook that just fits, and one byte short. -/
theorem witness_HserWritesTheCodebook :
    (running .hser (operands 0 64 16 0 0) [] (some abra)).Accepts .hser ∧
    (running .hser (operands 0 64 15 0 0) [] (some abra)).Accepts .hser ∧
    varintLen abra.length +
      (abra.map fun e => varintLen e.sym.toNat + varintLen e.code.length + ceil8 e.code.length).sum = 16 := by
  simp only [State.Accepts, State.DestinationFits]; decide

/-- HDESER of two entries in descending order with a byte left over; and of a source that parseCB refuses. -/
theorem witness_HdeserInstallsTheCodebook :
    (let s := running .hdeser (operands 8 64 0 0 0) [0x02, 0x62, 0x01, 0x80, 0x61, 0x01, 0x00, 0x55] none
     let E : List Entry := [⟨0x62, [true]⟩, ⟨0x61, [false]⟩]
     s.Accepts .hdeser ∧ s.params.wellFormed = true ∧ E.length ≤ s.params.maxSymbols ∧
       (∀ e ∈ E, 1 ≤ e.code.length ∧ e.code.length ≤ 32) ∧ E.Pairwise (fun d e => d.sym ≠ e.sym) ∧
       E.Pairwise (fun d e => d.code ≠ e.code) ∧
       s.source = varintBytes E.length ++
         E.flatMap (fun e => varintBytes e.sym.toNat ++ varintBytes e.code.length ++ packMSB e.code) ++ [0x55]) ∧
    parseCB 512 (running .hdeser (operands 1 64 0 0 0) [0x80] none).source 0 = .error { kind := .malformedVarInt, info := 0 } := by
  refine ⟨?_, by rfl⟩
  simp only [State.Accepts, State.SourceFits]; decide

/-- A codebook of one entry whose count is a varint of two bytes and whose padding is not 0, with a byte behind it. -/
theorem codebookAt_witness :
    CodebookAt 512 [0x80, 0x01, 0x61, 0x01, 0x7F, 0x55] 0 [⟨0x61, [false]⟩] 5 := by
  refine ⟨2, by unfold VarintAt; decide, by decide, ⟨5, ⟨3, 4, by unfold VarintAt; decide, by unfold VarintAt; decide, ?_⟩, rfl⟩,
    List.pairwise_singleton _ _⟩
  refine ⟨by decide, by decide, by decide, by decide, by decide⟩

theorem witness_HdeserInstallsTheCodebook_wire :
    CodebookAt 512 (running .hdeser (operands 6 64 0 0 0) [0x80, 0x01, 0x61, 0x01, 0x7F, 0x55] none).source 0
      [⟨0x61, [false]⟩] 5 ∧
    results (ran .hdeser (running .hdeser (operands 6 64 0 0 0) [0x80, 0x01, 0x61, 0x01, 0x7F, 0x55] none)) =
      (1, 5, 1, 0) := ⟨codebookAt_witness, by decide⟩

/-- The entry 'a' with the code "0" at cursor 1. -/
theorem entryAt_witness (bs : List Byte) : EntryAt ([2, 0x61, 1, 0] ++ bs) 1 ⟨0x61, [false]⟩ 4 := by
  refine ⟨2, 3, .inl ⟨by simp, by simp [byteAt], by simp [byteAt], rfl⟩, .inl ⟨by simp, by simp [byteAt], by simp [byteAt], rfl⟩, by decide, by decide,
    by decide, by simp, fun j hj => ?_⟩
  obtain rfl : j = 0 := by simpa using hj
  simp

/-- Each failure of a codebook on the wire, and what HDESER reports. -/
theorem witness_HdeserInstallsTheCodebook_failures :
    let run := fun bs => failure (ran .hdeser (running .hdeser (operands (List.length bs) 64 0 0 0) bs none))
    let mal := fun n => ({ kind := .malformedVarInt, info := n } : Raise)
    let cor := fun n => ({ kind := .corruptBitstream, info := n } : Raise)
    (CodebookFails 512 [] 0 (mal 0) ∧ run [] = (2, 0)) ∧
    (CodebookFails 512 [0x82, 0x01] 0 { kind := .capacityExceeded, info := 3 } ∧ run [0x82, 0x01] = (8, 3)) ∧
    (CodebookFails 512 [1] 0 (mal 1) ∧ run [1] = (2, 1)) ∧
    (CodebookFails 512 [1, 0x61] 0 (mal 2) ∧ run [1, 0x61] = (2, 2)) ∧
    (CodebookFails 512 [1, 0x61, 0] 0 (cor 1) ∧ run [1, 0x61, 0] = (3, 1)) ∧
    (CodebookFails 512 [1, 0x61, 33] 0 { kind := .capacityExceeded, info := 4 } ∧ run [1, 0x61, 33] = (8, 4)) ∧
    (CodebookFails 512 [1, 0x61, 1] 0 { kind := .truncatedPayload, info := 3 } ∧ run [1, 0x61, 1] = (7, 3)) ∧
    (CodebookFails 512 [2, 0x61, 1, 0, 0x61, 1, 0x80] 0 (cor 4) ∧ run [2, 0x61, 1, 0, 0x61, 1, 0x80] = (3, 4)) ∧
    (CodebookFails 512 [2, 0x61, 1, 0, 0x62, 1, 0] 0 (cor 4) ∧ run [2, 0x61, 1, 0, 0x62, 1, 0] = (3, 4)) := by
  have one : ∀ (bs : List Byte) e, VarintAt bs 0 1 1 → EntryFails bs [] 1 e → CodebookFails 512 bs 0 e := fun bs e h1 h2 =>
    .inr (.inr ⟨1, 1, [], 1, h1, by decide, rfl, List.Pairwise.nil, by decide, h2⟩)
  have two : ∀ (bs : List Byte) x e, EntryAt ([2, 0x61, 1, 0] ++ bs) 4 x 7 → (0x61 = x.sym ∨ [false] = x.code) →
      e = ({ kind := .corruptBitstream, info := BitVec.ofNat 32 4 } : Raise) →
      CodebookFails 512 ([2, 0x61, 1, 0] ++ bs) 0 e := fun bs x e h1 h2 h3 =>
    .inr (.inr ⟨2, 1, [⟨0x61, [false]⟩], 4, .inl ⟨by simp, by simp [byteAt], by simp [byteAt], rfl⟩, by decide,
      ⟨4, entryAt_witness bs, rfl⟩, List.pairwise_singleton _ _, by decide,
      .inr (.inr (.inr (.inr (.inr ⟨x, 7, h1, ⟨_, List.mem_singleton.mpr rfl, h2⟩, h3⟩))))⟩)
  refine ⟨⟨.inl ⟨.inl (by decide), by decide⟩, by decide⟩,
    ⟨.inr (.inl ⟨513, 2, by unfold VarintAt; decide, by decide, rfl⟩), by decide⟩,
    ⟨one _ _ (by unfold VarintAt; decide) (.inl ⟨by unfold VarintCut; decide, by decide⟩), by decide⟩,
    ⟨one _ _ (by unfold VarintAt; decide)
      (.inr (.inl ⟨0x61, 2, by unfold VarintAt; decide, by unfold VarintCut; decide, by decide⟩)), by decide⟩,
    ⟨one _ _ (by unfold VarintAt; decide)
      (.inr (.inr (.inl ⟨0x61, 2, 3, by unfold VarintAt; decide, by unfold VarintAt; decide, by decide⟩))), by decide⟩,
    ⟨one _ _ (by unfold VarintAt; decide) (.inr (.inr (.inr (.inl
      ⟨0x61, 2, 33, 3, by unfold VarintAt; decide, by unfold VarintAt; decide, by decide, rfl⟩)))), by decide⟩,
    ⟨one _ _ (by unfold VarintAt; decide) (.inr (.inr (.inr (.inr (.inl
      ⟨0x61, 2, 1, 3, by unfold VarintAt; decide, by unfold VarintAt; decide, by decide, by decide, by decide, by decide⟩))))),
      by decide⟩,
    ⟨two [0x61, 1, 0x80] ⟨0x61, [true]⟩ _ ⟨5, 6, by unfold VarintAt; decide, by unfold VarintAt; decide, by decide, by decide,
      by decide, by decide, by decide⟩ (.inl rfl) (by decide), by decide⟩,
    ⟨two [0x62, 1, 0] ⟨0x62, [false]⟩ _ ⟨5, 6, by unfold VarintAt; decide, by unfold VarintAt; decide, by decide, by decide,
      by decide, by decide, by decide⟩ (.inr rfl) (by decide), by decide⟩⟩

theorem witness_HcodeLooksUpACode :
    (running .hcode (operands 0 0 0 0x64 0) [] (some abra)).Accepts .hcode ∧ abra.codeOf 0x64 = some [true, false, true] ∧
      abra.codeOf 0x65 = none := by
  simp only [State.Accepts]; decide

/-- LZCOMP of ten equal bytes: two tokens that just fit, and one byte short. -/
theorem witness_LzcompWritesTheTokens :
    (running .lzcomp (operands 10 64 24 0 0) (List.replicate 10 0x61) none).Accepts .lzcomp ∧
    (running .lzcomp (operands 10 64 23 0 0) (List.replicate 10 0x61) none).Accepts .lzcomp ∧
    (running .lzcomp (operands 10 64 24 0 0) (List.replicate 10 0x61) none).sourceTokens.length = 2 := by
  simp only [State.Accepts, State.SourceFits, State.DestinationFits, State.SourceDestinationApart, Apart]; decide

/-- A literal 'a' and then the token `k`, replayed into `cap` bytes. -/
def replaying (k : Token) (cap : Nat) : State :=
  running .lzdec (operands 24 64 cap 0 0) (be32 0 ++ be32 0 ++ be32 0x61 ++ k.words.flatMap be32) none

/-- One token for each outcome behind a literal: checks (a), (b) and (c), check (d) at its boundary and the same token one
byte wider, a zero-length copy, and a literal NONE (vectors Z15 to Z20). -/
theorem witness_LzdecReplaysTheTokens_tokens :
    (∀ k ∈ ([⟨0, 3, 0x61⟩, ⟨2, 1, 0x62⟩, ⟨0, 0, 300⟩, ⟨1, 9, 256⟩, ⟨1, 0, 0x62⟩, ⟨1, 0, 256⟩, ⟨0, 0, 256⟩] : List Token),
      (replaying k 9).tokenSource = [⟨0, 0, 0x61⟩] ++ k :: []) ∧
    lzReplay 9 0 [] [⟨0, 0, 0x61⟩] = .ok [0x61] ∧
    failure (ran .lzdec (replaying ⟨0, 3, 0x61⟩ 9)) = (5, 1) ∧ failure (ran .lzdec (replaying ⟨2, 1, 0x62⟩ 9)) = (5, 1) ∧
    failure (ran .lzdec (replaying ⟨0, 0, 300⟩ 9)) = (5, 1) ∧ failure (ran .lzdec (replaying ⟨1, 9, 256⟩ 9)) = (8, 1) ∧
    results (ran .lzdec (replaying ⟨1, 9, 256⟩ 10)) = (10, 2, 0, 0) ∧
    results (ran .lzdec (replaying ⟨1, 0, 0x62⟩ 9)) = (2, 2, 0, 0) ∧
    results (ran .lzdec (replaying ⟨1, 0, 256⟩ 9)) = (1, 2, 0, 0) ∧
    results (ran .lzdec (replaying ⟨0, 0, 256⟩ 9)) = (1, 2, 0, 0) := by
  refine ⟨?_, by rfl, by decide, by decide, by decide, by decide, by decide, by decide, by decide, by decide⟩
  decide

/-- LZDEC of one literal, and of a token that reaches behind the start. -/
theorem witness_LzdecReplaysTheTokens :
    (running .lzdec (operands 12 64 1 0 0) [0, 0, 0, 0, 0, 0, 0, 0, 0, 0, 0, 0x61] none).Accepts .lzdec ∧
    lzReplay 1 0 [] (running .lzdec (operands 12 64 1 0 0) [0, 0, 0, 0, 0, 0, 0, 0, 0, 0, 0, 0x61] none).tokenSource =
      .ok [0x61] ∧
    lzReplay 1 0 [] (running .lzdec (operands 12 64 1 0 0) [0, 0, 0, 1, 0, 0, 0, 1, 0, 0, 0, 0x61] none).tokenSource =
      .error { kind := .invalidBackReference, info := 0 } := by
  refine ⟨?_, by rfl, by rfl⟩
  simp only [State.Accepts, State.SourceFits, State.SourceAligned, State.DestinationFits, State.SourceDestinationApart, Apart]
  decide

/-- CCOMP: a destination that just holds the RAW record; candidate B built with enough scratch, with too little, and
chosen. -/
theorem witness_CcompWritesTheRecord :
    (running .ccomp (operands 2 64 11 128 0) [7, 8] none).Accepts .ccomp ∧
    (running .ccomp { operands 40 64 49 256 24 with minSize := 40 } (List.replicate 40 0x61) none).Accepts .ccomp ∧
    (running .ccomp { operands 40 64 49 256 24 with minSize := 40 } (List.replicate 40 0x61) none).sourceTokens.length = 2 ∧
    (ran .ccomp (running .ccomp { operands 40 64 49 256 24 with minSize := 40 } (List.replicate 40 0x61) none)).res1 = 1 ∧
    failure (ran .ccomp (running .ccomp { operands 40 64 49 256 23 with minSize := 40 } (List.replicate 40 0x61) none)) =
      (8, 2) := by
  simp only [State.Accepts, State.SourceFits, State.DestinationFits, State.ScratchFits, State.SourceDestinationApart,
    State.SourceScratchApart, State.DestinationScratchApart, Apart]
  decide

set_option maxRecDepth 8000 in
/-- CDEC: a RAW record, an empty entropy record, and a record cut short. -/
theorem witness_CdecDecodesTheRecord :
    (running .cdec (operands 8 64 9 128 0) [0x4F, 0x57, 0x4F, 0x32, 1, 0, 1, 0] none).Accepts .cdec ∧
    parseRecord 512 [0x4F, 0x57, 0x4F, 0x32, 1, 0, 1, 0] = .ok (.ent [] [] 7 8) ∧
    decodeBits [] 0 (ErrorKind.capacityExceeded.at 2) (ErrorKind.corruptBitstream.at 7) [] [] 0 = .ok [] ∧
    lzReplay 9 0 [] (tokensOf []) = .ok [] ∧
    parseRecord 512 [0x4F, 0x57, 0x4F, 0x32, 0, 0, 0, 0, 1, 7] = .ok (.raw [7] 10) ∧
    parseRecord 512 [0x4F, 0x57, 0x4F, 0x32, 0, 0, 0, 0, 1] = .error { kind := .truncatedPayload, info := 9 } := by
  refine ⟨?_, by rfl, by rfl, by rfl, by rfl, by rfl⟩
  simp only [State.Accepts, State.SourceFits, State.DestinationFits, State.ScratchFits, State.SourceDestinationApart,
    State.SourceScratchApart, State.DestinationScratchApart, Apart]
  decide

/-- CDEC's failures behind the parser (vectors K23 to K25, and a scratch and a destination one symbol and one byte short):
each record parses, and each step of the decode path fails once. -/
theorem witness_CdecDecodesTheRecord_failures :
    (let rest := [0x4F, 0x57, 0x4F, 0x32, 1, 1]
     let run := fun bs cap arg1 => failure (ran .cdec (running .cdec (operands (List.length bs) 64 cap 128 arg1) bs none))
     run (rest ++ [0, 1, 0x80, 2, 1, 0x80]) 9 12 = (3, 10) ∧ run (rest ++ [1, 1, 0x80, 2, 3, 0xE0]) 9 12 = (5, 0) ∧
     run (rest ++ [0, 1, 0x80, 2, 2, 0]) 9 12 = (3, 10) ∧ run (rest ++ [0, 1, 0x80, 2, 3, 0xE0]) 9 8 = (8, 2) ∧
     run (rest ++ [0, 1, 0x80, 2, 3, 0xE0]) 0 12 = (8, 1) ∧
     run [0x4F, 0x57, 0x4F, 0x32, 0, 0, 0, 0, 1, 7] 0 0 = (8, 1)) := by decide

/-- CDEC's header clauses, each at its boundary length. -/
theorem witness_CdecReadsTheHeader :
    let src := fun bs => (running .cdec (operands (List.length bs) 64 9 128 0) bs none).source
    (src [0x4F, 0x57, 0x4F]).take 4 ≠ [0x4F, 0x57, 0x4F, 0x32] ∧
    (src [0x4F, 0x57, 0x4F, 0x32]).length = 4 ∧ ((src [0x4F, 0x57, 0x4F, 0x32, 2]).getD 4 0).toNat = 2 ∧
    (src [0x4F, 0x57, 0x4F, 0x32, 0, 0, 0, 0]).length = 8 ∧
    (src [0x4F, 0x57, 0x4F, 0x32, 0, 0, 0, 0, 1]).length < 9 + 1 ∧
    9 + 1 ≤ (src [0x4F, 0x57, 0x4F, 0x32, 0, 0, 0, 0, 1, 7]).length := by decide

/-- Entropy records behind an empty codebook, which ends at offset 6: the bitstream's length missing and 0, the bitstream
cut off, both bad prefixes, and a record that is whole (vectors K19 to K22); and a codebook that fails at offset 6. -/
theorem witness_CdecReadsTheHeader_entropy :
    let hdr : List Byte := [0x4F, 0x57, 0x4F, 0x32, 1]
    let run := fun bs => failure (ran .cdec (running .cdec (operands (List.length bs) 64 9 128 0) bs none))
    (∀ bs ∈ ([[], [0], [1], [1, 8], [1, 1], [1, 0]] : List (List Byte)), CodebookAt 512 (hdr ++ 0 :: bs) 5 [] 6) ∧
    VarintCut (hdr ++ [0]) 6 ∧ run (hdr ++ [0]) = (2, 6) ∧
    VarintAt (hdr ++ [0, 0]) 6 0 7 ∧ run (hdr ++ [0, 0]) = (3, 6) ∧
    VarintAt (hdr ++ [0, 1]) 6 1 7 ∧ run (hdr ++ [0, 1]) = (7, 7) ∧
    VarintAt (hdr ++ [0, 1, 8]) 6 1 7 ∧ 7 < byteAt (hdr ++ [0, 1, 8]) 7 ∧ run (hdr ++ [0, 1, 8]) = (3, 7) ∧
    byteAt (hdr ++ [0, 1, 1]) 7 = 1 ∧ run (hdr ++ [0, 1, 1]) = (3, 7) ∧
    byteAt (hdr ++ [0, 1, 0]) 7 = 0 ∧ run (hdr ++ [0, 1, 0]) = (0, 0) ∧
    CodebookFails 512 (hdr ++ [1]) 5 { kind := .malformedVarInt, info := 6 } ∧ run (hdr ++ [1]) = (2, 6) := by
  refine ⟨?_, by unfold VarintCut; decide, by decide, by unfold VarintAt; decide, by decide, by unfold VarintAt; decide,
    by decide, by unfold VarintAt; decide, by decide, by decide, by decide, by decide, by decide, by decide,
    .inr (.inr ⟨1, 6, [], 6, by unfold VarintAt; decide, by decide, rfl, List.Pairwise.nil, by decide,
      .inl ⟨by unfold VarintCut; decide, by decide⟩⟩), by decide⟩
  intro bs _
  exact ⟨6, .inl ⟨by simp, by simp [byteAt], by simp [byteAt], rfl⟩, by decide, rfl, List.Pairwise.nil⟩

theorem witness_PackingIsMsbFirst : 0 < [true].length ∧ 7 < 8 * (([true].length + 7) / 8) := by decide

theorem witness_StreamFormIsReadBack :
    0 < (unpackMSB [0xFF] 1).length ∧ 7 < (8 : Byte).toNat ∧ (7 : Byte).toNat ≤ 7 ∧ (1 : Byte) ≠ 0 := by decide

/-- BPACK.P of ten bits, then BUNPACK.P of the three bytes it wrote. -/
theorem witness_BitpackRoundTrip :
    let s := running (.bpack true) (operands 10 64 3 0 0) b10 none
    let u := running (.bunpack true) (operands 3 64 10 0 0) [0x02, 0xB2, 0xC0] none
    s.Accepts (.bpack true) ∧ u.Accepts (.bunpack true) ∧ u.source = s.outputOf (ran (.bpack true) s) ∧
      ceil8 s.operands.srcLen.toNat + true.toNat ≤ s.operands.dstCap.toNat ∧
      s.operands.srcLen.toNat ≤ u.operands.dstCap.toNat := by
  simp only [State.Accepts, State.SourceFits, State.DestinationFits, State.SourceDestinationApart, Apart]; decide

/-- VWRITE of 300, then VREAD of it behind one byte. -/
theorem witness_VarintRoundTrip :
    let s := running .vwrite (operands 0 64 2 300 0) [] none
    let u := running .vread (operands 4 64 0 1 0) [0x7F, 0x81, 0x2C, 0x55] none
    s.Accepts .vwrite ∧ (ran .vwrite s).res0 ≠ 0 ∧ u.Accepts .vread ∧
      u.source = [0x7F] ++ s.outputOf (ran .vwrite s) ++ [0x55] ∧ [(0x7F : Byte)].length = u.operands.arg0.toNat := by
  simp only [State.Accepts, State.SourceFits, State.DestinationFits]; decide

theorem witness_FrequencyTableCounts :
    ([1, 2, 1] : List Word).Perm [1, 1, 2] ∧ (freqTable [1, 2, 1]).length = 2 := by decide

theorem witness_QueueStaysInPriorityOrder :
    (([.leaf 1 2 0, .leaf 2 2 1] : List Node).Pairwise fun a b => a.freq < b.freq ∨ (a.freq = b.freq ∧ a.seq < b.seq)) ∧
    ∀ m ∈ ([.leaf 1 2 0, .leaf 2 2 1] : List Node), m.seq ≠ (Node.leaf 3 1 2).seq := by decide

/-- Three symbols, the second merge a tie of frequency between a leaf and an internal node, and one symbol with the dummy. -/
theorem witness_TreeHasTheStatedShape :
    let root := Node.node 4 4 (.leaf 1 2 0) (.node 2 3 (.leaf 2 1 1) (.leaf 3 1 2))
    (buildTree (freqTable [1, 2, 3, 1]) = some root ∧ DistinctAscending [1, 2, 3, 1] [1, 2, 3] ∧
      MergesTo 3 (numberedLeaves [1, 2, 3, 1] [1, 2, 3]) root ∧ PathTo 2 root [true, false]) ∧
    buildTree (freqTable [7, 7]) = some (.node 2 2 (.dummy 1) (.leaf 7 2 0)) ∧ DistinctAscending [7, 7] [7] ∧
      MergesTo 2 (numberedLeaves [7, 7] [7]) (.node 2 2 (.dummy 1) (.leaf 7 2 0)) := by
  refine ⟨⟨by decide, ⟨by decide, fun s => by simp; tauto⟩, ?_, .inr ⟨_, rfl, .inl ⟨_, rfl, rfl, rfl⟩⟩⟩, by decide, ⟨by decide, by simp⟩, ?_⟩
  · refine .merge _ _ [.leaf 1 2 0] (.leaf 2 1 1) (.leaf 3 1 2) _ (by decide) ?_ ?_
      (.merge _ _ [] (.leaf 1 2 0) (.node 2 3 (.leaf 2 1 1) (.leaf 3 1 2)) _ (by decide) ?_ ?_ (.root _ _)) <;>
    simp [Node.Precedes, Node.freq, Node.seq]
  · refine .merge _ _ [] (.dummy 1) (.leaf 7 2 0) _ (by decide) ?_ ?_ (.root _ _) <;>
    simp [Node.Precedes, Node.freq, Node.seq]

theorem witness_CodebookIsPrefixFree :
    let s := running (.hbuild false) (operands 11 64 0 0 0) abraText none
    s.Accepts (.hbuild false) ∧ exec (.hbuild false) s = .next (ran (.hbuild false) s) ∧
      (ran (.hbuild false) s).cb = some abra := by
  refine ⟨?_, ran_eq _ _, by decide⟩
  simp only [State.Accepts, State.SourceFits, State.SourceAligned]; decide

/-- HBUILD and HENC of "abracadabra", HDEC of the four bytes (vectors H1 to H3). -/
theorem witness_HuffmanRoundTrip :
    let s := running (.hbuild false) (operands 11 64 0 0 0) abraText none
    let u := running (.henc false) (operands 11 64 45 0 0) abraText (some abra)
    let d := running .hdec (operands 4 64 44 0 0) [0x07, 0x6E, 0x8A, 0xDC] (some abra)
    s.Accepts (.hbuild false) ∧ (ran (.hbuild false) s).cb = some abra ∧ u.Accepts (.henc false) ∧
      u.symbols false = s.symbols false ∧ 1 + 4 * (s.symbols false).length ≤ u.operands.dstCap.toNat ∧
      (ran (.henc false) u).res0 ≠ 0 ∧ d.Accepts .hdec ∧ d.source = u.outputOf (ran (.henc false) u) ∧
      4 * (s.symbols false).length ≤ d.operands.dstCap.toNat := by
  simp only [State.Accepts, State.SourceFits, State.SourceAligned, State.DestinationFits, State.SourceDestinationApart, Apart]; decide

theorem witness_CodebookWireRoundTrip :
    let s := running .hser (operands 0 64 16 0 0) [] (some abra)
    let u := running .hdeser (operands 17 64 0 0 0)
      [0x05, 0x61, 0x01, 0x00, 0x62, 0x03, 0xC0, 0x63, 0x03, 0x80, 0x64, 0x03, 0xA0, 0x72, 0x03, 0xE0, 0x55] none
    s.Inv ∧ s.Accepts .hser ∧ (ran .hser s).res0 ≠ 0 ∧ u.Accepts .hdeser ∧ u.params = s.params ∧
      u.source = s.outputOf (ran .hser s) ++ [0x55] := by
  refine ⟨running_inv _ _ _ _ (by simp) (by intro C h; cases h; exact abra_legal), ?_⟩
  simp only [State.Accepts, State.SourceFits, State.DestinationFits]; decide

theorem witness_BestMatchIsTheLongest :
    1 ≤ 1 ∧ 0 < [(0x61 : Byte)].length ∧ bestMatch [0x61] 1 1 0 = (0, 0) ∧ bestMatch [0x61, 0x61] 1 1 1 = (1, 1) := by decide

/-- A literal whose best match is one short of M, a match of exactly M with a byte behind it, and one that ends the input. -/
theorem witness_TokensMeetTheirInvariants :
    lzTokens [0x61, 0x62, 0x61, 0x62, 0x63] 8 8 2 = [⟨0, 0, 0x61⟩, ⟨0, 0, 0x62⟩, ⟨2, 2, 0x63⟩] ∧
      bestMatch [0x61, 0x62, 0x61, 0x62, 0x63] 8 8 2 = (2, 2) ∧
    (lzTokens [0x61, 0x61, 0x62] 8 8 2)[1]? = some ⟨0, 0, 0x61⟩ ∧ bestMatch [0x61, 0x61, 0x62] 8 8 1 = (1, 1) ∧
    lzTokens [0x61, 0x61] 1 1 1 = [⟨0, 0, 0x61⟩, ⟨1, 1, 256⟩] := by decide

/-- LZCOMP of ten equal bytes, LZDEC of the 24 bytes (vectors Z1, Z2). -/
theorem witness_TokenRoundTrip :
    let s := running .lzcomp (operands 10 64 24 0 0) (List.replicate 10 0x61) none
    let u := running .lzdec (operands 24 64 10 0 0)
      [0, 0, 0, 0, 0, 0, 0, 0, 0, 0, 0, 0x61, 0, 0, 0, 1, 0, 0, 0, 9, 0, 0, 1, 0] none
    s.Accepts .lzcomp ∧ 12 * s.sourceTokens.length ≤ s.operands.dstCap.toNat ∧ u.Accepts .lzdec ∧
      u.source = s.outputOf (ran .lzcomp s) ∧ s.operands.srcLen.toNat ≤ u.operands.dstCap.toNat := by
  simp only [State.Accepts, State.SourceFits, State.SourceAligned, State.DestinationFits, State.SourceDestinationApart, Apart]
  decide

/-- A RAW record of two bytes and an entropy record of forty. -/
theorem witness_ContainerIsNeverLargerThanRaw :
    (running .ccomp (operands 2 64 11 128 0) [7, 8] none).Accepts .ccomp ∧
    (ran .ccomp (running .ccomp (operands 2 64 11 128 0) [7, 8] none)).res0 ≠ 0 ∧
    (ran .ccomp (running .ccomp { operands 40 64 49 256 24 with minSize := 40 } (List.replicate 40 0x61) none)).res1 = 1 := by
  simp only [State.Accepts, State.SourceFits, State.DestinationFits, State.ScratchFits, State.SourceDestinationApart,
    State.SourceScratchApart, State.DestinationScratchApart, Apart]
  decide

/-- CCOMP of forty equal bytes into an entropy record, and CDEC of that record with two bytes behind it. -/
theorem witness_ContainerRoundTrip :
    let s := running .ccomp { operands 40 64 49 256 24 with minSize := 40 } (List.replicate 40 0x61) none
    let bs := s.outputOf (ran .ccomp s)
    let u := running .cdec (operands (bs.length + 2) 64 40 256 24) (bs ++ [1, 2]) none
    s.params.wellFormed = true ∧ s.Accepts .ccomp ∧ (ran .ccomp s).res0 ≠ 0 ∧ (ran .ccomp s).res1 = 1 ∧ u.Accepts .cdec ∧
      u.params = s.params ∧ u.source = s.outputOf (ran .ccomp s) ++ [1, 2] ∧
      s.operands.srcLen.toNat ≤ u.operands.dstCap.toNat ∧ 12 * s.sourceTokens.length ≤ u.operands.arg1.toNat := by
  simp only [State.Accepts, State.SourceFits, State.DestinationFits, State.ScratchFits, State.SourceDestinationApart,
    State.SourceScratchApart, State.DestinationScratchApart, Apart]
  decide

theorem witness_CcompNeverMeetsAnUnknownSymbol :
    let s := running .ccomp { operands 40 64 49 256 24 with minSize := 40 } (List.replicate 40 0x61) none
    s.Runs .ccomp ∧ exec .ccomp s = .next (ran .ccomp s) :=
  ⟨running_runs _ _ _ _ (by simp) (by simp), ran_eq _ _⟩

end Sys2Proof.Tests
end

section
/-! PROOF. 00_scope: what a step of a BUSY machine runs (R13, R141, R370; entries 3, 4), and the invariant at reset
(R36, R54, R56, R361). -/

namespace Sys2Proof.Machine

open Sys2Proof.Config

/-! ## The sequencer's turn in a step -/

/-- R110: a command's word carries the command. -/
@[simp] theorem decode_encode (i : Instr) : decode (encode i) = .ok i := by
  cases i with
  | bpack p => cases p <;> rfl
  | bunpack p => cases p <;> rfl
  | hbuild w => cases w <;> rfl
  | henc w => cases w <;> rfl
  | nop | vwrite | vread | hdec | hser | hdeser | hcode | lzcomp | lzdec | ccomp | cdec => rfl

theorem coreTurn_of_decode {s : State} {cur : Cur} {i : Instr} (hb : s.sequencer = .busy cur)
    (hd : decode cur.word = .ok i) : s.coreTurn = exec i s := by
  simp only [State.coreTurn, hb, hd]

/-- With nothing scheduled, only the sequencer moves (entry 3). -/
theorem step_of_schedule_nil {s : State} (h : s.schedule = []) : step s = s.coreTurn := by
  simp only [step, h]

theorem step_of_schedule_cons {s : State} {e : Event} {rest : List Event} (h : s.schedule = e :: rest) :
    step s = State.handle { s with schedule := rest } e := by
  simp only [step, h]

theorem handle_core (s : State) : s.handle .core = s.coreTurn := rfl

/-- The turn that placeCommand schedules is the one the next step takes, with the schedule of `s` behind it (entry 4). -/
theorem step_placeCommand (s : State) (w : Word) : step (s.placeCommand w) = (s.accept w).coreTurn := rfl

/-- A 32-bit word in the opcode table's numbering is placed as it is. -/
theorem withFetchWord_toNat (s : State) (w : Word) : s.withFetchWord 32 w.toNat = s.placeCommand w := by
  rw [State.withFetchWord, Nat.mod_eq_of_lt w.isLt, BitVec.ofNat_toNat, BitVec.setWidth_eq]

/-- Settles O5: what the step and the turn each do, put together; the encoding decodes to its command. -/
theorem stepRunsTheDecodedCommand : Obligations.StepRunsTheDecodedCommand := by
  unfold Obligations.StepRunsTheDecodedCommand
  constructor
  · intro s cur i hb hd
    constructor
    · intro hs
      rw [step_of_schedule_nil hs, coreTurn_of_decode hb hd]
    · intro rest hs
      rw [step_of_schedule_cons hs, handle_core]
      exact coreTurn_of_decode (s := { s with schedule := rest }) hb hd
  · intro s i
    rw [withFetchWord_toNat, step_placeCommand]
    exact coreTurn_of_decode (State.accept_sequencer s (encode i)) (decode_encode i)

/-! ## The invariant at reset -/

/-- The default parameters are among those R6 allows. -/
theorem default_wellFormed : Params.default.wellFormed = true := by decide

theorem resetOf_not_busy (p : Params) : (State.resetOf p).busy = false := rfl

/-- While IDLE with no error recorded, the flags are legal (R36). -/
theorem resetOf_statusLegal (p : Params) : (State.resetOf p).StatusLegal := by
  refine ⟨?_, ?_, ?_⟩
  · simp [resetOf_not_busy]
  · simp [State.resetOf]
  · exact Nat.zero_le 12

/-- R361: after reset nothing is latched, no codebook is valid, and no byte of LMEM is written. -/
theorem resetOf_inv {p : Params} (hp : p.wellFormed = true) : (State.resetOf p).Inv where
  params := hp
  status := resetOf_statusLegal p
  hidden := by simp [State.ResultsHidden, resetOf_not_busy]
  cur := by simp [State.CurMatches, State.resetOf]
  codebook := by simp [State.CodebookLegal, State.resetOf]
  lmem := by simp [State.LmemLegal, State.resetOf, wf_iff, within_iff]

/-- Settles O16: State.reset is State.resetOf the default parameters. -/
theorem resetStateMeetsTheInvariant : Obligations.ResetStateMeetsTheInvariant := by
  unfold Obligations.ResetStateMeetsTheInvariant
  exact ⟨resetOf_inv default_wellFormed, fun _ hp => resetOf_inv hp⟩

end Sys2Proof.Machine
end

section
/-! PROOF. 10_state: what a host access and a turn of the sequencer can do (R13, R370, R372), said once, and that each of
them keeps the invariant (R36, R54, R56, R81, R371). -/

namespace Sys2Proof.Machine

open Sys2Proof.Config

/-! ## What a host access can do -/

/-- The effects of a host access on everything but the port's answer (R14, R31, R85, R362, R372). -/
inductive AccessEffect (s : State) (a : Access) : State → Prop where
  | nothing : AccessEffect s a s
  | lockedOut : s.busy = true → AccessEffect s a s.setWerr
  | softReset : AccessEffect s a s.resetBlock
  | irqEnable (b : Bool) : AccessEffect s a { s with irqEn := b }
  | clearsStatus (v : Word) : a = .write .csr 0x14 32 v → AccessEffect s a (s.writeStatus v)
  | accepts (w : Word) : s.busy = false → AccessEffect s a (s.accept w)
  | setsRegs (r : LockedRegs) : s.busy = false → AccessEffect s a { s with regs := r }
  | storesLmem (off width : Nat) (v : Word) : s.busy = false → lmemLegal s.params.lmemSize off width = true →
      AccessEffect s a (s.writeLmem off width v)

theorem writeLocked_effect (s : State) (a : Access) (r : LockedRegs) : AccessEffect s a (s.writeLocked r) := by
  unfold State.writeLocked
  split
  · exact .lockedOut ‹_›
  · exact .setsRegs r (Bool.eq_false_iff.mpr ‹_›)

theorem writeCmd_effect (s : State) (a : Access) (w : Word) : AccessEffect s a (s.writeCmd w) := by
  unfold State.writeCmd
  split
  · exact .lockedOut ‹_›
  · exact .accepts w (Bool.eq_false_iff.mpr ‹_›)

theorem writeCtrl_effect (s : State) (a : Access) (v : Word) : AccessEffect s a (s.writeCtrl v) := by
  unfold State.writeCtrl
  split
  · exact .softReset
  · exact .irqEnable _

theorem csrMap_nodup : csrMap.Nodup := by decide

/-- No two word-aligned offsets name one register (R31). -/
theorem csrAt_inj {off other : Nat} {c : Csr} (h : csrAt off = some c) (h' : csrAt other = some c) (ho : off % 4 = 0)
    (ho' : other % 4 = 0) : other = off := by
  obtain ⟨hlt, -⟩ := List.getElem?_eq_some_iff.mp h'
  have hidx : other / 4 = off / 4 := (List.getElem?_inj hlt csrMap_nodup).mp (h'.trans h.symm)
  omega

theorem csrLegal_iff {off width : Nat} : csrLegal off width = true ↔ CsrAccessLegal off width := by
  simp [csrLegal, CsrAccessLegal, and_assoc]

theorem csrWrite_effect {s : State} {off : Nat} {v : Word} {c : Csr} (hc : csrAt off = some c) (ho : off % 4 = 0) :
    AccessEffect s (.write .csr off 32 v) (c.write v s) := by
  cases c with
  | ctrl => exact writeCtrl_effect s _ v
  | cmd => exact writeCmd_effect s _ v
  | status =>
    obtain rfl : off = 0x14 := csrAt_inj (off := 0x14) rfl hc (by decide) ho
    exact .clearsStatus v rfl
  | srcAddr | srcLen | dstAddr | dstCap | arg0 | arg1 | cfgWindow | cfgMaxlen | cfgMinmatch | cfgMinsize | cfgRatio =>
    exact writeLocked_effect s _ _
  | id | capLmem | capSymbols | capCodelen | errinfo | res0 | res1 | res2 | cbCount | cbMaxlen => exact .nothing

/-- Every host access is one of these effects, then an answer (R14). -/
theorem access_effect (s : State) (a : Access) : ∃ t r, AccessEffect s a t ∧ s.access a = t.answer r := by
  cases a with
  | read space off width =>
    cases space with
    | csr =>
      simp only [State.access]
      split
      · exact ⟨s, _, .nothing, rfl⟩
      · exact ⟨s, _, .nothing, rfl⟩
    | lmem =>
      simp only [State.access]
      split
      · split
        · exact ⟨_, _, .lockedOut ‹_›, rfl⟩
        · exact ⟨s, _, .nothing, rfl⟩
      · exact ⟨s, _, .nothing, rfl⟩
  | write space off width v =>
    cases space with
    | csr =>
      simp only [State.access]
      split
      · rename_i hlegal
        obtain ⟨rfl, ho, -⟩ := csrLegal_iff.mp hlegal
        refine ⟨s.writeCsr off v, _, ?_, rfl⟩
        unfold State.writeCsr
        split
        · exact csrWrite_effect ‹_› ho
        · exact .nothing
      · exact ⟨s, _, .nothing, rfl⟩
    | lmem =>
      simp only [State.access]
      split
      · split
        · exact ⟨_, _, .lockedOut ‹_›, rfl⟩
        · exact ⟨_, _, .storesLmem off width v (Bool.eq_false_iff.mpr ‹_›) ‹_›, rfl⟩
      · exact ⟨s, _, .nothing, rfl⟩

/-! ## What a turn of the sequencer can do -/

/-- While IDLE a turn does nothing; while BUSY it runs the latched command or ends an illegal word with BadCommand
(R114, R363, R370). -/
theorem coreTurn_cases {s t : State} (h : s.coreTurn = .next t) :
    (s.sequencer = .idle ∧ t = s) ∨
    ∃ cur, s.sequencer = .busy cur ∧
      ((∃ i, t = s.runCommand (shapeOf i) (bodyOf i)) ∨ t = s.raise { kind := .badCommand, info := cur.word }) := by
  unfold State.coreTurn at h
  split at h
  · exact .inl ⟨‹_›, (Host.Outcome.next.inj h).symm⟩
  · rename_i cur hcur
    refine .inr ⟨cur, hcur, ?_⟩
    split at h
    · exact .inl ⟨_, exec_eq_next h⟩
    · exact .inr (Host.Outcome.next.inj h).symm

/-- An error's code is one of R321's. -/
theorem ErrorKind.code_bounds (k : ErrorKind) : 1 ≤ k.code.toNat ∧ k.code.toNat ≤ 12 := by cases k <;> decide

/-- In a state of the invariant a latched command starts with its flags and ERRINFO clear (R36, R371). -/
theorem State.Inv.clear_of_busy {s : State} (h : s.Inv) (hb : s.busy = true) :
    s.err = false ∧ s.errcode = 0 ∧ s.errinfo = 0 := by
  obtain ⟨-, herr, hcode⟩ := h.status.1 hb
  obtain ⟨-, -, -, hinfo⟩ := h.hidden hb
  exact ⟨herr, hcode, hinfo⟩

/-! ## The regions an accepted command writes -/

@[simp] theorem shapeOf_dst (i : Instr) : (shapeOf i).dst.isSome = i.usesDestination := by cases i <;> rfl

@[simp] theorem shapeOf_scratch (i : Instr) : (shapeOf i).scratch = i.usesScratch := by cases i <;> rfl

theorem mem_shape_written {sh : Shape} {o : LockedRegs} {r : Region} :
    r ∈ sh.written o ↔ (sh.dst.isSome = true ∧ r = o.dstRegion) ∨ (sh.scratch = true ∧ r = o.scratchRegion) := by
  cases hd : sh.dst.isSome <;> cases hs : sh.scratch <;> simp [Shape.written, hd, hs]

/-- The bounds check of R116: what a command may write lies in LMEM. -/
theorem written_fits {sh : Shape} {p : Params} {o : LockedRegs} {v : Bool} (h : acceptanceError sh p o v = none)
    {r : Region} (hr : r ∈ sh.written o) : r.addr + r.len ≤ p.lmemSize := by
  have hchecks := acceptanceError_eq_none.mp h
  have hdst := hchecks (sh.dst.isSome && o.dstRegion.leaves p.lmemSize, ErrorKind.badOperand.at 2)
    (by simp [acceptanceChecks])
  have hscr := hchecks (sh.scratch && o.scratchRegion.leaves p.lmemSize, ErrorKind.badOperand.at 3)
    (by simp [acceptanceChecks])
  rcases mem_shape_written.mp hr with ⟨hd, rfl⟩ | ⟨hs, rfl⟩
  · exact (leaves_eq_false ..).mp (by simpa [hd] using hdst)
  · exact (leaves_eq_false ..).mp (by simpa [hs] using hscr)

/-! ## LMEM's canonical form under each operation -/

theorem State.LmemLegal.scramble {s : State} (h : s.LmemLegal) {rs : List Region}
    (hr : ∀ r ∈ rs, r.len = 0 ∨ r.addr + r.len ≤ s.params.lmemSize) : (s.scramble rs).LmemLegal :=
  ⟨wf_scramble h.1 rs, within_scramble h.2 rs hr⟩

theorem State.LmemLegal.writeBytes {s : State} (h : s.LmemLegal) {a : Nat} {bs : List Byte}
    (hb : bs = [] ∨ a + bs.length ≤ s.params.lmemSize) : { s with lmem := s.lmem.writeBytes a bs }.LmemLegal :=
  ⟨wf_writeBytes h.1 a bs, within_writeBytes h.2 a bs hb⟩

theorem State.LmemLegal.beginExecution {s : State} (h : s.LmemLegal) (sh : Shape) : (s.beginExecution sh).LmemLegal := by
  simpa [State.LmemLegal] using h

/-- A success whose output fits the destination, and whose scratch fits where it is used, stays inside LMEM (R142). -/
theorem State.LmemLegal.succeed {s : State} (h : s.LmemLegal) {r : Result}
    (hout : r.out = [] ∨ s.operands.dstAddr.toNat + r.out.length ≤ s.params.lmemSize)
    (hscr : r.scratchUsed = true → s.operands.arg0.toNat + s.operands.arg1.toNat ≤ s.params.lmemSize) :
    (s.succeed r).LmemLegal := by
  have hdst := h.writeBytes hout
  unfold State.LmemLegal
  rw [State.succeed_params, State.succeed_lmem]
  split
  · exact hdst.writeBytes (.inr (by simpa using hscr ‹_›))
  · exact hdst

theorem State.LmemLegal.runCommand {s : State} (h : s.LmemLegal) (i : Instr) :
    (s.runCommand (shapeOf i) (bodyOf i)).LmemLegal := by
  rcases runCommand_cases s (shapeOf i) (bodyOf i) with ⟨e, -, ht⟩ | ⟨hacc, ⟨e, -, ht⟩ | ⟨r, hbody, ht⟩⟩
  all_goals rw [ht]
  · exact h
  · exact (h.beginExecution _).scramble fun r hr => .inr (by simpa using written_fits hacc hr)
  · obtain ⟨hlen, hnone, hscr, -⟩ := bodyOf_ok hbody
    have hfits := fun r => written_fits (r := r) hacc
    refine (h.beginExecution _).succeed ?_ fun hu => ?_
    · cases hd : (shapeOf i).dst.isSome with
      | false => exact .inl (hnone hd)
      | true =>
        have hdst : s.operands.dstAddr.toNat + s.operands.dstCap.toNat ≤ s.params.lmemSize :=
          hfits s.operands.dstRegion (mem_shape_written.mpr (.inl ⟨hd, rfl⟩))
        have hcap : r.out.length ≤ s.operands.dstCap.toNat := hlen
        simp only [State.beginExecution_operands, State.beginExecution_params]
        exact .inr (by omega)
    · simpa [LockedRegs.scratchRegion] using
        hfits s.operands.scratchRegion (mem_shape_written.mpr (.inr ⟨hscr hu, rfl⟩))

theorem clip_fits (r : Region) (size : Nat) : (r.clip size).len = 0 ∨ (r.clip size).addr + (r.clip size).len ≤ size := by
  simp only [Region.clip]
  omega

/-! ## A reset -/

/-- Abandoning a command is a draw over its regions inside LMEM; nothing is abandoned while IDLE or under an illegal word
(R360; entry 7). -/
theorem abandon_cases (s : State) :
    s.abandon = s ∨ ∃ cur i, s.sequencer = .busy cur ∧ decode cur.word = .ok i ∧
      s.abandon = s.scramble (((shapeOf i).written s.operands).map (·.clip s.params.lmemSize)) := by
  unfold State.abandon
  split
  · exact .inl rfl
  · rename_i cur hcur
    split
    · exact .inl rfl
    · rename_i i hi
      exact .inr ⟨cur, i, hcur, hi, by rw [State.operands_of_busy hcur]⟩

@[simp] theorem abandon_params (s : State) : s.abandon.params = s.params := by
  rcases abandon_cases s with h | ⟨_, _, _, _, h⟩ <;> rw [h]
  rfl

@[simp] theorem abandon_schedule (s : State) : s.abandon.schedule = s.schedule := by
  rcases abandon_cases s with h | ⟨_, _, _, _, h⟩ <;> rw [h]
  rfl

@[simp] theorem abandon_port (s : State) : s.abandon.port = s.port := by
  rcases abandon_cases s with h | ⟨_, _, _, _, h⟩ <;> rw [h]
  rfl

/-- R360, R362: a reset leaves the reset state, but for LMEM and the model's own fields. -/
theorem resetBlock_eq (s : State) :
    s.resetBlock = { State.resetOf s.params with
      lmem := s.abandon.lmem, schedule := s.schedule, port := s.port, draws := s.abandon.draws } := by
  simp only [State.resetBlock, abandon_params, abandon_schedule, abandon_port]

theorem State.LmemLegal.abandon {s : State} (h : s.LmemLegal) : s.abandon.LmemLegal := by
  rcases abandon_cases s with hs | ⟨_, i, -, -, hs⟩ <;> rw [hs]
  · exact h
  · refine h.scramble fun r hr => ?_
    obtain ⟨q, -, rfl⟩ := List.mem_map.mp hr
    exact clip_fits q _

/-! ## Every operation keeps the invariant -/

/-- While IDLE only the error flags, the parameters, the codebook and LMEM are bound by the invariant. -/
theorem inv_of_idle {s : State} (hidle : s.sequencer = .idle) (hp : s.params.wellFormed = true)
    (herr : s.errcode ≠ 0 ↔ s.err = true) (hcode : s.errcode.toNat ≤ 12) (hcb : s.CodebookLegal)
    (hm : s.LmemLegal) : s.Inv := by
  have hbusy : s.busy = false := (s.busy_eq_false_iff).mpr hidle
  exact
    { params := hp
      status := ⟨by simp [hbusy], herr, hcode⟩
      hidden := by simp [State.ResultsHidden, hbusy]
      cur := by simp [State.CurMatches, hidle]
      codebook := hcb
      lmem := hm }

theorem State.Inv.answer {s : State} (h : s.Inv) (r : Response) : (s.answer r).Inv :=
  ⟨h.params, h.status, h.hidden, h.cur, h.codebook, h.lmem⟩

theorem State.Inv.setWerr {s : State} (h : s.Inv) : s.setWerr.Inv :=
  ⟨h.params, h.status, h.hidden, h.cur, h.codebook, h.lmem⟩

theorem State.Inv.withSchedule {s : State} (h : s.Inv) (es : List Event) : { s with schedule := es }.Inv :=
  ⟨h.params, h.status, h.hidden, h.cur, h.codebook, h.lmem⟩

theorem State.Inv.withIrqEn {s : State} (h : s.Inv) (b : Bool) : { s with irqEn := b }.Inv :=
  ⟨h.params, h.status, h.hidden, h.cur, h.codebook, h.lmem⟩

/-- R35, R36: ERRCODE is cleared exactly where ERR is. -/
theorem State.Inv.writeStatus {s : State} (h : s.Inv) (v : Word) : (s.writeStatus v).Inv := by
  obtain ⟨hbusy, herr, hcode⟩ := h.status
  refine ⟨h.params, ⟨fun hb => ?_, ?_, ?_⟩, h.hidden, h.cur, h.codebook, h.lmem⟩
  · obtain ⟨hd, he, hc⟩ := hbusy hb
    simp [hd, he, hc]
  · rw [State.writeStatus_errcode, State.writeStatus_err]
    cases v.getLsbD 2 <;> simp [← herr]
  · rw [State.writeStatus_errcode]
    split
    · exact Nat.zero_le 12
    · exact hcode

/-- R140: acceptance clears the flags and latches the registers themselves. -/
theorem State.Inv.accept {s : State} (h : s.Inv) (w : Word) : (s.accept w).Inv where
  params := h.params
  status := by simp [State.StatusLegal]
  hidden := by simp [State.ResultsHidden]
  cur := by
    intro cur hcur
    obtain rfl := Sequencer.busy.inj hcur
    exact ⟨rfl, rfl⟩
  codebook := h.codebook
  lmem := h.lmem

theorem State.Inv.withRegs {s : State} (h : s.Inv) (hb : s.busy = false) (r : LockedRegs) : { s with regs := r }.Inv :=
  inv_of_idle ((s.busy_eq_false_iff).mp hb) h.params h.status.2.1 h.status.2.2 h.codebook h.lmem

theorem State.Inv.writeLmem {s : State} (h : s.Inv) (hb : s.busy = false) {off width : Nat}
    (hl : lmemLegal s.params.lmemSize off width = true) (v : Word) : (s.writeLmem off width v).Inv := by
  have hm : (s.writeLmem off width v).LmemLegal := by
    simp only [lmemLegal, Bool.or_eq_true, Bool.and_eq_true, beq_iff_eq, decide_eq_true_eq] at hl
    unfold State.writeLmem
    split
    · exact h.lmem.writeBytes (.inr (by simp only [List.length_singleton]; omega))
    · exact h.lmem.writeBytes (.inr (by simp only [be32_length]; omega))
  exact inv_of_idle ((s.busy_eq_false_iff).mp hb) h.params h.status.2.1 h.status.2.2 h.codebook hm

theorem State.Inv.resetBlock {s : State} (h : s.Inv) : s.resetBlock.Inv := by
  obtain ⟨hwf, hin⟩ := h.lmem.abandon
  rw [resetBlock_eq]
  rw [abandon_params] at hin
  exact inv_of_idle rfl h.params (by simp [State.resetOf]) (by simp [State.resetOf])
    (by simp [State.CodebookLegal, State.resetOf]) ⟨hwf, hin⟩

/-- An error completion needs of the state before it only its parameters, codebook and LMEM (R322). -/
theorem inv_raise {s : State} (hp : s.params.wellFormed = true) (hcb : s.CodebookLegal) (hm : s.LmemLegal) (e : Raise) :
    (s.raise e).Inv := by
  obtain ⟨hpos, hle⟩ := e.kind.code_bounds
  refine inv_of_idle rfl hp ?_ hle hcb hm
  have hne : e.kind.code ≠ 0 := fun h0 => by simp [h0] at hpos
  exact iff_of_true hne rfl

theorem State.CodebookLegal.beginExecution {s : State} (h : s.CodebookLegal) (sh : Shape) :
    (s.beginExecution sh).CodebookLegal := by
  intro C hC
  rw [State.beginExecution_cb] at hC
  rw [State.beginExecution_params]
  split at hC
  · cases hC
  · exact h C hC

/-- A codebook in the store after a success is the installed one or the one that was there (R221). -/
theorem State.CodebookLegal.succeed {s : State} (h : s.CodebookLegal) {r : Result}
    (hr : ∀ C, r.installs = some C → C.Legal s.params.maxSymbols) : (s.succeed r).CodebookLegal := by
  intro C hC
  rw [State.succeed_cb] at hC
  rw [State.succeed_params]
  split at hC
  · exact hr C hC
  · exact h C hC

theorem State.Inv.runCommand {s : State} (h : s.Inv) (hb : s.busy = true) (i : Instr) :
    (s.runCommand (shapeOf i) (bodyOf i)).Inv := by
  have hm := h.lmem.runCommand i
  have hbegin := h.codebook.beginExecution (shapeOf i)
  rcases runCommand_cases s (shapeOf i) (bodyOf i) with ⟨e, -, ht⟩ | ⟨-, ⟨e, -, ht⟩ | ⟨r, hbody, ht⟩⟩
  all_goals rw [ht] at hm ⊢
  · exact inv_raise h.params h.codebook h.lmem e
  · exact inv_raise (s := (s.beginExecution (shapeOf i)).scramble _) (by simpa using h.params) hbegin hm e
  · obtain ⟨-, -, -, hlegal⟩ := bodyOf_ok hbody
    obtain ⟨herr, hcode, -⟩ := h.clear_of_busy hb
    exact inv_of_idle (by simp) (by simpa using h.params) (by simp [herr, hcode]) (by simp [hcode])
      (hbegin.succeed (by simpa [State.inputs] using hlegal)) hm

theorem State.Inv.coreTurn {s t : State} (h : s.Inv) (ht : s.coreTurn = .next t) : t.Inv := by
  rcases coreTurn_cases ht with ⟨-, rfl⟩ | ⟨cur, hcur, ⟨i, rfl⟩ | rfl⟩
  · exact h
  · exact h.runCommand ((s.busy_eq_true_iff).mpr ⟨cur, hcur⟩) i
  · exact inv_raise h.params h.codebook h.lmem _

theorem State.Inv.accessEffect {s t : State} {a : Access} (h : s.Inv) (ht : AccessEffect s a t) : t.Inv := by
  cases ht with
  | nothing => exact h
  | lockedOut => exact h.setWerr
  | softReset => exact h.resetBlock
  | irqEnable b => exact h.withIrqEn b
  | clearsStatus v => exact h.writeStatus v
  | accepts w => exact h.accept w
  | setsRegs r hb => exact h.withRegs hb r
  | storesLmem off width v hb hl => exact h.writeLmem hb hl v

theorem State.Inv.access {s : State} (h : s.Inv) (a : Access) : (s.access a).Inv := by
  obtain ⟨t, r, ht, heq⟩ := access_effect s a
  rw [heq]
  exact (h.accessEffect ht).answer r

/-- Whatever happens next keeps the invariant (R13). -/
theorem State.Inv.handle {s t : State} {e : Event} (h : s.Inv) (ht : s.handle e = .next t) : t.Inv := by
  cases e with
  | host a => exact Host.Outcome.next.inj ht ▸ h.access a
  | hardReset => exact Host.Outcome.next.inj ht ▸ h.resetBlock
  | core => exact h.coreTurn ht

/-- Settles O17: a step handles the next event of the schedule, or takes a turn of the sequencer; both keep the
invariant. -/
theorem everyStepKeepsTheInvariant : Obligations.EveryStepKeepsTheInvariant := by
  unfold Obligations.EveryStepKeepsTheInvariant
  intro s t h ht
  cases hs : s.schedule with
  | nil =>
    rw [step_of_schedule_nil hs] at ht
    exact h.coreTurn ht
  | cons e rest =>
    rw [step_of_schedule_cons hs] at ht
    exact (h.withSchedule rest).handle ht

end Sys2Proof.Machine
end

section
/-! PROOF. 10_state: how a latched command ends (R142, R327), and what it does to CB and CB_VALID (R57, R221, R375). -/

namespace Sys2Proof.Machine

open Sys2Proof.Config

/-! ## The end of a command -/

/-- An error completion, whatever raised it (R142, R322). -/
theorem raise_completes (s : State) (e : Raise) :
    (s.raise e).Finished ∧ (s.raise e).err = true ∧ 1 ≤ (s.raise e).errcode.toNat ∧ (s.raise e).errcode.toNat ≤ 12 ∧
      (s.raise e).res0 = 0 ∧ (s.raise e).res1 = 0 ∧ (s.raise e).res2 = 0 :=
  ⟨⟨rfl, rfl⟩, rfl, e.kind.code_bounds.1, e.kind.code_bounds.2, rfl, rfl, rfl⟩

/-- Settles O8: of the three ends of a command, success keeps the flags that acceptance cleared, and the other two are
error completions. -/
theorem everyCommandCompletes : Obligations.EveryCommandCompletes := by
  unfold Obligations.EveryCommandCompletes
  rintro s i ⟨hinv, cur, hcur, -⟩
  refine ⟨_, exec_eq_runCommand i s, ?_⟩
  rcases runCommand_cases s (shapeOf i) (bodyOf i) with ⟨e, -, ht⟩ | ⟨-, ⟨e, -, ht⟩ | ⟨r, -, ht⟩⟩
  all_goals rw [ht]
  · exact ⟨(raise_completes s e).1, .inr (raise_completes s e).2⟩
  · exact ⟨(raise_completes _ e).1, .inr (raise_completes _ e).2⟩
  · obtain ⟨herr, hcode, hinfo⟩ := hinv.clear_of_busy ((s.busy_eq_true_iff).mpr ⟨cur, hcur⟩)
    exact ⟨⟨by simp, by simp⟩, .inl (by simp [herr, hcode, hinfo])⟩

/-! ## Acceptance, from the checks to the conditions -/

/-- A command whose acceptance checks all pass meets its conditions (R115-R118); the other direction is
`acceptanceError_of_accepts`. -/
theorem accepts_of_acceptanceError {s : State} {i : Instr}
    (h : acceptanceError (shapeOf i) s.params s.operands s.cbValid = none) : s.Accepts i := by
  rw [acceptanceError_eq_none] at h
  rcases i with _ | _ | (_ | _) | _ | _ | (_ | _) | (_ | _) | _ | _ | _ | _ | _ | _ | _ | _
  case nop => trivial
  all_goals
    simp [acceptanceChecks, shapeOf, Shape.srcIsWords, Shape.regions, LockedRegs.srcRegion, LockedRegs.dstRegion,
      LockedRegs.scratchRegion, leaves_eq_false, anyOverlap, overlaps_eq_false, State.cbValid,
      Option.isSome_iff_ne_none] at h
    simp only [State.Accepts, State.SourceFits, State.DestinationFits, State.ScratchFits, State.SourceAligned,
      State.SourceDestinationApart, State.SourceScratchApart, State.DestinationScratchApart]
    tauto

/-! ## What a success installs (R221) -/

@[simp] theorem shapeOf_replacesCb (i : Instr) : (shapeOf i).replacesCb = i.clearsCbValid := by cases i <;> rfl

/-- The commands that install a codebook: HBUILD and HDESER (R221). -/
def InstallsCodebook (i : Instr) : Prop := i = .hdeser ∨ ∃ w, i = .hbuild w

/-- HBUILD and HDESER install the codebook whose entries RES0 counts. -/
theorem installs_of_installer {i : Instr} {x : Inputs} {r : Result} (hi : InstallsCodebook i) (h : bodyOf i x = .ok r) :
    ∃ C, r.installs = some C ∧ r.res0 = BitVec.ofNat 32 C.length := by
  rcases hi with rfl | ⟨w, rfl⟩
  · obtain ⟨⟨C, p⟩, -, h⟩ := bind_eq_ok.mp h
    obtain rfl := Except.ok.inj h
    exact ⟨C, rfl, rfl⟩
  · simp only [bodyOf, hbuildBody] at h
    split at h
    · cases h
    · split at h
      · cases h
      · obtain rfl := Except.ok.inj h
        exact ⟨_, rfl, by rw [codebookOf_length _ (freqTable_sorted _)]⟩

theorem installs_eq_none {i : Instr} {x : Inputs} {r : Result} (hi : ¬ InstallsCodebook i) (h : bodyOf i x = .ok r) :
    r.installs = none := by
  cases i with
  | nop => obtain rfl := Except.ok.inj h; rfl
  | hbuild w => exact absurd (.inr ⟨w, rfl⟩) hi
  | hdeser => exact absurd (.inl rfl) hi
  | bpack _ | vwrite | vread | hser | lzcomp =>
    obtain ⟨_, -, h⟩ := bind_eq_ok.mp h
    obtain rfl := Except.ok.inj h
    rfl
  | bunpack _ | henc _ | lzdec =>
    obtain ⟨_, -, h⟩ := bind_eq_ok.mp h
    obtain ⟨_, -, h⟩ := bind_eq_ok.mp h
    obtain rfl := Except.ok.inj h
    rfl
  | hdec =>
    obtain ⟨_, -, h⟩ := bind_eq_ok.mp h
    obtain ⟨_, -, h⟩ := bind_eq_ok.mp h
    obtain ⟨_, -, h⟩ := bind_eq_ok.mp h
    obtain rfl := Except.ok.inj h
    rfl
  | hcode =>
    simp only [bodyOf, hcodeBody] at h
    split at h
    · cases h
    · obtain rfl := Except.ok.inj h
      rfl
  | ccomp =>
    simp only [bodyOf, ccompBody] at h
    split at h <;>
    · obtain ⟨_, -, h⟩ := bind_eq_ok.mp h
      obtain ⟨_, -, h⟩ := bind_eq_ok.mp h
      obtain rfl := Except.ok.inj h
      rfl
  | cdec =>
    obtain ⟨rec, -, h⟩ := bind_eq_ok.mp h
    cases rec with
    | raw _ _ =>
      obtain ⟨_, -, h⟩ := bind_eq_ok.mp h
      obtain rfl := Except.ok.inj h
      rfl
    | ent _ _ _ _ =>
      obtain ⟨_, -, h⟩ := bind_eq_ok.mp h
      obtain ⟨_, -, h⟩ := bind_eq_ok.mp h
      obtain rfl := Except.ok.inj h
      rfl

/-- After a success of HBUILD or HDESER the store holds a legal codebook of RES0 entries (R56, R221). -/
theorem succeed_cb_of_installs {s : State} {i : Instr} {r : Result} (hi : InstallsCodebook i)
    (hb : bodyOf i (s.inputs (shapeOf i)) = .ok r) :
    ∃ C, ((s.beginExecution (shapeOf i)).succeed r).cb = some C ∧ C.Legal s.params.maxSymbols ∧
      ((s.beginExecution (shapeOf i)).succeed r).res0 = BitVec.ofNat 32 C.length := by
  obtain ⟨C, hC, hlen⟩ := installs_of_installer hi hb
  obtain ⟨-, -, -, hlegal⟩ := bodyOf_ok hb
  refine ⟨C, ?_, hlegal C hC, ?_⟩
  · rw [State.succeed_cb, hC]
    rfl
  · rw [State.succeed_res0, hlen]

theorem InstallsCodebook.clearsCbValid {i : Instr} (hi : InstallsCodebook i) : i.clearsCbValid = true := by
  rcases hi with rfl | ⟨w, rfl⟩ <;> rfl

theorem clears_and_not_installs {i : Instr} (hi : i = .ccomp ∨ i = .cdec) :
    i.clearsCbValid = true ∧ ¬ InstallsCodebook i := by
  rcases hi with rfl | rfl <;> simp [InstallsCodebook, Instr.clearsCbValid]

/-- Settles O15: turned away, a command keeps CB; an error leaves what the beginning of execution left; a success adds what
it installs. -/
theorem codebookIsReplacedAsStated : Obligations.CodebookIsReplacedAsStated := by
  unfold Obligations.CodebookIsReplacedAsStated
  rintro s t i ⟨hinv, cur, hcur, -⟩ ht
  obtain rfl := exec_eq_next ht
  rcases runCommand_cases s (shapeOf i) (bodyOf i) with ⟨e, hacc, hend⟩ | ⟨hacc, ⟨e, -, hend⟩ | ⟨r, hbody, hend⟩⟩
  all_goals rw [hend]
  · have hnot : ¬ s.Accepts i := fun h => by simp [acceptanceError_of_accepts h] at hacc
    exact ⟨fun _ => rfl, fun _ => rfl, fun h => absurd h hnot, fun h => absurd h hnot⟩
  all_goals have hyes : s.Accepts i := accepts_of_acceptanceError hacc
  · refine ⟨fun h => absurd hyes h, fun hc => ?_, fun _ hi => ?_, fun _ hi => ⟨fun _ => ?_, fun h => ?_⟩⟩
    · simp [hc]
    · simp [(clears_and_not_installs hi).1]
    · simp [InstallsCodebook.clearsCbValid hi]
    · simp at h
  · obtain ⟨herr, -, -⟩ := hinv.clear_of_busy ((s.busy_eq_true_iff).mpr ⟨cur, hcur⟩)
    refine ⟨fun h => absurd hyes h, fun hc => ?_, fun _ hi => ?_, fun _ hi => ⟨fun h => ?_, fun _ => ?_⟩⟩
    · have hni : ¬ InstallsCodebook i := fun h => by simp [h.clearsCbValid] at hc
      simp [installs_eq_none hni hbody, hc]
    · obtain ⟨hc, hni⟩ := clears_and_not_installs hi
      simp [installs_eq_none hni hbody, hc]
    · simp [herr] at h
    · exact succeed_cb_of_installs hi hbody

end Sys2Proof.Machine
end

section
/-! PROOF. 10_state: the STATUS word (R35, R36), and the two resets (R31, R34, R360-R362). -/

namespace Sys2Proof.Machine

open Sys2Proof.Config

/-! ## Accesses to one register -/

theorem access_read_csr (s : State) {off : Nat} (ho : off % 4 = 0) (hlt : off < 0x100) :
    s.access (.read .csr off 32) = s.answer (.data (s.readCsr off)) := by
  simp only [State.access, csrLegal_iff.mpr ⟨rfl, ho, hlt⟩, if_true]

theorem access_write_csr (s : State) {off : Nat} (v : Word) (ho : off % 4 = 0) (hlt : off < 0x100) :
    s.access (.write .csr off 32 v) = (s.writeCsr off v).answer .ok := by
  simp only [State.access, csrLegal_iff.mpr ⟨rfl, ho, hlt⟩, if_true]

theorem readCsr_of_csrAt {s : State} {off : Nat} {c : Csr} (h : csrAt off = some c) : s.readCsr off = c.read s := by
  simp only [State.readCsr, h]

theorem writeCsr_of_csrAt {s : State} {off : Nat} {v : Word} {c : Csr} (h : csrAt off = some c) :
    s.writeCsr off v = c.write v s := by
  simp only [State.writeCsr, h]

/-- The offsets 0x60-0xFC are reserved (R31). -/
theorem csrAt_reserved {off : Nat} (h : 0x60 ≤ off) : csrAt off = none := by
  have hlen : csrMap.length ≤ off / 4 := by
    have : csrMap.length = 24 := rfl
    omega
  exact List.getElem?_eq_none hlen

/-! ## STATUS (R35) -/

/-- A bit of the STATUS word, as a digit of the sum that defines it. -/
theorem statusWord_getLsbD (s : State) {k : Nat} (hk : k < 32) :
    s.statusWord.getLsbD k = decide ((s.busy.toNat + 2 * s.done.toNat + 4 * s.err.toNat + 8 * s.werr.toNat
      + 256 * s.errcode.toNat + 65536 * s.cbValid.toNat) / 2 ^ k % 2 = 1) := by
  rw [State.statusWord, BitVec.getLsbD_ofNat, Nat.testBit_eq_decide_div_mod_eq]
  simp [hk]

/-- A bit that is a number's last digit is the Bool with that digit. -/
theorem eq_of_digit {b c : Bool} {n : Nat} (hc : c = decide (n % 2 = 1)) (hn : n % 2 = b.toNat) : c = b := by
  cases b <;> simp_all

/-- The fields of STATUS at their bits, and 0 at the reserved ones (R35). -/
theorem statusWord_fields (s : State) :
    s.statusWord.getLsbD 0 = s.busy ∧ s.statusWord.getLsbD 1 = s.done ∧ s.statusWord.getLsbD 2 = s.err ∧
    s.statusWord.getLsbD 3 = s.werr ∧ s.statusWord.extractLsb' 8 4 = s.errcode ∧ s.statusWord.getLsbD 16 = s.cbValid ∧
    ∀ k, (4 ≤ k ∧ k < 8) ∨ (12 ≤ k ∧ k < 16) ∨ (17 ≤ k ∧ k < 32) → s.statusWord.getLsbD k = false := by
  have hbusy := s.busy.toNat_le
  have hdone := s.done.toNat_le
  have herr := s.err.toNat_le
  have hwerr := s.werr.toNat_le
  have hcode := s.errcode.isLt
  have hcb := s.cbValid.toNat_le
  refine ⟨?busy, ?done, ?err, ?werr, ?errcode, ?cbValid, fun k hk => ?reserved⟩
  case busy | done | err | werr | cbValid => exact eq_of_digit (statusWord_getLsbD s (by decide)) (by omega)
  case errcode =>
    apply BitVec.eq_of_toNat_eq
    simp only [State.statusWord, BitVec.extractLsb'_toNat, BitVec.toNat_ofNat, Nat.shiftRight_eq_div_pow]
    omega
  case reserved =>
    have hlt : k < 32 := by omega
    refine eq_of_digit (statusWord_getLsbD s hlt) ?_
    rw [Bool.toNat_false]
    interval_cases k <;> omega

/-- Settles O24: a STATUS access reads or writes the STATUS word alone. -/
theorem statusReadsAndClears : Obligations.StatusReadsAndClears := by
  unfold Obligations.StatusReadsAndClears
  constructor
  · intro s
    exact ⟨s.statusWord, rfl, statusWord_fields s⟩
  · intro s v
    have hw : s.access (.write .csr 0x14 32 v) = (s.writeStatus v).answer .ok := rfl
    have hclear : ∀ b c : Bool, (b && !c) = if c then false else b := by decide
    simp only [hw, State.answer, State.writeStatus, hclear]

/-- ERR = 1 with DONE = 0 is left as it was, or left by a STATUS write that clears DONE alone (R36). -/
theorem accessEffect_err {s t : State} {a : Access} (ha : AccessEffect s a t) (herr : t.err = true) :
    t.done = true ∨ (s.err = true ∧ s.done = false) ∨
      ∃ v : Word, a = .write .csr 0x14 32 v ∧ v.getLsbD 1 = true ∧ v.getLsbD 2 = false := by
  have keep : s.err = true → s.done = true ∨ s.err = true ∧ s.done = false := fun h => by simp [h]
  cases ha with
  | nothing | lockedOut | irqEnable | setsRegs | storesLmem => exact (keep herr).imp_right .inl
  | softReset =>
    rw [resetBlock_eq] at herr
    cases herr
  | accepts w => cases herr
  | clearsStatus v hv =>
    simp only [State.writeStatus_err, State.writeStatus_done, Bool.and_eq_true, Bool.not_eq_true'] at herr ⊢
    obtain ⟨he, h2⟩ := herr
    cases hd : s.done with
    | false => exact .inr (.inl ⟨he, rfl⟩)
    | true =>
      cases h1 : v.getLsbD 1 with
      | false => exact .inl ⟨rfl, rfl⟩
      | true => exact .inr (.inr ⟨v, hv, h1, h2⟩)

/-- The same for every event: a completion sets DONE, and a reset clears ERR. -/
theorem handle_err {s t : State} {e : Event} (ht : s.handle e = .next t) (herr : t.err = true) :
    t.done = true ∨ (s.err = true ∧ s.done = false) ∨
      ∃ v : Word, e = .host (.write .csr 0x14 32 v) ∧ v.getLsbD 1 = true ∧ v.getLsbD 2 = false := by
  cases e with
  | host a =>
    obtain ⟨u, r, hu, heq⟩ := access_effect s a
    obtain rfl : u.answer r = t := heq.symm.trans (Host.Outcome.next.inj ht)
    rcases accessEffect_err hu herr with hd | hs | ⟨v, rfl, hv⟩
    · exact .inl hd
    · exact .inr (.inl hs)
    · exact .inr (.inr ⟨v, rfl, hv⟩)
  | hardReset =>
    obtain rfl := Host.Outcome.next.inj ht
    rw [resetBlock_eq] at herr
    cases herr
  | core =>
    rcases coreTurn_cases ht with ⟨-, rfl⟩ | ⟨_, -, ⟨i, rfl⟩ | rfl⟩
    · cases hd : t.done with
      | true => exact .inl rfl
      | false => exact .inr (.inl ⟨herr, rfl⟩)
    · obtain ⟨-, -, -, -, -, -, -, -, hdone⟩ := runCommand_frame s (shapeOf i) (bodyOf i)
      exact .inl hdone
    · exact .inl rfl

/-- Settles O18: the legal combinations are the invariant's. -/
theorem statusIsNeverIllegal : Obligations.StatusIsNeverIllegal := by
  unfold Obligations.StatusIsNeverIllegal
  constructor
  · intro s t e h ht
    obtain ⟨hbusy, herr, -⟩ := (h.handle ht).status
    exact ⟨hbusy, herr, handle_err ht⟩
  · intro s
    exact ⟨_, access_read_csr s (by decide) (by decide)⟩

/-! ## Reset (R360-R362) -/

/-- A reset, hardware or soft, answers the reset block; only the soft reset's own write is answered. -/
theorem handle_reset {s t : State} {e : Event} (he : e.IsReset) (ht : s.handle e = .next t) :
    t = { s.resetBlock with port := if e = .hardReset then s.port else some .ok } := by
  rcases he with rfl | ⟨v, hv, rfl⟩
  · obtain rfl := Host.Outcome.next.inj ht
    rw [if_pos rfl, resetBlock_eq]
  · obtain rfl := Host.Outcome.next.inj ht
    have hw : s.writeCsr 0x10 v = s.resetBlock := by
      rw [writeCsr_of_csrAt (c := .ctrl) rfl]
      simp only [Csr.write, State.writeCtrl, hv, if_true]
    rw [access_write_csr s v (by decide) (by decide), hw, if_neg (by simp)]
    rfl

theorem handle_reset_eq {s t : State} {e : Event} (he : e.IsReset) (ht : s.handle e = .next t) :
    t = { State.resetOf s.params with
          lmem := s.abandon.lmem, schedule := s.schedule, draws := s.abandon.draws
          port := if e = .hardReset then s.port else some .ok } := by
  rw [handle_reset he ht, resetBlock_eq]

/-- Settles O19: the reset value of each register, read off the reset state. -/
theorem resetGivesEveryRegisterItsValue : Obligations.ResetGivesEveryRegisterItsValue := by
  unfold Obligations.ResetGivesEveryRegisterItsValue
  intro s t e he ht
  obtain rfl := handle_reset_eq he ht
  refine ⟨?_, fun off hlo hhi ho => ?_, rfl, rfl, rfl⟩
  · simp only [List.forall_mem_cons]
    exact ⟨rfl, rfl, rfl, rfl, rfl, rfl, rfl, rfl, rfl, rfl, rfl, rfl, rfl, rfl, rfl, rfl, rfl, rfl, rfl, rfl, rfl, rfl,
      rfl, rfl, by simp⟩
  · rw [access_read_csr _ ho hhi]
    simp only [State.readCsr, csrAt_reserved hlo, State.answer_port]

/-- Every byte inside the regions of a draw is a free value of that draw (R326, R360). -/
theorem readByte_scramble_inside (s : State) (rs : List Region) (a : Nat)
    (h : ∃ r ∈ rs, r.addr ≤ a ∧ a < r.addr + r.len) : (s.scramble rs).lmem.readByte a = freeByte s.draws a := by
  rw [State.scramble_lmem]
  suffices ∀ m : Memory, ((∃ r ∈ rs, r.addr ≤ a ∧ a < r.addr + r.len) ∨ m.readByte a = freeByte s.draws a) →
      (rs.foldl (fun m r => m.writeBytes r.addr (freeBytes s.draws r.addr r.len)) m).readByte a = freeByte s.draws a from
    this _ (.inl h)
  clear h
  induction rs with
  | nil =>
    intro m hm
    simpa using hm
  | cons r rs ih =>
    intro m hm
    refine ih _ ?_
    by_cases hr : r.addr ≤ a ∧ a < r.addr + r.len
    · obtain ⟨i, rfl⟩ := Nat.exists_eq_add_of_le hr.1
      right
      rw [readByte_writeBytes_inside _ _ _ i (by simpa using hr.2)]
      simp [freeBytes]
    · rcases hm with ⟨q, hq, hqa⟩ | hm
      · rcases List.mem_cons.mp hq with rfl | hq
        · exact absurd hqa hr
        · exact .inl ⟨q, hq, hqa⟩
      · right
        rw [readByte_writeBytes_outside _ _ _ _ (by simp; omega), hm]

/-- The converse of `mem_written`: where a command may write, one of its regions lies (R83). -/
theorem exists_written {s : State} {i : Instr} {a : Nat} (h : s.MayWrite i a) :
    ∃ r ∈ (shapeOf i).written s.operands, r.addr ≤ a ∧ a < r.addr + r.len := by
  rcases h with ⟨hd, ha⟩ | ⟨hs, ha⟩
  · exact ⟨s.operands.dstRegion, mem_shape_written.mpr (.inl ⟨by simpa using hd, rfl⟩), ha⟩
  · exact ⟨s.operands.scratchRegion, mem_shape_written.mpr (.inr ⟨by simpa using hs, rfl⟩), ha⟩

/-- A byte that no running command may write survives a reset (R360). -/
theorem readByte_abandon_outside (s : State) (a : Nat)
    (h : ∀ cur i, s.sequencer = .busy cur → decode cur.word = .ok i → ¬ s.MayWrite i a) :
    s.abandon.lmem.readByte a = s.lmem.readByte a := by
  rcases abandon_cases s with hs | ⟨cur, i, hcur, hi, hs⟩ <;> rw [hs]
  refine readByte_scramble_outside s _ a fun r hr => ?_
  obtain ⟨q, hq, rfl⟩ := List.mem_map.mp hr
  have hout := mem_written hq a (h cur i hcur hi)
  simp only [Region.clip]
  omega

/-- A byte of LMEM that the running command may write becomes a free value (R360, R362). -/
theorem readByte_abandon_inside {s : State} {cur : Cur} {i : Instr} (hcur : s.sequencer = .busy cur)
    (hi : decode cur.word = .ok i) {a : Nat} (ha : a < s.params.lmemSize) (hw : s.MayWrite i a) :
    s.abandon.lmem.readByte a = freeByte s.draws a := by
  have hs : s.abandon = s.scramble (((shapeOf i).written s.operands).map (·.clip s.params.lmemSize)) := by
    simp only [State.abandon, hcur, hi, State.operands_of_busy hcur]
  obtain ⟨r, hr, hra, har⟩ := exists_written hw
  rw [hs]
  refine readByte_scramble_inside s _ a ⟨_, List.mem_map.mpr ⟨r, hr, rfl⟩, hra, ?_⟩
  simp only [Region.clip]
  omega

/-- Settles O20: the reset state around the LMEM that abandoning the command leaves. -/
theorem resetAbandonsTheRunningCommand : Obligations.ResetAbandonsTheRunningCommand := by
  unfold Obligations.ResetAbandonsTheRunningCommand
  intro s t e he ht
  obtain rfl := handle_reset_eq he ht
  exact ⟨rfl, readByte_abandon_outside s, fun cur i hcur hi =>
    ⟨s.draws, fun a ha hw => readByte_abandon_inside hcur hi ha hw⟩⟩

end Sys2Proof.Machine
end

section
/-! PROOF. 10_state: the register map as a store (R31, R40-R48) and the counts of the codebook (R50, R51). -/

namespace Sys2Proof.Machine

open Sys2Proof.Config

/-! ## The locked registers (R31, R40-R48) -/

/-- The registers at `lockedOffsets`. -/
def lockedCsrs : List Csr :=
  [.srcAddr, .srcLen, .dstAddr, .dstCap, .arg0, .arg1, .cfgWindow, .cfgMaxlen, .cfgMinmatch, .cfgMinsize, .cfgRatio]

/-- The bits of a locked register that are not reserved (R44-R48). -/
def writableBits : Csr → Word
  | .cfgWindow | .cfgMaxlen | .cfgMinmatch => 0xFFFF
  | .cfgRatio => 0xFF
  | _ => 0xFFFFFFFF

theorem exists_lockedCsr : ∀ off ∈ lockedOffsets, ∃ c ∈ lockedCsrs, csrAt off = some c ∧ off % 4 = 0 ∧ off < 0x100 ∧
    writableBits c = if off = 0x44 ∨ off = 0x48 ∨ off = 0x4C then 0xFFFF else if off = 0x54 then 0xFF else 0xFFFFFFFF := by
  decide

/-- Storing the low `k` bits and reading them zero-extended masks the others. -/
theorem zeroExtend_extractLsb' (v : Word) (k : Nat) :
    (v.extractLsb' 0 k).zeroExtend 32 = v &&& BitVec.ofNat 32 (2 ^ k - 1) := by
  ext j hj
  have hmask : (BitVec.ofNat 32 (2 ^ k - 1))[j] = decide (j < k) := by
    rw [← BitVec.getLsbD_eq_getElem, BitVec.getLsbD_ofNat, Nat.testBit_two_pow_sub_one]
    simp [hj]
  simp [hmask, BitVec.getLsbD_eq_getElem hj, Bool.and_comm]

/-- A locked register reads back what is written, its reserved bits 0. -/
theorem read_write_locked {s : State} (hb : s.busy = false) {c : Csr} (hc : c ∈ lockedCsrs) (v : Word) :
    c.read (c.write v s) = v &&& writableBits c := by
  cases c with
  | srcAddr | srcLen | dstAddr | dstCap | arg0 | arg1 | cfgMinsize =>
    simp only [Csr.write, State.writeLocked, hb, Csr.read, writableBits]
    exact BitVec.and_allOnes.symm
  | cfgWindow | cfgMaxlen | cfgMinmatch =>
    simp only [Csr.write, State.writeLocked, hb, Csr.read, writableBits]
    exact zeroExtend_extractLsb' v _
  | cfgRatio =>
    simp only [Csr.write, State.writeLocked, hb, Csr.read, writableBits]
    exact zeroExtend_extractLsb' v _
  | id | capLmem | capSymbols | capCodelen | ctrl | status | cmd | errinfo | res0 | res1 | res2 | cbCount | cbMaxlen =>
    simp [lockedCsrs] at hc

/-- No other register reads differently for it. -/
theorem read_write_other {s : State} (hb : s.busy = false) {c d : Csr} (hc : c ∈ lockedCsrs) (hd : d ≠ c) (v : Word) :
    d.read (c.write v s) = d.read s := by
  cases c with
  | srcAddr | srcLen | dstAddr | dstCap | arg0 | arg1 | cfgMinsize | cfgWindow | cfgMaxlen | cfgMinmatch | cfgRatio =>
    simp only [Csr.write, State.writeLocked, hb]
    cases d <;>
    simp [Csr.read, State.ctrlWord, State.statusWord, State.busy, State.cbValid, State.cbCount, State.cbMaxLen] at hd ⊢
  | id | capLmem | capSymbols | capCodelen | ctrl | status | cmd | errinfo | res0 | res1 | res2 | cbCount | cbMaxlen =>
    simp [lockedCsrs] at hc

theorem readCsr_write_other {s : State} (hb : s.busy = false) {off other : Nat} {c : Csr} (hc : c ∈ lockedCsrs)
    (hoff : csrAt off = some c) (ho : off % 4 = 0) (ho' : other % 4 = 0) (hne : other ≠ off) (v : Word) :
    (c.write v s).readCsr other = s.readCsr other := by
  cases hd : csrAt other with
  | none => simp only [State.readCsr, hd]
  | some d =>
    have hdc : d ≠ c := fun h => hne (csrAt_inj hoff (h ▸ hd) ho ho')
    rw [readCsr_of_csrAt hd, readCsr_of_csrAt hd, read_write_other hb hc hdc]

/-- The port's last answer is no register. -/
theorem readCsr_answer (s : State) (r : Response) (off : Nat) : (s.answer r).readCsr off = s.readCsr off := by
  unfold State.readCsr
  split
  · rename_i c _
    cases c <;> rfl
  · rfl

/-- Settles O23: register by register through the register map. -/
theorem registersReadBackWhatWasWritten : Obligations.RegistersReadBackWhatWasWritten := by
  unfold Obligations.RegistersReadBackWhatWasWritten
  intro s off v hb hoff
  obtain ⟨c, hc, hat, ho, hlt, hmask⟩ := exists_lockedCsr off hoff
  rw [access_write_csr s v ho hlt, writeCsr_of_csrAt hat, ← hmask]
  constructor
  · rw [access_read_csr _ ho hlt, State.answer_port, readCsr_answer, readCsr_of_csrAt hat, read_write_locked hb hc]
  · intro other hlt' ho' hne
    rw [access_read_csr _ ho' hlt', access_read_csr _ ho' hlt', State.answer_port, State.answer_port, readCsr_answer,
      readCsr_write_other hb hc hat ho ho' hne]

/-! ## CB_COUNT and CB_MAXLEN (R50, R51) -/

/-- The fold of CB_MAXLEN is the least bound of its start and of every code length. -/
theorem foldl_max_le_iff (C : Codebook) (m k : Nat) :
    C.foldl (fun m e => max m e.code.length) m ≤ k ↔ m ≤ k ∧ ∀ e ∈ C, e.code.length ≤ k := by
  induction C generalizing m with
  | nil => simp
  | cons d C ih => simp [ih, and_assoc]

/-- The fold takes the length of some entry, or its start. -/
theorem foldl_max_mem (C : Codebook) (m : Nat) :
    C.foldl (fun m e => max m e.code.length) m = m ∨
      ∃ e ∈ C, e.code.length = C.foldl (fun m e => max m e.code.length) m := by
  induction C generalizing m with
  | nil => exact .inl rfl
  | cons d C ih =>
    rw [List.foldl_cons]
    rcases ih (max m d.code.length) with h | ⟨e, he, h⟩
    · rw [h]
      rcases max_choice m d.code.length with hm | hm
      · exact .inl hm
      · exact .inr ⟨d, List.mem_cons_self, hm.symm⟩
    · exact .inr ⟨e, List.mem_cons_of_mem _ he, h⟩

theorem Codebook.maxLen_le_iff {C : Codebook} {k : Nat} : Codebook.maxLen C ≤ k ↔ ∀ e ∈ C, e.code.length ≤ k := by
  simp [Codebook.maxLen, foldl_max_le_iff]

theorem Codebook.exists_length_eq_maxLen {C : Codebook} (hne : C ≠ []) :
    ∃ e ∈ C, e.code.length = Codebook.maxLen C := by
  rcases foldl_max_mem C 0 with h | h
  · obtain ⟨e, he⟩ := List.exists_mem_of_ne_nil C hne
    have hle := Codebook.maxLen_le_iff.mp (Nat.le_refl (Codebook.maxLen C)) e he
    refine ⟨e, he, Nat.le_antisymm hle ?_⟩
    rw [Codebook.maxLen, h]
    exact Nat.zero_le _
  · exact h

/-- R6, R56: a legal codebook's counts fit their registers. -/
theorem Codebook.Legal.fits {p : Params} (hp : p.wellFormed = true) {C : Codebook} (hC : C.Legal p.maxSymbols) :
    C.length < 2 ^ 32 ∧ Codebook.maxLen C < 2 ^ 32 := by
  obtain ⟨-, -, hcodes, hlen⟩ := hC
  have hmax : p.maxSymbols ≤ 2 ^ 20 := by
    simp only [Params.wellFormed, Params.maxSymbolsLegal, Bool.and_eq_true, decide_eq_true_eq] at hp
    exact hp.2.2
  have hm : Codebook.maxLen C ≤ 32 := Codebook.maxLen_le_iff.mpr fun e he => (hcodes e he).2
  omega

/-- Settles O25: the two registers are the counts of the codebook, which fit 32 bits. -/
theorem codebookCountAndMaxLen : Obligations.CodebookCountAndMaxLen := by
  unfold Obligations.CodebookCountAndMaxLen
  intro s h
  refine ⟨BitVec.ofNat 32 s.cbCount, BitVec.ofNat 32 s.cbMaxLen, rfl, rfl, fun v => ⟨rfl, rfl⟩, fun hnone => ?_,
    fun C hC => ?_⟩
  · simp [State.cbCount, State.cbMaxLen, hnone, Codebook.maxLen]
  · obtain ⟨hcount, hmax⟩ := Codebook.Legal.fits h.params (h.codebook C hC)
    have hm : (BitVec.ofNat 32 s.cbMaxLen).toNat = Codebook.maxLen C := by
      rw [State.cbMaxLen, hC, BitVec.toNat_ofNat]
      exact Nat.mod_eq_of_lt hmax
    have hn : (BitVec.ofNat 32 s.cbCount).toNat = C.length := by
      rw [State.cbCount, hC, BitVec.toNat_ofNat]
      exact Nat.mod_eq_of_lt hcount
    refine ⟨hn, ?_, fun hne => ?_⟩
    · rintro rfl
      simp [State.cbMaxLen, hC, Codebook.maxLen]
    · rw [hm]
      exact ⟨Codebook.exists_length_eq_maxLen hne, Codebook.maxLen_le_iff.mp (Nat.le_refl _)⟩

end Sys2Proof.Machine
end

section
/-! PROOF. 20_memory: the bytes a command leaves alone (R83, R119, R122). -/

namespace Sys2Proof.Machine

/-- The frame of a success: outside the bytes put out, and outside the scratch where it is used, LMEM keeps its bytes
(R122, R142). -/
theorem readByte_succeed_outside {s : State} {r : Result} {a : Nat}
    (hout : a < s.operands.dstAddr.toNat ∨ s.operands.dstAddr.toNat + r.out.length ≤ a)
    (hscr : r.scratchUsed = true → ¬ s.InScratch a) : (s.succeed r).lmem.readByte a = s.lmem.readByte a := by
  have hdst := readByte_writeBytes_outside s.lmem _ r.out a hout
  rw [State.succeed_lmem]
  split
  · have hnot := hscr ‹_›
    unfold State.InScratch at hnot
    rw [readByte_writeBytes_outside _ _ _ a (by rw [freeBytes_length]; omega), hdst]
  · exact hdst

/-- Bytes outside its destination and its scratch a command keeps, whatever its end (R83). -/
theorem readByte_runCommand_outside {s : State} {i : Instr} {a : Nat} (ha : ¬ s.MayWrite i a) :
    (s.runCommand (shapeOf i) (bodyOf i)).lmem.readByte a = s.lmem.readByte a := by
  obtain ⟨hdst, hscr⟩ := not_or.mp ha
  rcases runCommand_cases s (shapeOf i) (bodyOf i) with ⟨e, -, hend⟩ | ⟨-, ⟨e, -, hend⟩ | ⟨r, hbody, hend⟩⟩
  all_goals rw [hend]
  · rfl
  · rw [State.raise_lmem, readByte_scramble_outside _ _ _ fun r hr => mem_written hr a ha, State.beginExecution_lmem]
  · obtain ⟨hlen, hnone, hused, -⟩ := bodyOf_ok hbody
    have hcap : r.out.length ≤ s.operands.dstCap.toNat := hlen
    rw [readByte_succeed_outside, State.beginExecution_lmem]
    · rw [State.beginExecution_operands]
      cases hd : i.usesDestination with
      | false =>
        rw [hnone (by rw [shapeOf_dst, hd])]
        exact Nat.lt_or_ge a _
      | true =>
        have hnot : ¬ s.InDestination a := fun h => hdst ⟨hd, h⟩
        unfold State.InDestination at hnot
        omega
    · intro hu
      have hs : i.usesScratch = true := shapeOf_scratch i ▸ hused hu
      simpa only [State.InScratch, State.beginExecution_operands] using fun h : s.InScratch a => hscr ⟨hs, h⟩

/-- A command with a destination reports in RES0 how many bytes it put out (R122). -/
theorem res0_of_usesDestination {i : Instr} {x : Inputs} {r : Result} (hi : i.usesDestination = true)
    (h : bodyOf i x = .ok r) : r.res0 = BitVec.ofNat 32 r.out.length := by
  cases i with
  | nop | vread | hbuild _ | hdeser | hcode => cases hi
  | bpack _ | vwrite | hser | lzcomp =>
    obtain ⟨_, -, h⟩ := bind_eq_ok.mp h
    obtain rfl := Except.ok.inj h
    rfl
  | bunpack _ | henc _ | lzdec =>
    obtain ⟨_, -, h⟩ := bind_eq_ok.mp h
    obtain ⟨_, -, h⟩ := bind_eq_ok.mp h
    obtain rfl := Except.ok.inj h
    rfl
  | hdec =>
    obtain ⟨_, -, h⟩ := bind_eq_ok.mp h
    obtain ⟨_, -, h⟩ := bind_eq_ok.mp h
    obtain ⟨_, -, h⟩ := bind_eq_ok.mp h
    obtain rfl := Except.ok.inj h
    rfl
  | ccomp =>
    simp only [bodyOf, ccompBody] at h
    split at h <;>
    · obtain ⟨_, -, h⟩ := bind_eq_ok.mp h
      obtain ⟨_, -, h⟩ := bind_eq_ok.mp h
      obtain rfl := Except.ok.inj h
      rfl
  | cdec =>
    obtain ⟨rec, -, h⟩ := bind_eq_ok.mp h
    cases rec with
    | raw _ _ =>
      obtain ⟨_, -, h⟩ := bind_eq_ok.mp h
      obtain rfl := Except.ok.inj h
      rfl
    | ent _ _ _ _ =>
      obtain ⟨_, -, h⟩ := bind_eq_ok.mp h
      obtain ⟨_, -, h⟩ := bind_eq_ok.mp h
      obtain rfl := Except.ok.inj h
      rfl

/-- RES0 is that number itself: what fits the destination fits 32 bits (R8). -/
theorem res0_toNat_of_usesDestination {i : Instr} {x : Inputs} {r : Result} (hi : i.usesDestination = true)
    (h : bodyOf i x = .ok r) : r.res0.toNat = r.out.length := by
  obtain ⟨hlen, -⟩ := bodyOf_ok h
  rw [res0_of_usesDestination hi h, BitVec.toNat_ofNat, Nat.mod_eq_of_lt (Nat.lt_of_le_of_lt hlen x.ops.dstCap.isLt)]

/-- Settles O11: the frame of a command's three ends, and of a success the narrower one, with RES0 as the length of what
it put out. -/
theorem commandsTouchOnlyTheirRegions : Obligations.CommandsTouchOnlyTheirRegions := by
  unfold Obligations.CommandsTouchOnlyTheirRegions
  constructor
  · intro s t i a ht ha
    obtain rfl := exec_eq_next ht
    exact readByte_runCommand_outside ha
  · intro s t i a _ ht herr hi hout hscr
    obtain rfl := exec_eq_next ht
    rcases runCommand_cases s (shapeOf i) (bodyOf i) with ⟨e, -, hend⟩ | ⟨-, ⟨e, -, hend⟩ | ⟨r, hbody, hend⟩⟩
    all_goals rw [hend] at herr hout ⊢
    · cases herr
    · cases herr
    · obtain ⟨-, -, hused, -⟩ := bodyOf_ok hbody
      rw [State.succeed_res0, res0_toNat_of_usesDestination hi hbody] at hout
      rw [readByte_succeed_outside, State.beginExecution_lmem]
      · simpa using hout
      · intro hu
        simpa only [State.InScratch, State.beginExecution_operands] using hscr (shapeOf_scratch i ▸ hused hu)

end Sys2Proof.Machine
end

section
/-! PROOF. 20_memory: the bus port (R84, R85, R329), and LMEM as words and bytes (R86, R87, R92). -/

namespace Sys2Proof.Machine

/-! ## Legal and illegal accesses -/

theorem lmemLegal_iff {size off width : Nat} : lmemLegal size off width = true ↔ LmemAccessLegal size off width := by
  simp [lmemLegal, LmemAccessLegal, and_assoc]

/-- R84, R85: an access that the port serves. -/
def State.AccessLegal (s : State) (space : Space) (off width : Nat) : Prop :=
  (space = .csr ∧ CsrAccessLegal off width) ∨ (space = .lmem ∧ LmemAccessLegal s.params.lmemSize off width)

/-- R84, R85, R329: anything else is answered with a bus error and has no effect. -/
theorem access_illegal {s : State} {space : Space} {off width : Nat} (h : ¬ s.AccessLegal space off width) (v : Word) :
    s.access (.read space off width) = s.answer .busError ∧
    s.access (.write space off width v) = s.answer .busError := by
  cases space with
  | csr =>
    have hc : ¬ csrLegal off width = true := fun hl => h (.inl ⟨rfl, csrLegal_iff.mp hl⟩)
    simp only [State.access, if_neg hc, and_self]
  | lmem =>
    have hl : ¬ lmemLegal s.params.lmemSize off width = true := fun hl => h (.inr ⟨rfl, lmemLegal_iff.mp hl⟩)
    simp only [State.access, if_neg hl, and_self]

/-- A legal read answers data: the value read, or 0 where LMEM is locked (R92, R372). -/
theorem access_read_port {s : State} {space : Space} {off width : Nat} (h : s.AccessLegal space off width) :
    ∃ w, (s.access (.read space off width)).port = some (.data w) := by
  rcases h with ⟨rfl, h⟩ | ⟨rfl, h⟩
  · simp only [State.access, if_pos (csrLegal_iff.mpr h)]
    exact ⟨_, rfl⟩
  · simp only [State.access, if_pos (lmemLegal_iff.mpr h)]
    split
    · exact ⟨0, rfl⟩
    · exact ⟨_, rfl⟩

theorem access_write_port {s : State} {space : Space} {off width : Nat} (h : s.AccessLegal space off width) (v : Word) :
    (s.access (.write space off width v)).port = some .ok := by
  rcases h with ⟨rfl, h⟩ | ⟨rfl, h⟩
  · simp only [State.access, if_pos (csrLegal_iff.mpr h), State.answer_port]
  · simp only [State.access, if_pos (lmemLegal_iff.mpr h)]
    split <;> rfl

/-- Settles O21: the port's answer to each access, legal or not. -/
theorem illegalAccessesHaveNoEffect : Obligations.IllegalAccessesHaveNoEffect := by
  unfold Obligations.IllegalAccessesHaveNoEffect
  intro s space off width v
  constructor
  · intro h
    have hnot : ¬ s.AccessLegal space off width := by
      rcases h with ⟨rfl, h⟩ | ⟨rfl, h⟩ <;> simpa [State.AccessLegal] using h
    exact access_illegal hnot v
  · intro h
    obtain ⟨w, hw⟩ := access_read_port h
    exact ⟨by simp [hw], access_write_port h v⟩

/-! ## LMEM accesses while IDLE (R85, R92) -/

section Idle

variable {s : State} (hb : s.busy = false)
include hb

theorem access_read_lmem {off width : Nat} (h : LmemAccessLegal s.params.lmemSize off width) :
    s.access (.read .lmem off width) = s.answer (.data (s.readLmem off width)) := by
  simp [State.access, lmemLegal_iff.mpr h, hb]

theorem access_write_lmem {off width : Nat} (h : LmemAccessLegal s.params.lmemSize off width) (v : Word) :
    s.access (.write .lmem off width v) = (s.writeLmem off width v).answer .ok := by
  simp [State.access, lmemLegal_iff.mpr h, hb]

end Idle

@[simp] theorem writeLmem_busy (s : State) (off width : Nat) (v : Word) : (s.writeLmem off width v).busy = s.busy := rfl

@[simp] theorem writeLmem_params (s : State) (off width : Nat) (v : Word) :
    (s.writeLmem off width v).params = s.params := rfl

@[simp] theorem writeLmem_byte_lmem (s : State) (off : Nat) (v : Word) :
    (s.writeLmem off 8 v).lmem = s.lmem.writeBytes off [v.extractLsb' 0 8] := rfl

@[simp] theorem writeLmem_word_lmem (s : State) (off : Nat) (v : Word) :
    (s.writeLmem off 32 v).lmem = s.lmem.writeBytes off (be32 v) := rfl

/-! ## Words and bytes as views of the same bytes (R86, R87) -/

/-- An 8-bit write stores the byte that its data extends (entry 16). -/
theorem extractLsb'_zeroExtend_byte (b : Byte) : (b.zeroExtend 32).extractLsb' 0 8 = b := by
  ext j hj
  have h32 : j < 32 := by omega
  simp [h32, BitVec.getLsbD_eq_getElem hj]

/-- Byte `k` of a word is its digits [31-8k : 24-8k] (R86). -/
theorem be32_getElem (v : Word) {k : Nat} (hk : k < (be32 v).length) : (be32 v)[k] = v.extractLsb' (24 - 8 * k) 8 := by
  have h4 : k < 4 := hk
  interval_cases k <;> rfl

theorem readByte_writeBytes_singleton (m : Memory) (a : Nat) (b : Byte) (x : Nat) :
    (m.writeBytes a [b]).readByte x = if x = a then b else m.readByte x := by
  split
  · subst x
    exact readByte_writeBytes_inside m a [b] 0 Nat.one_pos
  · exact readByte_writeBytes_outside m a [b] x (by rw [List.length_singleton]; omega)

/-- A word is the value of its four bytes, most significant byte first (R86, R87). -/
theorem readWord_eq_ofNat (m : Memory) (a : Nat) :
    m.readWord a = BitVec.ofNat 32 ((m.readByte a).toNat * 2 ^ 24 + (m.readByte (a + 1)).toNat * 2 ^ 16 +
      (m.readByte (a + 2)).toNat * 2 ^ 8 + (m.readByte (a + 3)).toNat) := by
  have h4 : m.readBytes a 4 = [m.readByte a, m.readByte (a + 1), m.readByte (a + 2), m.readByte (a + 3)] := rfl
  rw [Memory.readWord, h4, beNat_four]
  refine congrArg (BitVec.ofNat 32) ?_
  omega

theorem stores_writeBytes (m : Memory) (a : Nat) (bs : List Byte) : m.Stores (m.writeBytes a bs) a bs :=
  ⟨readBytes_writeBytes m a bs, readByte_writeBytes_outside m a bs⟩

/-- The 8-bit write of a byte leaves the port IDLE and stores that byte (R85; entry 16). -/
theorem access_write_byte {s : State} (hb : s.busy = false) {off : Nat} (h : off < s.params.lmemSize) (b : Byte) :
    (s.access (.write .lmem off 8 (b.zeroExtend 32))).busy = false ∧
    (s.access (.write .lmem off 8 (b.zeroExtend 32))).params = s.params ∧
    (s.access (.write .lmem off 8 (b.zeroExtend 32))).lmem = s.lmem.writeBytes off [b] := by
  rw [access_write_lmem hb (.inl ⟨rfl, h⟩)]
  exact ⟨hb, rfl, by rw [State.answer_lmem, writeLmem_byte_lmem, extractLsb'_zeroExtend_byte]⟩

/-- R85, R92: while IDLE the port reads and writes the bytes of LMEM. -/
theorem servesLmem_of_idle {s : State} (hb : s.busy = false) : s.ServesLmem := by
  refine ⟨fun off hoff => ?_, fun off halign hoff => ?_⟩
  · have hlegal : LmemAccessLegal s.params.lmemSize off 8 := .inl ⟨rfl, hoff⟩
    have hwrite := access_write_lmem hb hlegal
    refine ⟨access_read_lmem hb hlegal, fun v => ⟨_, hwrite v, fun a ha => ?_⟩, fun b => ⟨_, hwrite _, ?_⟩⟩
    · rw [writeLmem_byte_lmem, readByte_writeBytes_singleton, if_neg ha]
    · rw [writeLmem_byte_lmem, extractLsb'_zeroExtend_byte]
      exact stores_writeBytes s.lmem off [b]
  · have hlegal : LmemAccessLegal s.params.lmemSize off 32 := .inr ⟨rfl, halign, hoff⟩
    refine ⟨?_, fun v => ⟨_, access_write_lmem hb hlegal v, stores_writeBytes s.lmem off (be32 v)⟩⟩
    rw [access_read_lmem hb hlegal, ← readWord_eq_ofNat]
    rfl

/-- R87: the bytes of a word just written. -/
theorem read_byte_of_written_word {s : State} (hb : s.busy = false) {a : Nat} (halign : a % 4 = 0)
    (hfit : a + 4 ≤ s.params.lmemSize) (v : Word) {k : Nat} (hk : k < 4) :
    ((s.access (.write .lmem a 32 v)).access (.read .lmem (a + k) 8)).port =
      some (.data ((v.extractLsb' (24 - 8 * k) 8).zeroExtend 32)) := by
  have hinside := readByte_writeBytes_inside s.lmem a (be32 v) k (by simpa using hk)
  rw [access_write_lmem hb (.inr ⟨rfl, halign, hfit⟩), access_read_lmem (by simpa using hb) (.inl ⟨rfl, by simp; omega⟩),
    State.answer_port, State.readLmem, if_pos rfl, State.answer_lmem, writeLmem_word_lmem, hinside, be32_getElem]

/-- R87: the word of four bytes just written. -/
theorem read_word_of_written_bytes {s : State} (hb : s.busy = false) {a : Nat} (halign : a % 4 = 0)
    (hfit : a + 4 ≤ s.params.lmemSize) (b0 b1 b2 b3 : Byte) :
    (((((s.access (.write .lmem a 8 (b0.zeroExtend 32))).access (.write .lmem (a + 1) 8 (b1.zeroExtend 32))).access
      (.write .lmem (a + 2) 8 (b2.zeroExtend 32))).access (.write .lmem (a + 3) 8 (b3.zeroExtend 32))).access
      (.read .lmem a 32)).port =
      some (.data (BitVec.ofNat 32
        (b0.toNat * 2 ^ 24 + b1.toNat * 2 ^ 16 + b2.toNat * 2 ^ 8 + b3.toNat))) := by
  obtain ⟨hb0, hp0, hm0⟩ := access_write_byte hb (off := a) (by omega) b0
  obtain ⟨hb1, hp1, hm1⟩ := access_write_byte hb0 (off := a + 1) (by rw [hp0]; omega) b1
  obtain ⟨hb2, hp2, hm2⟩ := access_write_byte hb1 (off := a + 2) (by rw [hp1, hp0]; omega) b2
  obtain ⟨hb3, hp3, hm3⟩ := access_write_byte hb2 (off := a + 3) (by rw [hp2, hp1, hp0]; omega) b3
  rw [access_read_lmem hb3 (.inr ⟨rfl, halign, by rwa [hp3, hp2, hp1, hp0]⟩), State.answer_port, State.readLmem,
    if_neg (by decide), readWord_eq_ofNat, hm3, hm2, hm1, hm0]
  simp [readByte_writeBytes_singleton]

/-- Settles O22: the mixed-width views from the two sides of the port, the command's view, and the frames. -/
theorem lmemWordsAreBigEndian : Obligations.LmemWordsAreBigEndian := by
  unfold Obligations.LmemWordsAreBigEndian
  refine ⟨fun s a v hb halign hfit => ⟨fun k hk => read_byte_of_written_word hb halign hfit v hk, fun b hout => ?_⟩,
    fun s a b0 b1 b2 b3 hb halign hfit => read_word_of_written_bytes hb halign hfit b0 b1 b2 b3, fun m a => ?_,
    fun s hb => servesLmem_of_idle hb, fun s off h => ?_⟩
  · rw [access_write_lmem hb (.inr ⟨rfl, halign, hfit⟩), State.answer_lmem, writeLmem_word_lmem]
    exact readByte_writeBytes_outside s.lmem a (be32 v) b hout
  · rw [← readWord_eq_ofNat]
    exact wordsOf_readBytes m a 1
  · obtain ⟨-, halign, hlt⟩ := h
    exact ⟨_, access_read_csr s halign hlt⟩

end Sys2Proof.Machine
end

section
/-! PROOF. 30_encoding: the decoder and the encoder (R110, R112-R114, R123, R124). -/

namespace Sys2Proof

/-! ## Masks -/

theorem and_plainMask (w : Word) : w &&& plainMask = w := BitVec.and_allOnes

/-- A word is its bits under the mask of a flagged row, and F0 (R110). -/
theorem and_flagMask_or_f0 (w : Word) : w &&& flagMask ||| (if w.getLsbD 8 then 0x100 else 0) = w := by
  have hf0 : (if w.getLsbD 8 then 0x100#32 else 0#32) = w &&& 0x100#32 := (BitVec.and_twoPow w 8).symm
  rw [show (0x100 : Word) = 0x100#32 from rfl, show (0 : Word) = 0#32 from rfl, hf0, ← BitVec.and_or_distrib_left]
  exact and_plainMask w

/-! ## Rows (R124) -/

theorem Row.selects_iff {r : Row} {w : Word} : r.selects w = true ↔ w &&& r.mask = r.pattern := by
  simp [Row.selects]

/-- A row without a flag builds the one command whose encoding is its match; a row with a flag builds the command whose
encoding has F0 beside the match (R112, R113). -/
theorem encode_build_of_mem : ∀ r ∈ opcodeTable,
    (r.mask = plainMask ∧ ∀ f, encode (r.build f) = r.pattern) ∨
    (r.mask = flagMask ∧ ∀ f, encode (r.build f) = r.pattern ||| (if f then 0x100 else 0)) := by
  decide

/-- A word that selects a row encodes the command the row builds from it. -/
theorem encode_build_of_selects {r : Row} (hr : r ∈ opcodeTable) {w : Word} (h : r.selects w = true) :
    encode (r.build (w.getLsbD 8)) = w := by
  rw [Row.selects_iff] at h
  rcases encode_build_of_mem r hr with ⟨hm, he⟩ | ⟨hm, he⟩
  · rw [he, ← h, hm, and_plainMask]
  · rw [he, ← h, hm, and_flagMask_or_f0]

theorem pattern_and_flagMask_of_mem : ∀ r ∈ opcodeTable, r.pattern &&& flagMask = r.pattern := by decide

theorem patterns_distinct : opcodeTable.Pairwise fun r q => r.pattern ≠ q.pattern := by decide

/-- F0 apart, a word that selects a row is the row's match. -/
theorem and_flagMask_of_selects {r : Row} (hr : r ∈ opcodeTable) {w : Word} (h : r.selects w = true) :
    w &&& flagMask = r.pattern := by
  rw [Row.selects_iff] at h
  rcases encode_build_of_mem r hr with ⟨hm, -⟩ | ⟨hm, -⟩
  · rw [hm, and_plainMask] at h
    rw [h, pattern_and_flagMask_of_mem r hr]
  · rw [← h, hm]

/-! ## The decoder -/

theorem decode_eq_ok_iff {w : Word} {i : Instr} :
    decode w = .ok i ↔ ∃ r, opcodeTable.find? (fun r => r.selects w) = some r ∧ r.build (w.getLsbD 8) = i := by
  unfold decode
  split <;> simp [*]

theorem decode_eq_error_iff {w : Word} :
    (∃ e, decode w = .error e) ↔ ∀ r ∈ opcodeTable, r.selects w = false := by
  have hnone : (∃ e, decode w = .error e) ↔ opcodeTable.find? (fun r => r.selects w) = none := by
    unfold decode
    split <;> simp [*]
  simpa using hnone

/-- Settles O2: a word that the decoder reads selects a row, and so encodes what the row builds; every encoding is
read. -/
theorem decodeAndEncodeAgree : Obligations.DecodeAndEncodeAgree := by
  unfold Obligations.DecodeAndEncodeAgree
  intro w i
  constructor
  · intro h
    obtain ⟨r, hfind, rfl⟩ := decode_eq_ok_iff.mp h
    have hsel : r.selects w = true := by simpa using List.find?_some hfind
    exact (encode_build_of_selects (List.mem_of_find?_eq_some hfind) hsel).symm
  · rintro rfl
    exact Machine.decode_encode i

/-- Settles O1: each word is the encoding of its command. -/
theorem tableWordsDecodeToTheirCommands : Obligations.TableWordsDecodeToTheirCommands := by
  unfold Obligations.TableWordsDecodeToTheirCommands
  simp only [decodeAndEncodeAgree _ _]
  decide

/-- Settles O3: the table as it stands; F0 apart, a word selects only the row whose match it is. -/
theorem opcodeRowsAreDisjoint : Obligations.OpcodeRowsAreDisjoint := by
  unfold Obligations.OpcodeRowsAreDisjoint
  refine ⟨rfl, rfl, fun _ _ => Row.selects_iff, ?_, fun _ => decode_eq_error_iff.symm⟩
  refine patterns_distinct.imp_of_mem fun hr hq hne w ⟨h1, h2⟩ => hne ?_
  rw [← and_flagMask_of_selects hr h1, and_flagMask_of_selects hq h2]

/-! ## Illegal words (R114) -/

/-- Every command has a legal word. -/
theorem wellFormed_encode (i : Instr) : (fieldsOf (encode i)).wellFormed = true := by
  cases i with
  | bpack p => exact (Laws.Encoding.bpack p).1
  | bunpack p => exact (Laws.Encoding.bunpack p).1
  | hbuild w => exact (Laws.Encoding.hbuild w).1
  | henc w => exact (Laws.Encoding.henc w).1
  | nop | vwrite | vread | hdec | hser | hdeser | hcode | lzcomp | lzdec | ccomp | cdec => decide

/-- R114's three conditions, none of which holds of a legal word. -/
theorem fields_of_wellFormed {w : Word} (h : (fieldsOf w).wellFormed = true) :
    w.extractLsb' 0 8 ∈ assignedOpcodes ∧ (∀ k, 9 ≤ k → k < 32 → w.getLsbD k = false) ∧
      (w.getLsbD 8 = true → w.extractLsb' 0 8 ∈ flaggedOpcodes) := by
  simp only [CommandFields.wellFormed, CommandFields.opcodeAssigned, CommandFields.reservedZero,
    CommandFields.flagAllowed, fieldsOf, Bool.and_eq_true, Bool.or_eq_true, Bool.not_eq_true', List.contains_iff_mem,
    beq_iff_eq] at h
  obtain ⟨⟨hop, hres⟩, hflag⟩ := h
  refine ⟨hop, fun k h9 h32 => ?_, fun h8 => hflag.resolve_left (by simp [h8])⟩
  have hbit := congrArg (fun v => v.getLsbD (k - 9)) hres
  simpa [show k - 9 < 23 by omega, show 9 + (k - 9) = k by omega] using hbit

/-- Settles O4: a word the decoder reads is an encoding, and so legal; any other completes with BadCommand. -/
theorem illegalWordsCompleteWithBadCommand : Obligations.IllegalWordsCompleteWithBadCommand := by
  unfold Obligations.IllegalWordsCompleteWithBadCommand
  intro s cur hb hillegal
  cases hd : decode cur.word with
  | ok i =>
    obtain ⟨hop, hres, hflag⟩ :=
      fields_of_wellFormed ((decodeAndEncodeAgree _ _).mp hd ▸ wellFormed_encode i)
    rcases hillegal with h | ⟨k, h9, h32, h⟩ | ⟨h8, h⟩
    · exact absurd hop h
    · simp [hres k h9 h32] at h
    · exact absurd (hflag h8) h
  | error e =>
    simp only [Machine.State.coreTurn, hb, hd]
    rfl

end Sys2Proof
end

section
/-! PROOF. 30_encoding: the acceptance checks of every command in their order (R115-R118, R120). -/

namespace Sys2Proof.Machine

open Sys2Proof.Config

/-! ## The table of R83 and R115-R118 against the shapes -/

@[simp] theorem shapeOf_src (i : Instr) : (shapeOf i).src.isSome = i.usesSource := by cases i <;> rfl

@[simp] theorem shapeOf_usesConfig (i : Instr) : (shapeOf i).usesConfig = i.checksConfig := by cases i <;> rfl

@[simp] theorem shapeOf_needsCb (i : Instr) : (shapeOf i).needsCb = i.readsCodebook := by cases i <;> rfl

@[simp] theorem shapeOf_srcIsWords (i : Instr) : (shapeOf i).srcIsWords = i.sourceIsWords := by
  cases i with
  | hbuild w => cases w <;> rfl
  | henc w => cases w <;> rfl
  | _ => rfl

@[simp] theorem shapeOf_src_tokens (i : Instr) : (shapeOf i).src = some .tokens ↔ i = .lzdec := by
  cases i with
  | hbuild w => cases w <;> simp [shapeOf]
  | henc w => cases w <;> simp [shapeOf]
  | _ => simp [shapeOf]

@[simp] theorem shapeOf_dst_words (i : Instr) : (shapeOf i).dst = some .words ↔ i.destinationIsWords = true := by
  cases i <;> simp [shapeOf, Instr.destinationIsWords]

@[simp] theorem shapeOf_trailingArg (i : Instr) : (shapeOf i).trailingArg = true ↔ i = .bunpack false := by
  cases i <;> simp [shapeOf]

/-! ## The checks in their order (R120) -/

/-- One check of the list: it fails, or the rest decides. -/
theorem firstFailing_cons (c : Bool) (e : Raise) (L : List (Bool × Raise)) :
    (((c, e) :: L).find? (·.1)).map (·.2) = if c = true then some e else (L.find? (·.1)).map (·.2) := by
  cases c <;> rfl

theorem leaves_eq_true (a n size : Nat) : Region.leaves ⟨a, n⟩ size = true ↔ size < a + n := by
  simp [Region.leaves]

theorem overlaps_eq_true (a n b m : Nat) :
    Region.overlaps ⟨a, n⟩ ⟨b, m⟩ = true ↔ 0 < n ∧ 0 < m ∧ a < b + m ∧ b < a + n := by
  simp [Region.overlaps, and_assoc]

/-- Regions of two lists overlap within the one, within the other, or across. -/
theorem anyOverlap_append (rs qs : List Region) :
    anyOverlap (rs ++ qs) = (anyOverlap rs || anyOverlap qs || rs.any fun r => qs.any r.overlaps) := by
  induction rs with
  | nil => simp [anyOverlap]
  | cons r rs ih =>
    simp only [List.cons_append, anyOverlap, ih, List.any_append, List.any_cons]
    ac_rfl

theorem anyOverlap_optional (c : Bool) (r : Region) : anyOverlap (if c = true then [r] else []) = false := by
  cases c <;> rfl

theorem any_optional (c : Bool) (r : Region) (f : Region → Bool) :
    (if c = true then [r] else []).any f = (c && f r) := by
  cases c <;> simp

/-- Some two regions of a command overlap (R117), pair by pair. -/
theorem anyOverlap_regions (i : Instr) (o : LockedRegs) :
    anyOverlap ((shapeOf i).regions o) = true ↔
      (i.usesSource = true ∧ i.usesDestination = true ∧ o.srcRegion.overlaps o.dstRegion = true) ∨
      (i.usesSource = true ∧ i.usesScratch = true ∧ o.srcRegion.overlaps o.scratchRegion = true) ∨
      (i.usesDestination = true ∧ i.usesScratch = true ∧ o.dstRegion.overlaps o.scratchRegion = true) := by
  simp [Shape.regions, anyOverlap_append, anyOverlap_optional, List.any_append, any_optional]
  tauto

/-- The acceptance error, read off the rules condition by condition, is the one the checks of the shape give. -/
theorem firstAcceptanceError_eq (s : State) (i : Instr) :
    s.firstAcceptanceError i = acceptanceError (shapeOf i) s.params s.operands s.cbValid := by
  simp only [acceptanceError, acceptanceChecks, firstFailing_cons]
  refine if_congr ?window rfl <| if_congr ?maxLen rfl <| if_congr ?minMatch rfl <| if_congr ?source rfl <|
    if_congr ?destination rfl <| if_congr ?scratch rfl <| if_congr ?sourceAligned rfl <| if_congr ?tokens rfl <|
    if_congr ?destinationAligned rfl <| if_congr ?scratchAligned rfl <| if_congr ?overlap rfl <|
    if_congr ?trailing rfl <| if_congr ?codebook rfl rfl
  case overlap =>
    simp only [anyOverlap_regions, LockedRegs.srcRegion, LockedRegs.dstRegion, LockedRegs.scratchRegion,
      overlaps_eq_true]
  case codebook => simp [State.cbValid]
  all_goals simp [leaves_eq_true, LockedRegs.srcRegion, LockedRegs.dstRegion, LockedRegs.scratchRegion]

/-- Settles O7: the error read off the rules is the one a command runs into, and there is none exactly when the
command's conditions hold. -/
theorem firstFailingCheckEndsTheCommand : Obligations.FirstFailingCheckEndsTheCommand := by
  unfold Obligations.FirstFailingCheckEndsTheCommand
  intro s i
  rw [firstAcceptanceError_eq]
  constructor
  · intro e he
    rw [exec_eq_runCommand, runCommand_of_acceptanceError he]
    rfl
  · exact ⟨accepts_of_acceptanceError, acceptanceError_of_accepts⟩

end Sys2Proof.Machine
end

section
/-! PROOF. 30_encoding: the commands whose pseudocode ends in one emission (R119), and those of the bit packer and the
varint codec (R160-R165, R180-R183). -/

namespace Sys2Proof.Machine

/-! ## Emission (R119, R142) -/

theorem emit_of_le {x : Inputs} {out : List Byte} (h : out.length ≤ x.ops.dstCap.toNat) : emit x out = .ok out :=
  emit_eq_ok.mpr ⟨rfl, h⟩

theorem emit_of_lt {x : Inputs} {out : List Byte} (h : x.ops.dstCap.toNat < out.length) :
    emit x out = .error (ErrorKind.capacityExceeded.at 1) :=
  emit_eq_error.mpr ⟨rfl, h⟩

/-- An accepted command whose pseudocode comes to emitting `n` bytes and reporting their number with two more results
either puts them out or fails with CapacityExceeded(1). -/
theorem exec_of_emission {s : State} {i : Instr} {out : List Byte} {n r1 r2 : Nat} (h : s.Accepts i)
    (hc : i.clearsCbValid = false) (hn : out.length = n)
    (hb : bodyOf i (s.inputs (shapeOf i)) = (emit (s.inputs (shapeOf i)) out) >>= fun o =>
      .ok { out := o, res0 := BitVec.ofNat 32 o.length, res1 := BitVec.ofNat 32 r1, res2 := BitVec.ofNat 32 r2 }) :
    (n ≤ s.operands.dstCap.toNat → exec i s = .next (s.completed out n r1 r2)) ∧
    (s.operands.dstCap.toNat < n →
      ∃ t, exec i s = .next t ∧ s.Failed i { kind := .capacityExceeded, info := 1 } t) := by
  subst hn
  constructor
  · intro hle
    refine exec_of_ok_plain h hc ?_
    rw [hb, emit_of_le hle, ok_bind]
  · intro hlt
    refine exec_of_error h ?_
    rw [hb, emit_of_lt hlt, error_bind]
    rfl

/-! ## BPACK (R163) -/

/-- Settles O30: BPACK emits the packed bits, behind their count byte with F0 = 1. -/
theorem bpackPacksItsSource : Obligations.BpackPacksItsSource := by
  unfold Obligations.BpackPacksItsSource
  intro s p h
  have hlen : (s.source.map fun b => b.getLsbD 0).length = s.operands.srcLen.toNat := by
    rw [List.length_map, source_length]
  refine exec_of_emission h rfl ?_ ?_
  · cases p <;> simp [source_length, Nat.add_comm]
  · simp only [bodyOf, bpackBody, bodyOf_inputs_src (i := .bpack p) rfl, stream, hlen]
    cases p <;> rfl

/-! ## BUNPACK (R165) -/

/-- The stream form read back (R161): what makes its count byte bad, and the bits otherwise. -/
theorem streamBits_eq (B : List Byte) (info : Nat) : streamBits B info =
    if B = [] ∨ 7 < (B.headD 0).toNat ∨ (B.tail = [] ∧ (B.headD 0).toNat ≠ 0) then
      .error (ErrorKind.corruptBitstream.at info)
    else .ok (unpackMSB B.tail (B.headD 0).toNat) := by
  cases B with
  | nil => rfl
  | cons r P =>
    simp only [streamBits, List.headD_cons, List.tail_cons, List.length_eq_zero_iff]
    by_cases h7 : 7 < r.toNat
    · simp [h7]
    · simp [h7]

/-- The bits of either form of BUNPACK (R165), ARG0 being at most 7 where it is the trailing count (R117). -/
theorem bunpackBits_eq {p : Bool} {x : Inputs} (harg : p = false → x.ops.arg0.toNat ≤ 7) : bunpackBits p x =
    if (p = true ∧ x.src = []) ∨ 7 < bunpackCount p x ∨
        ((if p then x.src.tail else x.src) = [] ∧ bunpackCount p x ≠ 0) then
      .error (ErrorKind.corruptBitstream.at 0)
    else .ok (unpackMSB (if p then x.src.tail else x.src) (bunpackCount p x)) := by
  cases p with
  | true => simp [bunpackBits, bunpackCount, streamBits_eq]
  | false =>
    have h7 : ¬ 7 < x.ops.arg0.toNat := Nat.not_lt.mpr (harg rfl)
    simp [bunpackBits, bunpackCount, h7]

/-- Settles O31: the bits of the source, or the error of its trailing count; then the emission of a byte for each. -/
theorem bunpackUnpacksItsSource : Obligations.BunpackUnpacksItsSource := by
  unfold Obligations.BunpackUnpacksItsSource
  intro s p h r P bits bad
  have hbits : bunpackBits p (s.inputs (shapeOf (.bunpack p))) =
      if bad then .error (ErrorKind.corruptBitstream.at 0) else .ok bits := by
    obtain ⟨-, -, -, harg⟩ := h
    exact bunpackBits_eq harg
  have hbyte : (fun b : Bool => BitVec.ofNat 8 b.toNat) = fun b => if b then 0x01 else 0x00 := by
    funext b; cases b <;> rfl
  have hbody (hgood : ¬ bad) : bodyOf (.bunpack p) (s.inputs (shapeOf (.bunpack p))) =
      (emit (s.inputs (shapeOf (.bunpack p))) (bits.map fun b => if b then 0x01 else 0x00)) >>= fun o =>
        .ok { out := o
              res0 := BitVec.ofNat 32 o.length
              res1 := BitVec.ofNat 32 bits.length
              res2 := BitVec.ofNat 32 r } := by
    simp only [bodyOf, bunpackBody, hbits, if_neg hgood, ok_bind, hbyte]
    rfl
  have hend (hgood : ¬ bad) := exec_of_emission h rfl (List.length_map _) (hbody hgood)
  refine ⟨fun hbad => exec_of_error h ?_, fun hgood => (hend hgood).1, fun hgood => (hend hgood).2⟩
  simp only [bodyOf, bunpackBody, hbits, if_pos hbad, error_bind]
  rfl

/-! ## VWRITE (R180, R183) -/

/-- The big-endian bytes of a number as quotients (R10, R86). -/
theorem be32_ofNat {v : Nat} (h : v < 2 ^ 32) : be32 (BitVec.ofNat 32 v) =
    [BitVec.ofNat 8 (v / 2 ^ 24), BitVec.ofNat 8 (v / 2 ^ 16 % 256), BitVec.ofNat 8 (v / 2 ^ 8 % 256),
      BitVec.ofNat 8 (v % 256)] := by
  have hv : v % 4294967296 = v := Nat.mod_eq_of_lt h
  simp only [be32_eq, List.cons.injEq, and_true]
  refine ⟨?_, ?_, ?_, ?_⟩ <;> apply BitVec.eq_of_toNat_eq <;> simp [Nat.shiftRight_eq_div_pow, hv]

/-- The bytes of a varint, tier by tier (R180). -/
theorem varintBytes_eq {v : Nat} (h : v < 2 ^ 32) : varintBytes v =
    if v < 128 then [BitVec.ofNat 8 v]
    else if v < 16384 then [BitVec.ofNat 8 (128 + v / 256), BitVec.ofNat 8 (v % 256)]
    else [0xFF, BitVec.ofNat 8 (v / 2 ^ 24), BitVec.ofNat 8 (v / 2 ^ 16 % 256), BitVec.ofNat 8 (v / 2 ^ 8 % 256),
      BitVec.ofNat 8 (v % 256)] := by
  unfold varintBytes
  refine if_congr Iff.rfl rfl ?_
  split
  · have hlead : BitVec.ofNat 8 (v / 256) ||| 0x80 = BitVec.ofNat 8 (128 + v / 256) := by
      apply BitVec.eq_of_toNat_eq
      refine (tier2_lead (v / 256) (by omega)).1.trans ?_
      rw [BitVec.toNat_ofNat]
      omega
    rw [hlead]
  · rw [be32_ofNat h]

/-- Settles O32: VWRITE emits the varint's bytes, which are those of its tier. -/
theorem vwriteWritesTheVarint : Obligations.VwriteWritesTheVarint := by
  unfold Obligations.VwriteWritesTheVarint
  intro s h v out
  have hout : varintBytes v = out := varintBytes_eq s.operands.arg0.isLt
  refine exec_of_emission h rfl rfl ?_
  rw [← hout]
  rfl

end Sys2Proof.Machine
end

section
/-! PROOF. 30_encoding: the commands of the Huffman engine that put bytes out (R211-R218). -/

namespace Sys2Proof.Machine

open Sys2Proof.Config

theorem inputs_cb {s : State} {C : Codebook} (h : s.cb = some C) (sh : Shape) : (s.inputs sh).cb = C := by
  simp [State.inputs, h]

/-! ## HENC (R213, R214) -/

/-- The first symbol without a code is the error (R213). -/
theorem encodeBits_of_unknown {C : Codebook} {x : List Word} {i : Nat} {sym : Word} (hi : x[i]? = some sym)
    (hsym : C.codeOf sym = none) (hbefore : ∀ q ∈ x.take i, C.codeOf q ≠ none) (j : Nat) :
    encodeBits C j x = .error (ErrorKind.unknownSymbol.at (j + i)) := by
  induction x generalizing i j with
  | nil => simp at hi
  | cons a x ih =>
    cases i with
    | zero =>
      obtain rfl : a = sym := by simpa using hi
      simp [encodeBits, hsym]
    | succ i =>
      rw [List.take_succ_cons, List.forall_mem_cons] at hbefore
      obtain ⟨code, hcode⟩ := Option.ne_none_iff_exists'.mp hbefore.1
      have hrest := ih (by simpa using hi) hbefore.2 (j + 1)
      simp only [encodeBits, hcode, hrest, error_bind]
      rw [Nat.add_right_comm, Nat.add_assoc]

/-- Symbols that all have codes are encoded by them, one after the other (R213). -/
theorem encodeBits_of_codes {C : Codebook} {x : List Word} {codes : List Bits} (h : x.map C.codeOf = codes.map some)
    (j : Nat) : encodeBits C j x = .ok codes.flatten := by
  induction x generalizing codes j with
  | nil =>
    obtain rfl : codes = [] := by simpa using h.symm
    rfl
  | cons a x ih =>
    cases codes with
    | nil => simp at h
    | cons code codes =>
      obtain ⟨hcode, hrest⟩ := List.cons.inj h
      simp [encodeBits, hcode, ih hrest]

/-- Settles O35: the symbols are encoded before anything is emitted; the first one without a code ends the command. -/
theorem hencEncodesItsSource : Obligations.HencEncodesItsSource := by
  unfold Obligations.HencEncodesItsSource
  intro s w C h hcb x
  have hsymbols : (s.inputs (shapeOf (.henc w))).symbols w = x := by
    obtain ⟨-, -, halign, -⟩ := h
    exact inputs_symbols rfl fun hw => (halign hw).2
  constructor
  · intro i sym hi hsym hbefore
    refine exec_of_error h ?_
    simp only [bodyOf, hencBody, inputs_cb hcb, hsymbols, encodeBits_of_unknown hi hsym hbefore 0, error_bind,
      Nat.zero_add]
    rfl
  · intro codes hcodes bits
    refine exec_of_emission h rfl (stream_length bits) ?_
    simp only [bodyOf, hencBody, inputs_cb hcb, hsymbols, encodeBits_of_codes hcodes 0, ok_bind]
    rfl

/-! ## HDEC (R215, R216) -/

theorem symOf_eq_none {C : Codebook} {c : Bits} (h : ∀ e ∈ C, e.code ≠ c) : C.symOf c = none := by
  simpa [Codebook.symOf] using h

theorem Codebook.stuck_nil (C : Codebook) : C.Stuck [] := by
  intro u v huv hu
  exact absurd (List.append_eq_nil_iff.mp huv.symm).1 hu

/-- Digits in which no code is met, and one more: no code is met before the last. -/
theorem Codebook.Stuck.code_ne {C : Codebook} {cand u v : Bits} {b : Bool} (h : C.Stuck cand)
    (huv : cand ++ [b] = u ++ v) (hu : u ≠ []) (hv : v ≠ []) : ∀ e ∈ C, e.code ≠ u := by
  obtain ⟨v, c, rfl⟩ := (List.eq_nil_or_concat v).resolve_left hv
  rw [List.concat_eq_append, ← List.append_assoc] at huv
  exact h u v (List.append_inj' huv rfl).1 hu

/-- The gathered digits either become a code with the next one, which is then the shortest that matches, or stay without
one (R215). -/
theorem Codebook.Stuck.concat {C : Codebook} {cand : Bits} (h : C.Stuck cand) (b : Bool) :
    (∃ sym, C.Emits (cand ++ [b]) sym) ∨ C.Stuck (cand ++ [b]) := by
  by_cases hcode : ∃ e ∈ C, e.code = cand ++ [b]
  · obtain ⟨e, he, hc⟩ := hcode
    exact .inl ⟨e.sym, hc ▸ he, fun u v huv hu hv => h.code_ne huv hu hv⟩
  · refine .inr fun u v huv hu => ?_
    by_cases hv : v = []
    · rw [hv, List.append_nil] at huv
      exact fun e he hc => hcode ⟨e, he, hc.trans huv.symm⟩
    · exact h.code_ne huv hu hv

/-- Every bit string splits into codes, each the shortest that matches, and a tail that matches none (R215). -/
theorem exists_split {C : Codebook} (bits cand : Bits) (h : C.Stuck cand) :
    ∃ (codes : List Bits) (syms : List Word) (tail : Bits),
      cand ++ bits = codes.flatten ++ tail ∧ List.Forall₂ C.Emits codes syms ∧ C.Stuck tail := by
  induction bits generalizing cand with
  | nil => exact ⟨[], [], cand, by simp, .nil, h⟩
  | cons b bits ih =>
    rcases h.concat b with ⟨sym, hemits⟩ | hstuck
    · obtain ⟨codes, syms, tail, hsplit, hall, htail⟩ := ih [] C.stuck_nil
      refine ⟨(cand ++ [b]) :: codes, sym :: syms, tail, ?_, .cons hemits hall, htail⟩
      rw [List.flatten_cons, List.append_assoc (cand ++ [b]), ← hsplit]
      simp
    · simpa using ih (cand ++ [b]) hstuck

/-- Decoding digits in which no code is met puts nothing out (R215). -/
theorem decodeBits_of_stuck {C : Codebook} (cap : Nat) (full corrupt : Raise) {bits cand : Bits}
    (h : C.Stuck (cand ++ bits)) (k : Nat) :
    decodeBits C cap full corrupt bits cand k = if cand ++ bits = [] then .ok [] else .error corrupt := by
  induction bits generalizing cand with
  | nil => rw [decodeBits, List.append_nil]
  | cons b bits ih =>
    have hassoc : cand ++ b :: bits = (cand ++ [b]) ++ bits := by simp
    rw [hassoc] at h ⊢
    rw [decodeBits, symOf_eq_none (h (cand ++ [b]) bits rfl (by simp))]
    exact ih h

/-- Decoding a code that is the shortest to match puts its symbol out, where there is room for it (R215, R216). -/
theorem decodeBits_of_emits {C : Codebook} (hne : C.Pairwise fun d e => d.code ≠ e.code) (cap : Nat)
    (full corrupt : Raise) {code : Bits} {sym : Word} (h : C.Emits code sym) (rest : Bits) (k : Nat) {u v : Bits}
    (hv : v ≠ []) (hc : code = u ++ v) :
    decodeBits C cap full corrupt (v ++ rest) u k =
      if cap < 4 * (k + 1) then .error full
      else (decodeBits C cap full corrupt rest [] (k + 1)) >>= fun l => .ok (sym :: l) := by
  induction v generalizing u with
  | nil => exact absurd rfl hv
  | cons b v ih =>
    have hassoc : code = (u ++ [b]) ++ v := by simpa using hc
    rw [List.cons_append, decodeBits]
    by_cases hvn : v = []
    · rw [hvn, List.append_nil] at hassoc
      have hsym : C.symOf (u ++ [b]) = some sym := by rw [← hassoc]; exact symOf_of_mem hne h.1
      rw [hsym, hvn]
      rfl
    · rw [symOf_eq_none (h.2 (u ++ [b]) v hassoc (by simp) hvn)]
      exact ih hvn hassoc

/-- Decoding a split bit string: the symbols of its codes, unless there is no room for one of them or the tail is left
over (R215, R216). -/
theorem decodeBits_of_split {n : Nat} {C : Codebook} (hC : C.Legal n) {cap : Nat} (full corrupt : Raise)
    {codes : List Bits} {syms : List Word} {tail : Bits} (h : List.Forall₂ C.Emits codes syms) (htail : C.Stuck tail)
    {k : Nat} (hk : 4 * k ≤ cap) :
    decodeBits C cap full corrupt (codes.flatten ++ tail) [] k =
      if cap < 4 * (k + syms.length) then .error full else if tail = [] then .ok syms else .error corrupt := by
  obtain ⟨-, hne, hlen, -⟩ := hC
  induction h generalizing k with
  | nil =>
    rw [List.length_nil, Nat.add_zero, if_neg (Nat.not_lt.mpr hk)]
    exact decodeBits_of_stuck cap full corrupt htail k
  | @cons code sym codes syms hemits _ ih =>
    have hnil : code ≠ [] := by
      rintro rfl
      exact absurd (hlen _ hemits.1).1 (by simp)
    rw [List.flatten_cons, List.append_assoc, decodeBits_of_emits hne cap full corrupt hemits _ k hnil rfl,
      List.length_cons]
    by_cases hroom : cap < 4 * (k + 1)
    · rw [if_pos hroom, if_pos (by omega)]
    · rw [if_neg hroom, ih (by omega), show k + 1 + syms.length = k + (syms.length + 1) by omega]
      split
      · rfl
      · split <;> rfl

/-- Settles O36: the stream form read back, the split of its bits, and what decoding makes of any such split. -/
theorem hdecDecodesItsSource : Obligations.HdecDecodesItsSource := by
  unfold Obligations.HdecDecodesItsSource
  intro s C h hlegal hcb r bad bits
  have hstream : streamBits (s.inputs (shapeOf .hdec)).src 0 =
      if bad then .error (ErrorKind.corruptBitstream.at 0) else .ok bits := streamBits_eq s.source 0
  refine ⟨fun hbad => exec_of_error h ?_, fun hgood => ⟨exists_split bits [] C.stuck_nil, ?_⟩⟩
  · simp only [bodyOf, hdecBody, hstream, if_pos hbad, error_bind]
    rfl
  · intro codes syms tail hsplit hall htail
    have hdecode := decodeBits_of_split (hlegal C hcb) (cap := s.operands.dstCap.toNat)
      (ErrorKind.capacityExceeded.at 1) (ErrorKind.corruptBitstream.at 0) hall htail (k := 0) (Nat.zero_le _)
    rw [← hsplit, Nat.zero_add] at hdecode
    have hbody : bodyOf .hdec (s.inputs (shapeOf .hdec)) =
        (if s.operands.dstCap.toNat < 4 * syms.length then .error (ErrorKind.capacityExceeded.at 1)
          else if tail = [] then .ok syms else .error (ErrorKind.corruptBitstream.at 0)) >>= fun l =>
        (emit (s.inputs (shapeOf .hdec)) (l.flatMap be32)) >>= fun o =>
        .ok { out := o
              res0 := BitVec.ofNat 32 o.length
              res1 := BitVec.ofNat 32 l.length
              res2 := BitVec.ofNat 32 bits.length } := by
      rw [← hdecode]
      simp only [bodyOf, hdecBody, hstream, if_neg hgood, ok_bind, inputs_cb hcb]
      rfl
    refine ⟨fun hfull => exec_of_error h ?_, fun hroom htl => exec_of_error h ?_, fun hroom htl => ?_⟩
    · rw [hbody, if_pos hfull]
      rfl
    · rw [hbody, if_neg (Nat.not_lt.mpr hroom), if_neg htl]
      rfl
    · refine (exec_of_emission h rfl (flatMap_be32_length syms) ?_).1 hroom
      rw [hbody, if_neg (Nat.not_lt.mpr hroom), if_pos htl]
      rfl

/-! ## HSER (R211, R218) -/

/-- Settles O37: HSER emits the wire form of CB, whose size is the sum of its parts. -/
theorem hserWritesTheCodebook : Obligations.HserWritesTheCodebook := by
  unfold Obligations.HserWritesTheCodebook
  intro s C h hcb size
  refine exec_of_emission h rfl (serCB_length C) ?_
  simp only [bodyOf, hserBody, inputs_cb hcb]
  rfl

end Sys2Proof.Machine
end

section
/-! PROOF. 30_encoding: LZCOMP and LZDEC (R250-R259). -/

namespace Sys2Proof.Machine

open Sys2Proof.Config

/-! ## LZCOMP (R250, R256) -/

/-- Tokens in memory: three big-endian words each (R250, D35). -/
theorem flatten_flatMap_be32 (T : List Token) :
    (flatten T).flatMap be32 = T.flatMap fun k =>
      be32 (BitVec.ofNat 32 k.off) ++ be32 (BitVec.ofNat 32 k.len) ++ be32 (BitVec.ofNat 32 k.next) := by
  rw [flatten, List.flatMap_assoc]
  simp [Token.words]

/-- Settles O40: LZCOMP emits the tokens of its source in their memory form. -/
theorem lzcompWritesTheTokens : Obligations.LzcompWritesTheTokens := by
  unfold Obligations.LzcompWritesTheTokens
  intro s h T
  have hlen : ((flatten T).flatMap be32).length = 12 * T.length := by
    rw [flatMap_be32_length, flatten_length]
    omega
  rw [← flatten_flatMap_be32]
  exact exec_of_emission h rfl hlen rfl

/-! ## The replay of one token (R257) -/

/-- Checks (a), (b) and (c) of R257 on a token behind `n` bytes: it copies from nowhere, from before the start, or its
next symbol is none. -/
def Token.BadAt (k : Token) (n : Nat) : Prop :=
  (k.off = 0 ∧ 0 < k.len) ∨ ((k.off ≠ 0 ∨ k.len ≠ 0) ∧ n < k.off) ∨ noneSymbol < k.next

section Replay

variable {cap t : Nat} {out : List Byte} {k : Token} (T : List Token)

theorem lzReplay_of_bad (h : k.BadAt out.length) :
    lzReplay cap t out (k :: T) = .error (ErrorKind.invalidBackReference.at t) := by
  rw [lzReplay]
  split
  · rfl
  · split
    · rfl
    · rename_i ha hb
      have hc : noneSymbol < k.next := by
        unfold Token.BadAt at h
        omega
      rw [if_pos hc]

/-- A token that is not bad passes the first three checks. -/
theorem not_checks_of_not_badAt (h : ¬ k.BadAt out.length) :
    ¬ (k.off = 0 ∧ 0 < k.len) ∧ ¬ (¬ (k.off = 0 ∧ k.len = 0) ∧ out.length < k.off) ∧ ¬ noneSymbol < k.next := by
  unfold Token.BadAt at h
  omega

theorem lzReplay_of_full (h : ¬ k.BadAt out.length) (hfull : cap < out.length + k.added) :
    lzReplay cap t out (k :: T) = .error (ErrorKind.capacityExceeded.at 1) := by
  obtain ⟨ha, hb, hc⟩ := not_checks_of_not_badAt h
  rw [lzReplay, if_neg ha, if_neg hb, if_neg hc, if_pos hfull]

/-- A token that is not bad and fits appends its copy, byte by byte from `off` behind the end, and its next symbol. -/
theorem lzReplay_of_good (h : ¬ k.BadAt out.length) (hroom : out.length + k.added ≤ cap) :
    ∃ copied : List Byte, copied.length = k.len ∧
      (∀ j, j < k.len → copied[j]? = (out ++ copied)[out.length - k.off + j]?) ∧
      lzReplay cap t out (k :: T) = lzReplay cap (t + 1)
        (out ++ copied ++ (if k.next = noneSymbol then [] else [BitVec.ofNat 8 k.next])) T := by
  obtain ⟨ha, hb, hc⟩ := not_checks_of_not_badAt h
  obtain ⟨copied, hlen, hcopy, hbytes⟩ := copyBack_spec k.off k.len out (by omega)
  refine ⟨copied, hlen, hbytes, ?_⟩
  rw [lzReplay_cons ha hb hc (Nat.not_lt.mpr hroom), hcopy]
  split <;> simp

end Replay

/-! ## LZDEC (R257, R259) -/

theorem lzdec_tokens {s : State} (h : s.Accepts .lzdec) :
    tokensOf (wordsOf (s.inputs (shapeOf .lzdec)).src) = s.tokenSource := by
  obtain ⟨-, -, -, h12, -⟩ := h
  rw [bodyOf_inputs_src rfl, tokensOf_source h12]

/-- A replay that fails ends LZDEC with its error (R259). -/
theorem exec_lzdec_of_error {s : State} (h : s.Accepts .lzdec) {e : Raise}
    (he : lzReplay s.operands.dstCap.toNat 0 [] s.tokenSource = .error e) :
    ∃ t, exec .lzdec s = .next t ∧ s.Failed .lzdec e t := by
  refine exec_of_error h ?_
  simp only [bodyOf, lzdecBody, lzdec_tokens h]
  exact congrArg (· >>= _) he

/-- A replay that succeeds fits the destination, and LZDEC writes it (R257 check d, R259). -/
theorem exec_lzdec_of_ok {s : State} (h : s.Accepts .lzdec) {out : List Byte}
    (ho : lzReplay s.operands.dstCap.toNat 0 [] s.tokenSource = .ok out) :
    exec .lzdec s = .next (s.completed out out.length s.tokenSource.length 0) := by
  refine (exec_of_emission h rfl rfl ?_).1 (lzReplay_length ho (Nat.zero_le _))
  simp only [bodyOf, lzdecBody, lzdec_tokens h]
  exact congrArg (· >>= _) ho

/-- Settles O41: LZDEC writes or fails as the replay does, and a replay goes on with its next token. -/
theorem lzdecReplaysTheTokens : Obligations.LzdecReplaysTheTokens := by
  unfold Obligations.LzdecReplaysTheTokens
  intro s h
  refine ⟨fun out => exec_lzdec_of_ok h, fun e => exec_lzdec_of_error h, rfl, ?_⟩
  intro before after k out hsource hbefore bad added
  have hnext : ∀ T, lzReplay s.operands.dstCap.toNat 0 [] (before ++ k :: T) =
      lzReplay s.operands.dstCap.toNat before.length out (k :: T) := by
    intro T
    rw [lzReplay_append hbefore, Nat.zero_add]
  have hfails {e : Raise} (he : lzReplay s.operands.dstCap.toNat before.length out (k :: after) = .error e) :
      ∃ t, exec .lzdec s = .next t ∧ s.Failed .lzdec e t :=
    exec_lzdec_of_error h (by rw [hsource, hnext, he])
  refine ⟨fun hbad => hfails (lzReplay_of_bad after hbad),
    fun hgood hfull => hfails (lzReplay_of_full after hgood hfull), fun hgood hroom => ?_,
    fun hlen hoff hnone => ?_⟩
  · obtain ⟨copied, hlen, hbytes, hreplay⟩ := lzReplay_of_good [] hgood hroom
    exact ⟨copied, hlen, hbytes, by rw [hnext, hreplay]; rfl⟩
  · have hgood : ¬ k.BadAt out.length := by
      unfold Token.BadAt noneSymbol
      omega
    have hroom : out.length + k.added ≤ s.operands.dstCap.toNat := by
      simpa [Token.added, hlen, hnone, noneSymbol] using lzReplay_length hbefore (Nat.zero_le _)
    obtain ⟨copied, hcopied, -, hreplay⟩ := lzReplay_of_good [] hgood hroom
    obtain rfl := List.eq_nil_of_length_eq_zero (hcopied.trans hlen)
    rw [hnext, hreplay, if_pos (show k.next = noneSymbol from hnone), lzReplay, List.append_nil, List.append_nil]

end Sys2Proof.Machine
end

section
/-! PROOF. 40_system: acceptance and NOP (R140, R145), that every schedule runs out (R143), and that what a command leaves
is a function of its inputs (R144). -/

namespace Sys2Proof.Machine

/-! ## Acceptance and NOP (R140, R145) -/

/-- Settles O6: the offset 0x18 is CMD, whose write accepts while IDLE and is locked out while BUSY. -/
theorem cmdWriteAcceptsACommand : Obligations.CmdWriteAcceptsACommand := by
  unfold Obligations.CmdWriteAcceptsACommand
  intro s w
  have hw : s.access (.write .csr 0x18 32 w) = (s.writeCmd w).answer .ok := rfl
  rw [hw, State.writeCmd]
  constructor
  · intro hb
    rw [hb]
    rfl
  · intro hb
    rw [hb]
    rfl

/-- A success that puts nothing out leaves LMEM as it is (R142). -/
theorem completed_nil (s : State) (r0 r1 r2 : Nat) : s.completed [] r0 r1 r2 =
    { s with
      res0 := BitVec.ofNat 32 r0, res1 := BitVec.ofNat 32 r1, res2 := BitVec.ofNat 32 r2
      sequencer := .idle, done := true } := by
  rw [State.completed, writeBytes_nil]

/-- Settles O29: NOP is always accepted, and its pseudocode succeeds with nothing put out and all results 0. -/
theorem nopCompletes : Obligations.NopCompletes := by
  unfold Obligations.NopCompletes
  intro s
  have hend : exec .nop s = .next (s.completed [] 0 0 0) := exec_of_ok_plain trivial rfl rfl
  rw [hend, completed_nil]
  rfl

/-! ## The schedule runs out (R143) -/

/-- A turn of the sequencer ends IDLE, and takes nothing off the schedule (R142, R363). -/
theorem coreTurn_ends_idle (s : State) :
    ∃ t, s.coreTurn = .next t ∧ t.sequencer = .idle ∧ t.schedule = s.schedule := by
  unfold State.coreTurn
  split
  · exact ⟨s, rfl, ‹_›, rfl⟩
  · split
    · rename_i i _
      obtain ⟨-, -, -, -, -, hsched, -, hidle, -⟩ := runCommand_frame s (shapeOf i) (bodyOf i)
      exact ⟨_, exec_eq_runCommand i s, hidle, hsched⟩
    · exact ⟨_, rfl, rfl, rfl⟩

theorem AccessEffect.schedule_eq {s t : State} {a : Access} (h : AccessEffect s a t) : t.schedule = s.schedule := by
  cases h with
  | softReset => rw [resetBlock_eq]
  | nothing | lockedOut | irqEnable | clearsStatus | accepts | setsRegs | storesLmem => rfl

/-- No event stops the machine or touches the rest of the schedule (R13, R320). -/
theorem handle_next (s : State) (e : Event) : ∃ t, s.handle e = .next t ∧ t.schedule = s.schedule := by
  cases e with
  | host a =>
    obtain ⟨t, r, heffect, heq⟩ := access_effect s a
    exact ⟨s.access a, rfl, by rw [heq, State.answer_schedule, heffect.schedule_eq]⟩
  | hardReset => exact ⟨s.resetBlock, rfl, by rw [resetBlock_eq]⟩
  | core =>
    obtain ⟨t, ht, -, hsched⟩ := coreTurn_ends_idle s
    exact ⟨t, ht, hsched⟩

theorem run_succ_of_step {s t : State} (h : step s = .next t) (k : Nat) :
    Sys2Proof.core.run (k + 1) s = Sys2Proof.core.run k t := by
  have hstep : Sys2Proof.core.step s = .next t := h
  simp only [Host.Core.run, hstep]

/-- Settles O9, by induction on the schedule: each step takes its first event off, and the turn after the last one ends
IDLE. -/
theorem everyScheduleEndsIdle : Obligations.EveryScheduleEndsIdle := by
  unfold Obligations.EveryScheduleEndsIdle
  intro s
  generalize hs : s.schedule = events
  induction events generalizing s with
  | nil =>
    obtain ⟨t, ht, hidle, hsched⟩ := coreTurn_ends_idle s
    refine ⟨t, ?_, hidle, hsched.trans hs⟩
    rw [List.length_nil, run_succ_of_step ((step_of_schedule_nil hs).trans ht)]
    rfl
  | cons e rest ih =>
    obtain ⟨t, ht, hsched⟩ := handle_next { s with schedule := rest } e
    obtain ⟨u, hrun, hu⟩ := ih t hsched
    refine ⟨u, ?_, hu⟩
    rw [List.length_cons, run_succ_of_step ((step_of_schedule_cons hs).trans ht)]
    exact hrun

/-! ## What a success puts out (R119, R122) -/

/-- Bytes apart from those written keep their value (R10, R117). -/
theorem readBytes_writeBytes_apart (m : Memory) {a b n : Nat} {bs : List Byte} (h : Apart b n a bs.length) :
    (m.writeBytes a bs).readBytes b n = m.readBytes b n := by
  unfold Apart at h
  apply List.ext_getElem
  · simp
  · intro k hk _
    rw [readBytes_getElem, readBytes_getElem, readByte_writeBytes_outside]
    rw [readBytes_length] at hk
    omega

/-- A command with both a destination and a scratch is accepted only where they do not overlap (R117). -/
theorem destinationScratchApart_of_accepts {s : State} {i : Instr} (h : s.Accepts i) (hs : i.usesScratch = true) :
    s.DestinationScratchApart := by
  cases i with
  | ccomp =>
    obtain ⟨-, -, -, -, -, -, -, -, -, hapart⟩ := h
    exact hapart
  | cdec =>
    obtain ⟨-, -, -, -, -, -, hapart⟩ := h
    exact hapart
  | _ => cases hs

/-- After a success the destination holds what the pseudocode put out; the draw over the scratch does not reach it. -/
theorem outputOf_succeed {s : State} {i : Instr} {r : Result} (h : s.Accepts i) (hi : i.usesDestination = true)
    (hb : bodyOf i (s.inputs (shapeOf i)) = .ok r) :
    s.outputOf ((s.beginExecution (shapeOf i)).succeed r) = r.out := by
  obtain ⟨hlen, -, hused, -⟩ := bodyOf_ok hb
  have hcap : r.out.length ≤ s.operands.dstCap.toNat := hlen
  rw [State.outputOf, State.succeed_res0, res0_toNat_of_usesDestination hi hb, State.succeed_lmem,
    State.beginExecution_operands, State.beginExecution_lmem]
  split
  · rename_i hu
    have hapart := destinationScratchApart_of_accepts h (shapeOf_scratch i ▸ hused hu)
    rw [readBytes_writeBytes_apart, readBytes_writeBytes]
    unfold State.DestinationScratchApart Apart at hapart
    unfold Apart
    rw [freeBytes_length]
    omega
  · exact readBytes_writeBytes _ _ _

/-! ## A command is a function of its inputs (R144) -/

theorem inputs_congr {s₁ s₂ : State} {i : Instr} (hp : s₁.params = s₂.params) (ho : s₁.operands = s₂.operands)
    (hsrc : i.usesSource = true → s₁.source = s₂.source) (hcb : s₁.cb = s₂.cb) :
    s₁.inputs (shapeOf i) = s₂.inputs (shapeOf i) := by
  cases hi : i.usesSource with
  | true =>
    have hbytes := hsrc hi
    simp only [State.source, ho] at hbytes
    simp [State.inputs, hp, ho, hcb, hbytes]
  | false => simp [State.inputs, hi, hp, ho, hcb]

/-- Settles O14: both runs meet the same acceptance checks and the same pseudocode on the same inputs, so they come to the
same end. -/
theorem resultsAreAFunctionOfTheInputs : Obligations.ResultsAreAFunctionOfTheInputs := by
  unfold Obligations.ResultsAreAFunctionOfTheInputs
  rintro s₁ s₂ t₁ t₂ i ⟨hinv₁, cur₁, hcur₁, -⟩ ⟨hinv₂, cur₂, hcur₂, -⟩ hp ho hsrc hcb ht₁ ht₂
  obtain rfl := exec_eq_next ht₁
  obtain rfl := exec_eq_next ht₂
  have hin : s₁.inputs (shapeOf i) = s₂.inputs (shapeOf i) := inputs_congr hp ho hsrc hcb
  have hchecks : acceptanceError (shapeOf i) s₁.params s₁.operands s₁.cbValid =
      acceptanceError (shapeOf i) s₂.params s₂.operands s₂.cbValid := by
    rw [hp, ho, State.cbValid, State.cbValid, hcb]
  rcases runCommand_cases s₁ (shapeOf i) (bodyOf i) with ⟨e, hacc, hend⟩ | ⟨hacc, ⟨e, hbody, hend⟩ | ⟨r, hbody, hend⟩⟩
  all_goals rw [hend]
  · rw [runCommand_of_acceptanceError (hchecks ▸ hacc)]
    exact ⟨rfl, rfl, rfl, rfl, rfl, rfl, hcb, fun h => nomatch h⟩
  · rw [runCommand_of_error (hchecks ▸ hacc) (hin ▸ hbody)]
    exact ⟨rfl, rfl, rfl, rfl, rfl, rfl, by simp [hcb], fun h => nomatch h⟩
  · obtain ⟨herr₁, hcode₁, hinfo₁⟩ := hinv₁.clear_of_busy ((s₁.busy_eq_true_iff).mpr ⟨cur₁, hcur₁⟩)
    obtain ⟨herr₂, hcode₂, hinfo₂⟩ := hinv₂.clear_of_busy ((s₂.busy_eq_true_iff).mpr ⟨cur₂, hcur₂⟩)
    rw [runCommand_of_ok (hchecks ▸ hacc) (hin ▸ hbody)]
    refine ⟨by simp, by simp, by simp, by simp [herr₁, herr₂], by simp [hcode₁, hcode₂], by simp [hinfo₁, hinfo₂],
      by simp [hcb], fun _ hi => ?_⟩
    rw [outputOf_succeed (accepts_of_acceptanceError hacc) hi hbody,
      outputOf_succeed (accepts_of_acceptanceError (hchecks ▸ hacc)) hi (hin ▸ hbody)]

end Sys2Proof.Machine
end

section
/-! PROOF. 40_system: the commands that put nothing out: VREAD (R185), HBUILD (R212), HDESER (R220) and HCODE (R222). -/

namespace Sys2Proof.Machine

open Sys2Proof.Config

/-! ## VREAD (R182, R185) -/

/-- VREAD of a varint of `k` bytes that lies at cursor ARG0. -/
theorem exec_vread_of_at {s : State} (h : s.Accepts .vread) {v k : Nat}
    (hat : VarintAt s.source s.operands.arg0.toNat v (s.operands.arg0.toNat + k)) :
    exec .vread s = .next (s.completed [] v (s.operands.arg0.toNat + k) k) := by
  have hread : readVarInt (s.inputs (shapeOf .vread)).src (s.inputs (shapeOf .vread)).ops.arg0.toNat =
      .ok (v, s.operands.arg0.toNat + k) := readVarInt_of_at hat
  have hk : s.operands.arg0.toNat + k - (s.inputs (shapeOf .vread)).ops.arg0.toNat = k := Nat.add_sub_cancel_left ..
  refine exec_of_ok_plain h rfl ?_
  simp only [bodyOf, vreadBody, hread, ok_bind, hk]

/-- Settles O33: at cursor ARG0 a varint lies, in one of its tiers, or is cut off. -/
theorem vreadReadsTheVarint : Obligations.VreadReadsTheVarint := by
  unfold Obligations.VreadReadsTheVarint
  intro s h c byte lead n
  refine ⟨fun hc hlead => exec_vread_of_at h (.inl ⟨hc, hlead, rfl, rfl⟩),
    fun hc hlow hhigh => exec_vread_of_at h (.inr (.inl ⟨hc, hlow, hhigh, rfl, rfl⟩)),
    fun hc hlead => exec_vread_of_at h (.inr (.inr ⟨hc, hlead, rfl, rfl⟩)),
    fun hcut => exec_of_error h ?_⟩
  have hread : readVarInt (s.inputs (shapeOf .vread)).src (s.inputs (shapeOf .vread)).ops.arg0.toNat =
      .error { kind := .malformedVarInt, info := BitVec.ofNat 32 c } := readVarInt_of_cut hcut
  have hinfo : BitVec.ofNat 32 c = s.operands.arg0 := by simp [c]
  simp only [bodyOf, vreadBody, hread, error_bind, hinfo]

/-! ## HBUILD (R201, R209, R212) -/

theorem tooLong_eq_true {C : Codebook} : C.tooLong = true ↔ ∃ e ∈ C, maxCodeLen < e.code.length := by
  simp [Codebook.tooLong]

/-- Settles O34: the two limits of HBUILD in their order, and the codebook of the frequency table. -/
theorem hbuildInstallsTheCodebook : Obligations.HbuildInstallsTheCodebook := by
  unfold Obligations.HbuildInstallsTheCodebook
  intro s w h x k C
  have hsymbols : (s.inputs (shapeOf (.hbuild w))).symbols w = x := by
    obtain ⟨-, halign⟩ := h
    exact inputs_symbols rfl fun hw => (halign hw).2
  have hbody : bodyOf (.hbuild w) (s.inputs (shapeOf (.hbuild w))) =
      if s.params.maxSymbols < k then .error { kind := .capacityExceeded, info := 3 }
      else if C.tooLong = true then .error { kind := .capacityExceeded, info := 4 }
      else .ok { installs := some C
                 res0 := BitVec.ofNat 32 k
                 res1 := BitVec.ofNat 32 (Codebook.maxLen C)
                 res2 := BitVec.ofNat 32 x.length } := by
    simp only [bodyOf, hbuildBody, hsymbols, freqTable_length]
    rfl
  refine ⟨fun hk => exec_of_error h ?_, fun hk hlong => exec_of_error h ?_, fun hk hshort => exec_of_ok_installs h ?_⟩
  · rw [hbody, if_pos hk]
  · have htoo : C.tooLong = true := tooLong_eq_true.mpr hlong
    rw [hbody, if_neg (Nat.not_lt.mpr hk), if_pos htoo]
  · have hfit : C.tooLong = false := tooLong_eq_false.mpr hshort
    rw [hbody, if_neg (Nat.not_lt.mpr hk), hfit]
    rfl

/-! ## HDESER (R217, R220) -/

/-- Entries in any order with distinct symbols and codes, in wire form and followed by any bytes, are parsed, in ascending
order of symbol (R211, R217). -/
theorem parseCB_of_wire {n : Nat} {E : List Entry} (rest : List Byte) (hn : E.length ≤ n) (hE : E.length < 2 ^ 32)
    (hlen : ∀ e ∈ E, 1 ≤ e.code.length ∧ e.code.length ≤ maxCodeLen) (hsym : E.Pairwise fun d e => d.sym ≠ e.sym)
    (hcode : E.Pairwise fun d e => d.code ≠ e.code) :
    ∃ C : Codebook, C.Perm E ∧ SymsAscend C ∧ parseCB n (serCB E ++ rest) 0 = .ok (C, (serCB E).length) := by
  refine ⟨E.foldl (fun C e => Codebook.add e C) [], by simpa using foldl_add_perm E [],
    foldl_add_ascend E [] List.Pairwise.nil (by simpa [List.Nodup, List.pairwise_map] using hsym), ?_⟩
  have hcount : readVarInt (serCB E ++ rest) 0 = .ok (E.length, (varintBytes E.length).length) := by
    rw [serCB, List.append_assoc, readVarInt_varintBytes_zero _ _ hE, varintBytes_length]
  have hentries := parseEntries_serEntries (varintBytes E.length) rest [] E hsym hcode hlen
  rw [parseCB, hcount]
  simp only [ok_bind, if_neg (Nat.not_lt.mpr hn)]
  rw [serCB, hentries, List.length_append]

theorem exec_hdeser_of_ok {s : State} (h : s.Accepts .hdeser) {C : Codebook} {p : Nat}
    (hparse : parseCB s.params.maxSymbols s.source 0 = .ok (C, p)) :
    exec .hdeser s = .next { s.completed [] C.length p (Codebook.maxLen C) with cb := some C } := by
  refine exec_of_ok_installs h ?_
  simp only [bodyOf, hdeserBody, bodyOf_inputs_src (i := .hdeser) rfl]
  exact congrArg (· >>= _) hparse

theorem exec_hdeser_of_error {s : State} (h : s.Accepts .hdeser) {e : Raise}
    (hparse : parseCB s.params.maxSymbols s.source 0 = .error e) :
    ∃ t, exec .hdeser s = .next t ∧ s.Failed .hdeser e t := by
  refine exec_of_error h ?_
  simp only [bodyOf, hdeserBody, bodyOf_inputs_src (i := .hdeser) rfl]
  exact congrArg (· >>= _) hparse

/-- HDESER of a source that parses to the entries `E`: they are installed in ascending order of symbol (R220, R221). -/
theorem exec_hdeser_of_entries {s : State} (h : s.Accepts .hdeser) {E : List Entry} {q : Nat}
    (hparse : ∃ C : Codebook, C.Perm E ∧ SymsAscend C ∧ parseCB s.params.maxSymbols s.source 0 = .ok (C, q)) :
    ∃ C : Codebook, C.Perm E ∧ C.Pairwise (fun d e => d.sym.toNat < e.sym.toNat) ∧
      exec .hdeser s = .next { s.completed [] E.length q (Codebook.maxLen C) with cb := some C } := by
  obtain ⟨C, hperm, hasc, hparse⟩ := hparse
  exact ⟨C, hperm, hasc, by rw [← hperm.length_eq, exec_hdeser_of_ok h hparse]⟩

/-- MAX_SYMBOLS fits 32 bits (R6). -/
theorem maxSymbols_lt {p : Params} (hp : p.wellFormed = true) : p.maxSymbols < 2 ^ 32 := by
  simp only [Params.wellFormed, Params.maxSymbolsLegal, Bool.and_eq_true, decide_eq_true_eq] at hp
  omega

/-- Settles O38: HDESER does what parsing the source does, and at cursor 0 of every source a codebook lies or fails. -/
theorem hdeserInstallsTheCodebook : Obligations.HdeserInstallsTheCodebook := by
  unfold Obligations.HdeserInstallsTheCodebook
  intro s h
  refine ⟨fun E rest hp hn hlen hsym hcode hsource => ?_, fun C p => exec_hdeser_of_ok h,
    fun e => exec_hdeser_of_error h, fun E q hat => exec_hdeser_of_entries h (parseCB_of_at hat),
    fun e hfails => exec_hdeser_of_error h (parseCB_of_fails hfails), codebook_cases _ _ _⟩
  have hwire : s.source = serCB E ++ rest := hsource
  have hE : E.length < 2 ^ 32 := Nat.lt_of_le_of_lt hn (maxSymbols_lt hp)
  refine exec_hdeser_of_entries h ?_
  rw [hwire, List.length_append, Nat.add_sub_cancel]
  exact parseCB_of_wire rest hn hE hlen hsym hcode

/-! ## HCODE (R222) -/

theorem foldl_bits_eq_sum (s : Bits) (acc : Nat) : s.foldl (fun acc b => 2 * acc + b.toNat) acc =
    acc * 2 ^ s.length + ((List.range s.length).map fun j => (s.getD j false).toNat * 2 ^ (s.length - 1 - j)).sum := by
  induction s generalizing acc with
  | nil => simp
  | cons b s ih =>
    have hexp : ∀ j, s.length - 1 - j = s.length - (j + 1) := fun j => by omega
    rw [List.foldl_cons, ih, List.length_cons, List.range_succ_eq_map]
    simp [Function.comp_def, hexp]
    ring

/-- The right-aligned value of a code as the sum of its digits' weights (R222, D59). -/
theorem bitsNat_eq_sum (s : Bits) :
    bitsNat s = ((List.range s.length).map fun j => (s.getD j false).toNat * 2 ^ (s.length - 1 - j)).sum := by
  rw [bitsNat, foldl_bits_eq_sum, Nat.zero_mul, Nat.zero_add]

/-- Settles O39: HCODE answers the code that CB has for ARG0, its value being the sum of its digits' weights. -/
theorem hcodeLooksUpACode : Obligations.HcodeLooksUpACode := by
  unfold Obligations.HcodeLooksUpACode
  intro s C h hcb
  have hlookup : (s.inputs (shapeOf .hcode)).cb.codeOf (s.inputs (shapeOf .hcode)).ops.arg0 =
      C.codeOf s.operands.arg0 := by
    rw [inputs_cb hcb]
    rfl
  constructor
  · intro code hcode
    refine exec_of_ok_plain h rfl ?_
    simp only [bodyOf, hcodeBody, hlookup, hcode, bitsNat_eq_sum]
    rfl
  · intro hnone
    refine exec_of_error h ?_
    simp only [bodyOf, hcodeBody, hlookup, hnone]
    rfl

end Sys2Proof.Machine
end

section
/-! PROOF. 41_bitpack: the digits of a packed bit string and of an unpacked one (R160, R161), and BUNPACK of what BPACK
wrote (R164). -/

namespace Sys2Proof.Machine

/-! ## Packed digits (R160) -/

theorem packMSB_getElem? (s : Bits) {k : Nat} (hk : k < ceil8 s.length) : (packMSB s)[k]? = some (packByte s k) := by
  simp [packMSB, hk]

/-- Digit j of the packed bytes is digit j of the string, and 0 beyond its end. -/
theorem packMSB_digit (s : Bits) {j : Nat} (hj : j < 8 * ceil8 s.length) :
    ∃ byte, (packMSB s)[j / 8]? = some byte ∧ byte.getLsbD (7 - j % 8) = s.getD j false := by
  refine ⟨packByte s (j / 8), packMSB_getElem? s (Nat.div_lt_of_lt_mul hj), ?_⟩
  rw [packByte_getLsbD s _ _ (Nat.mod_lt j (by decide)), Nat.div_add_mod]

/-- Settles O45: a packed digit is the string's, or padding behind its end. -/
theorem packingIsMsbFirst : Obligations.PackingIsMsbFirst := by
  unfold Obligations.PackingIsMsbFirst
  intro b
  refine ⟨packMSB_length b, fun j hj => ?_, fun j hj hlt => ?_, fun hb => ?_⟩
  · obtain ⟨byte, hbyte, hdigit⟩ := packMSB_digit b (Nat.lt_of_lt_of_le hj (ceil8_le _))
    exact ⟨byte, hbyte, by simp [hdigit, hj]⟩
  · obtain ⟨byte, hbyte, hdigit⟩ := packMSB_digit b hlt
    exact ⟨byte, hbyte, by simp [hdigit, hj]⟩
  · rw [hb]
    rfl

/-! ## Unpacked digits and the stream form (R161) -/

/-- The valid digits are among those of the bytes. -/
theorem validBits_le {m r : Nat} (hr : r ≤ 7) (h0 : m = 0 → r = 0) : validBits m r ≤ 8 * m := by
  unfold validBits
  split <;> omega

/-- Settles O46: the valid digits of the bytes, and the checks that streamBits makes of its prefix. -/
theorem streamFormIsReadBack : Obligations.StreamFormIsReadBack := by
  unfold Obligations.StreamFormIsReadBack
  refine ⟨fun P r hr h0 => ?_, fun b => rfl, fun B info => ⟨fun hB => ?_, fun r P hB => ?_⟩, streamBits_stream⟩
  · have hvalid : validBits P.length r ≤ 8 * P.length :=
      validBits_le hr fun hP => h0 (List.eq_nil_of_length_eq_zero hP)
    have hlen : (unpackMSB P r).length = validBits P.length r := by rw [unpackMSB_length, Nat.min_eq_left hvalid]
    refine ⟨hlen, fun j hj => ?_⟩
    rw [hlen] at hj
    have hdiv : j / 8 < P.length := Nat.div_lt_of_lt_mul (Nat.lt_of_lt_of_le hj hvalid)
    refine ⟨P[j / 8], List.getElem?_eq_getElem hdiv, ?_⟩
    rw [unpackMSB_getElem? P r j hj (Nat.lt_of_lt_of_le hj hvalid)]
    simp [hdiv]
  · rw [hB]
    rfl
  · have hr0 : r ≠ 0 ↔ r.toNat ≠ 0 := BitVec.toNat_ne_iff_ne.symm
    rw [hB, streamBits_eq, hr0]
    refine ⟨fun h7 => if_pos (.inr (.inl h7)), fun hP hr => if_pos (.inr (.inr ⟨hP, hr⟩)), fun h7 hgood => if_neg ?_⟩
    rintro (hnil | h8 | hbad)
    · cases hnil
    · exact absurd h8 (Nat.not_lt.mpr h7)
    · exact hgood hbad

/-! ## BUNPACK of what BPACK wrote (R164) -/

/-- The bytes BPACK puts out for a bit string, in either form (R163). -/
def packedForm (p : Bool) (s : Bits) : List Byte := if p then stream s else packMSB s

theorem packedForm_length (p : Bool) (s : Bits) : (packedForm p s).length = ceil8 s.length + p.toNat := by
  cases p <;> simp [packedForm, Nat.add_comm]

/-- BUNPACK's bits of a packed form are the string, the trailing count being the string's (R164). -/
theorem bunpackBits_of_packedForm {p : Bool} {x : Inputs} {s : Bits} (hsrc : x.src = packedForm p s)
    (harg : p = false → x.ops.arg0.toNat = s.length % 8) : bunpackBits p x = .ok s := by
  cases p with
  | true =>
    rw [bunpackBits, hsrc]
    exact streamBits_stream s 0
  | false =>
    have hcount : ¬ (ceil8 s.length = 0 ∧ s.length % 8 ≠ 0) := by
      have := ceil8_le s.length
      omega
    simp [bunpackBits, hsrc, packedForm, harg rfl, hcount, unpackMSB_packMSB]

theorem outputOf_completed {s : State} {out : List Byte} (r1 r2 : Nat) (h : out.length ≤ s.operands.dstCap.toNat) :
    s.outputOf (s.completed out out.length r1 r2) = out := by
  have hres : (s.completed out out.length r1 r2).res0.toNat = out.length :=
    (BitVec.toNat_ofNat ..).trans (Nat.mod_eq_of_lt (Nat.lt_of_le_of_lt h s.operands.dstCap.isLt))
  rw [State.outputOf, hres]
  exact readBytes_writeBytes _ _ _

/-- The bits 0 of the source bytes, which BPACK packs (R163, D29). -/
def State.sourceBits (s : State) : Bits := s.source.map fun b => b.getLsbD 0

@[simp] theorem sourceBits_length (s : State) : s.sourceBits.length = s.operands.srcLen.toNat := by
  rw [State.sourceBits, List.length_map, source_length]

/-- BPACK within its capacity leaves the packed form of its source's bits, and their count modulo 8 in RES2. -/
theorem output_of_bpack {s t : State} {p : Bool} (h : s.Accepts (.bpack p))
    (hcap : ceil8 s.operands.srcLen.toNat + p.toNat ≤ s.operands.dstCap.toNat) (ht : exec (.bpack p) s = .next t) :
    s.outputOf t = packedForm p s.sourceBits ∧ t.res2 = BitVec.ofNat 32 (s.sourceBits.length % 8) := by
  have hlen : (packedForm p s.sourceBits).length = ceil8 s.operands.srcLen.toNat + p.toNat := by
    rw [packedForm_length, sourceBits_length]
  have hform : (if p then [BitVec.ofNat 8 (s.operands.srcLen.toNat % 8)] else []) ++
      packMSB (s.source.map fun b => b.getLsbD 0) = packedForm p s.sourceBits := by
    rw [← sourceBits_length]
    cases p <;> rfl
  rw [(bpackPacksItsSource s p h).1 hcap, hform, ← hlen, ← sourceBits_length] at ht
  obtain rfl := Host.Outcome.next.inj ht
  exact ⟨outputOf_completed _ _ (hlen ▸ hcap), rfl⟩

/-- BUNPACK of a source whose bits are `bits`, with room for them, puts out a byte for each (R165). -/
theorem exec_bunpack_of_bits {u : State} {p : Bool} {bits : Bits} (h : u.Accepts (.bunpack p))
    (hbits : bunpackBits p (u.inputs (shapeOf (.bunpack p))) = .ok bits)
    (hcap : bits.length ≤ u.operands.dstCap.toNat) :
    exec (.bunpack p) u = .next (u.completed (bits.map fun b => BitVec.ofNat 8 b.toNat) bits.length bits.length
      (bunpackCount p (u.inputs (shapeOf (.bunpack p))))) := by
  refine (exec_of_emission h rfl (List.length_map _) ?_).1 hcap
  simp only [bodyOf, bunpackBody, hbits, ok_bind]

theorem ofNat_getLsbD_zero (b : Byte) : BitVec.ofNat 8 (b.getLsbD 0).toNat = b &&& 1 := by
  have hbit : b &&& 1#8 = (BitVec.ofBool (b.getLsbD 0)).setWidth 8 := BitVec.and_one_eq_setWidth_ofBool_getLsbD
  refine Eq.trans ?_ hbit.symm
  cases b.getLsbD 0 <;> rfl

/-- The byte BUNPACK puts out for each bit of a source is bit 0 of the source's byte (R164). -/
theorem bytes_of_sourceBits (s : State) :
    (s.sourceBits.map fun b => BitVec.ofNat 8 b.toNat) = s.source.map fun b => b &&& 1 := by
  simp only [State.sourceBits, List.map_map, Function.comp_def, ofNat_getLsbD_zero]

/-- Settles O47: BPACK leaves the packed form of its source's bits, and BUNPACK's bits of a packed form are the string. -/
theorem bitpackRoundTrip : Obligations.BitpackRoundTrip := by
  unfold Obligations.BitpackRoundTrip
  intro s t p h hcap ht u hu hsrc harg hroom
  obtain ⟨hout, hres2⟩ := output_of_bpack h hcap ht
  have hbits : bunpackBits p (u.inputs (shapeOf (.bunpack p))) = .ok s.sourceBits := by
    refine bunpackBits_of_packedForm ((bodyOf_inputs_src rfl).trans (hsrc.trans hout)) fun hp => ?_
    have hcount : u.operands.arg0 = BitVec.ofNat 32 (s.sourceBits.length % 8) := (harg hp).trans hres2
    have hfits : s.sourceBits.length % 8 < 2 ^ 32 := by omega
    exact (congrArg BitVec.toNat hcount).trans ((BitVec.toNat_ofNat ..).trans (Nat.mod_eq_of_lt hfits))
  have hlen : (s.source.map fun b => b &&& 1).length = s.sourceBits.length := by
    rw [State.sourceBits, List.length_map, List.length_map]
  rw [← sourceBits_length] at hroom
  refine ⟨_, exec_bunpack_of_bits hu hbits hroom, ?_, ?_, rfl⟩
  · rw [bytes_of_sourceBits, ← hlen]
    exact outputOf_completed _ _ (hlen ▸ hroom)
  · rw [sourceBits_length]
    exact BitVec.ofNat_toNat ..

end Sys2Proof.Machine
end

section
/-! PROOF. 45_container: CDEC's reading of a record, field by field (R291, R293). -/

namespace Sys2Proof.Machine

open Sys2Proof.Config

/-! ## The header (R291) -/

theorem parseRecord_of_no_magic {n : Nat} {B : List Byte} (hm : B.take 4 ≠ magic) :
    parseRecord n B = .error { kind := .malformedHeader, info := 0 } := by
  rw [parseRecord, if_pos hm]
  rfl

section Magic

variable {n : Nat} {B : List Byte} (hm : B.take 4 = magic)
include hm

theorem parseRecord_of_no_marker (h5 : B.length < 5) :
    parseRecord n B = .error { kind := .malformedHeader, info := 4 } := by
  have hnone : B[4]? = none := List.getElem?_eq_none (Nat.le_of_lt_succ h5)
  rw [parseRecord, if_neg (not_not.mpr hm), hnone]
  rfl

theorem parseRecord_of_marker_above_one (h5 : 5 ≤ B.length) (h1 : 1 < byteAt B 4) :
    parseRecord n B = .error { kind := .unknownFormatMode, info := 4 } := by
  obtain ⟨b, hb, e⟩ := getElem?_of_lt (Nat.lt_of_succ_le h5)
  rw [parseRecord, if_neg (not_not.mpr hm), hb]
  exact if_pos (e ▸ h1)

/-- A record of marker 0 is a RAW record. -/
theorem parseRecord_of_marker_zero (h5 : 5 ≤ B.length) (h0 : byteAt B 4 = 0) : parseRecord n B = parseRaw B := by
  obtain ⟨b, hb, e⟩ := getElem?_of_lt (Nat.lt_of_succ_le h5)
  obtain rfl : b = 0#8 := BitVec.eq_of_toNat_eq (e.symm.trans h0)
  rw [parseRecord, if_neg (not_not.mpr hm), hb]
  rfl

end Magic

/-! ## The RAW record (R282, R291) -/

theorem parseRaw_of_no_length {B : List Byte} (h9 : B.length < 9) :
    parseRaw B = .error { kind := .truncatedPayload, info := 5 } :=
  if_pos h9

/-- Behind its length field a RAW record is its payload, or that is cut off. -/
theorem parseRaw_of_length {B : List Byte} {n : Nat} (h9 : 9 ≤ B.length)
    (hn : byteAt B 5 * 2 ^ 24 + byteAt B 6 * 2 ^ 16 + byteAt B 7 * 2 ^ 8 + byteAt B 8 = n) :
    parseRaw B = if B.length < 9 + n then .error { kind := .truncatedPayload, info := 9 }
      else .ok (.raw ((B.drop 9).take n) (9 + n)) := by
  rw [parseRaw, if_neg (Nat.not_lt.mpr h9), take_four h9, hn]
  rfl

/-! ## The entropy record (R283, R291) -/

theorem parseEnt_of_codebook_fails {n : Nat} {B : List Byte} {e : Raise} (hfails : CodebookFails n B 5 e) :
    parseEnt n B = .error e := by
  rw [parseEnt, parseCB_of_fails hfails, error_bind]

section Codebook

variable {n : Nat} {B : List Byte} {C : Codebook} {q : Nat} (hcb : parseCB n B 5 = .ok (C, q))
include hcb

theorem parseEnt_of_cut (hcut : VarintCut B q) :
    parseEnt n B = .error { kind := .malformedVarInt, info := BitVec.ofNat 32 q } := by
  simp only [parseEnt, hcb, ok_bind, readVarInt_of_cut hcut, error_bind]

/-- Behind its codebook and the length of its bitstream, an entropy record fails in one of three ways or is whole. -/
theorem parseEnt_of_at {len p : Nat} (hat : VarintAt B q len p) : parseEnt n B =
    if len = 0 then .error { kind := .corruptBitstream, info := BitVec.ofNat 32 q }
    else if B.length < p + len then .error { kind := .truncatedPayload, info := BitVec.ofNat 32 p }
    else if 7 < byteAt B p ∨ (len = 1 ∧ byteAt B p ≠ 0) then
      .error { kind := .corruptBitstream, info := BitVec.ofNat 32 p }
    else .ok (.ent C (unpackMSB ((B.drop (p + 1)).take (len - 1)) (byteAt B p)) p (p + len)) := by
  simp only [parseEnt, hcb, ok_bind, readVarInt_of_at hat]
  by_cases hzero : len = 0
  · rw [if_pos hzero, if_pos hzero]
    rfl
  rw [if_neg hzero, if_neg hzero]
  by_cases htrunc : B.length < p + len
  · rw [if_pos htrunc, if_pos htrunc]
    rfl
  rw [if_neg htrunc, if_neg htrunc, streamBits_slice (Nat.one_le_iff_ne_zero.mpr hzero) (Nat.not_lt.mp htrunc)]
  split <;> rfl

end Codebook

/-! ## CDEC of a parsed record (R293) -/

theorem exec_cdec_of_error {s : State} (h : s.Accepts .cdec) {e : Raise}
    (hparse : parseRecord s.params.maxSymbols s.source = .error e) : ∃ t, exec .cdec s = .next t ∧ s.Failed .cdec e t := by
  refine exec_of_error h ?_
  simp only [bodyOf, cdecBody, bodyOf_inputs_src (i := .cdec) rfl]
  exact congrArg (· >>= _) hparse

theorem exec_cdec_of_raw {s : State} (h : s.Accepts .cdec) {payload : List Byte} {stop : Nat}
    (hparse : parseRecord s.params.maxSymbols s.source = .ok (.raw payload stop))
    (hcap : payload.length ≤ s.operands.dstCap.toNat) :
    exec .cdec s = .next { s.completed payload payload.length stop 0 with cb := none } := by
  have hparse' : parseRecord (s.inputs (shapeOf .cdec)).params.maxSymbols (s.inputs (shapeOf .cdec)).src =
      .ok (.raw payload stop) := hparse
  have hbody : bodyOf .cdec (s.inputs (shapeOf .cdec)) =
      .ok { out := payload, res0 := BitVec.ofNat 32 payload.length, res1 := BitVec.ofNat 32 stop, res2 := 0 } := by
    simp only [bodyOf, cdecBody, hparse', ok_bind, emit_of_le (x := s.inputs (shapeOf .cdec)) hcap]
  rw [exec_of_ok h hbody]
  rfl

/-- Settles O44: CDEC fails as the parser does, which reads the fields in R291's order, and puts a RAW payload out. -/
theorem cdecReadsTheHeader : Obligations.CdecReadsTheHeader := by
  unfold Obligations.CdecReadsTheHeader
  intro s h B byte n
  have hfail {e : Raise} := exec_cdec_of_error h (e := e)
  refine ⟨fun hm => hfail (parseRecord_of_no_magic hm), fun hm => ⟨fun h5 => hfail (parseRecord_of_no_marker hm h5),
    fun h5 h1 => hfail (parseRecord_of_marker_above_one hm h5 h1), fun h5 h9 h0 => hfail ?_,
    fun h9 h0 hshort => hfail ?_, fun h9 h0 hfits hcap => ?_, fun h5 h1 => ?_⟩⟩
  · rw [parseRecord_of_marker_zero hm h5 h0, parseRaw_of_no_length h9]
  · rw [parseRecord_of_marker_zero hm (by omega) h0, parseRaw_of_length h9 rfl, if_pos hshort]
  · have hparse : parseRecord s.params.maxSymbols B = .ok (.raw ((B.drop 9).take n) (9 + n)) := by
      rw [parseRecord_of_marker_zero hm (by omega) h0, parseRaw_of_length h9 rfl, if_neg (Nat.not_lt.mpr hfits)]
    have hlen : ((B.drop 9).take n).length = n := by
      rw [List.length_take, List.length_drop]
      omega
    rw [exec_cdec_of_raw h hparse (hlen.trans_le hcap), hlen]
  · have hent := parseRecord_of_marker_one s.params.maxSymbols hm h5 h1
    refine ⟨fun e hfails => hfail (hent.trans (parseEnt_of_codebook_fails hfails)), codebook_cases _ _ _,
      fun E q hcb => ?_⟩
    obtain ⟨C, hperm, hasc, hparse⟩ := parseCB_of_at hcb
    refine ⟨fun hcut => hfail (hent.trans (parseEnt_of_cut hparse hcut)), ?_⟩
    intro len p hat badPrefix
    have hrecord := hent.trans (parseEnt_of_at hparse hat)
    refine ⟨fun hzero => hfail ?_, fun hpos htrunc => hfail ?_, fun hpos hfits hbad => hfail ?_,
      fun hpos hfits hgood => ⟨C, hperm, hasc, ?_⟩⟩
    · rw [hrecord, if_pos hzero]
    · rw [hrecord, if_neg (Nat.ne_of_gt hpos), if_pos htrunc]
    · rw [hrecord, if_neg (Nat.ne_of_gt hpos), if_neg (Nat.not_lt.mpr hfits), if_pos hbad]
    · rw [hrecord, if_neg (Nat.ne_of_gt hpos), if_neg (Nat.not_lt.mpr hfits), if_neg hgood]

end Sys2Proof.Machine
end

section
/-! PROOF. 42_varint: reading back what was written, in a buffer and through VWRITE and VREAD (R181, R184). -/

namespace Sys2Proof.Machine

/-- The reader reads only varints that lie at its cursor (R182). -/
theorem varintAt_of_readVarInt {B : List Byte} {c v d : Nat} (h : readVarInt B c = .ok (v, d)) : VarintAt B c v d := by
  rcases varint_cases B c with hcut | ⟨v', d', hat⟩
  · cases h.symm.trans (readVarInt_of_cut hcut)
  · cases h.symm.trans (readVarInt_of_at hat)
    exact hat

/-- VWRITE either reports no byte, which is its failure, or has put the varint of ARG0 out (R183). -/
theorem output_of_vwrite {s t : State} (h : s.Accepts .vwrite) (ht : exec .vwrite s = .next t) (hres : t.res0 ≠ 0) :
    s.outputOf t = varintBytes s.operands.arg0.toNat ∧ t.res0.toNat = varintLen s.operands.arg0.toNat := by
  obtain ⟨hfits, hfull⟩ := exec_of_emission (out := varintBytes s.operands.arg0.toNat) (r1 := 0) (r2 := 0) h rfl rfl rfl
  rcases Nat.lt_or_ge s.operands.dstCap.toNat (varintBytes s.operands.arg0.toNat).length with hlt | hle
  · obtain ⟨t', ht', hzero, -⟩ := hfull hlt
    obtain rfl := Host.Outcome.next.inj (ht.symm.trans ht')
    exact absurd hzero hres
  · obtain rfl := Host.Outcome.next.inj (ht.symm.trans (hfits hle))
    refine ⟨outputOf_completed 0 0 hle, ?_⟩
    rw [← varintBytes_length]
    exact (BitVec.toNat_ofNat ..).trans (Nat.mod_eq_of_lt (Nat.lt_of_le_of_lt hle s.operands.dstCap.isLt))

/-- Settles O48: the reader reads a written varint at any cursor, and VREAD reads VWRITE's output as the reader does. -/
theorem varintRoundTrip : Obligations.VarintRoundTrip := by
  unfold Obligations.VarintRoundTrip
  refine ⟨fun v hv => ⟨varintBytes_length v, ?_⟩, fun s t h ht hres u before after hu hsrc hcursor => ?_⟩
  · rw [varintBytes_length]
    simpa using readVarInt_varintBytes_zero [] v hv
  · obtain ⟨hout, hlen⟩ := output_of_vwrite h ht hres
    have hread := readVarInt_varintBytes before after s.operands.arg0.toNat s.operands.arg0.isLt
    rw [← hout, ← hsrc, ← hlen, hcursor] at hread
    rw [hcursor]
    exact exec_vread_of_at hu (varintAt_of_readVarInt hread)

end Sys2Proof.Machine
end

section
/-! PROOF. 43_huffman: the frequency table (R201), the queue and the tree (R200-R208), and the codebook that HBUILD
installs (R210). -/

namespace Sys2Proof.Machine

open Sys2Proof.Config

/-! ## The frequency table (R201) -/

/-- The symbols of the table are the distinct symbols of the sequence, in ascending order. -/
theorem distinctAscending_keys (x : List Word) : DistinctAscending x ((freqTable x).map Prod.fst) :=
  ⟨List.pairwise_map.mpr (freqTable_sorted x), mem_keys_freqTable x⟩

theorem DistinctAscending.perm {x y S : List Word} (h : DistinctAscending x S) (hp : x.Perm y) : DistinctAscending y S :=
  ⟨h.1, fun s => (h.2 s).trans hp.mem_iff⟩

theorem freqTable_perm {x y : List Word} (hp : x.Perm y) : freqTable x = freqTable y := by
  obtain ⟨S, hS⟩ : ∃ S, DistinctAscending x S := ⟨_, distinctAscending_keys x⟩
  rw [freqTable_eq hS, freqTable_eq (hS.perm hp)]
  simp only [hp.count_eq]

/-- Settles O49: the entries are the counts, which no reordering changes, and HBUILD checks their number first. -/
theorem frequencyTableCounts : Obligations.FrequencyTableCounts := by
  unfold Obligations.FrequencyTableCounts
  exact ⟨fun x => ⟨mem_freqTable x, keys_nodup x, freqTable_length x, fun _ => freqTable_perm⟩,
    fun s w h => (hbuildInstallsTheCodebook s w h).1⟩

/-! ## The queue (R203) -/

/-- Settles O50: a push inserts the node before the first one that it precedes. -/
theorem queueStaysInPriorityOrder : Obligations.QueueStaysInPriorityOrder := by
  unfold Obligations.QueueStaysInPriorityOrder
  exact fun n Q horder hseq => ⟨push_perm n Q, push_ordered horder hseq⟩

/-! ## The tree (R200-R208) -/

/-- A tree has one internal node fewer than leaves. -/
theorem Node.internalCount_succ (n : Node) : n.internalCount + 1 = n.leafCount := by
  induction n with
  | leaf => rfl
  | dummy => rfl
  | node _ _ l r ihl ihr =>
    rw [Node.internalCount, Node.leafCount]
    omega

/-- Merging keeps every internal frequency the sum of its children's (R204). -/
theorem MergesTo.sumsFrequencies {next : Nat} {Q : List Node} {root : Node} (h : MergesTo next Q root)
    (hQ : ∀ n ∈ Q, n.SumsFrequencies) : root.SumsFrequencies := by
  induction h with
  | root next n => exact hQ n List.mem_cons_self
  | merge next Q rest a b root hperm _ _ _ ih =>
    simp only [hperm.mem_iff, List.forall_mem_cons] at hQ
    obtain ⟨ha, hb, hrest⟩ := hQ
    exact ih (List.forall_mem_cons.mpr ⟨⟨rfl, ha, hb⟩, hrest⟩)

theorem numberedLeaves_sumsFrequencies (x S : List Word) : ∀ n ∈ numberedLeaves x S, n.SumsFrequencies := by
  intro n hn
  rcases List.mem_append.mp hn with hleaf | hdummy
  · obtain ⟨k, -, rfl⟩ := List.mem_map.mp hleaf
    trivial
  · split at hdummy
    · rw [List.mem_singleton.mp hdummy]
      trivial
    · cases hdummy

theorem freqTable_eq_nil {x : List Word} : freqTable x = [] ↔ x = [] := by
  rw [← List.map_eq_nil_iff (f := Prod.fst), List.eq_nil_iff_forall_not_mem, List.eq_nil_iff_forall_not_mem]
  simp only [mem_keys_freqTable]

/-- The tree is EMPTY only for the empty sequence (R205). -/
theorem buildTree_eq_none {x : List Word} : buildTree (freqTable x) = none ↔ x = [] := by
  constructor
  · intro hnone
    by_contra hx
    obtain ⟨root, hroot, -⟩ := buildTree_spec (freqTable x) (mt freqTable_eq_nil.mp hx)
    cases hnone.symm.trans hroot
  · rintro rfl
    exact buildTree_nil

/-- What the tree of a sequence counts (R200, R204-R206). -/
theorem buildTree_counts {x : List Word} {root : Node} (h : buildTree (freqTable x) = some root) :
    root.SumsFrequencies ∧ root.freq = x.length ∧
      root.leafCount = (if x.dedup.length = 1 then 2 else x.dedup.length) := by
  have hne : x ≠ [] := fun hnil => by cases h.symm.trans (buildTree_eq_none.mpr hnil)
  obtain ⟨r, hr, -, hfreq, hleaves⟩ := buildTree_spec (freqTable x) (mt freqTable_eq_nil.mp hne)
  obtain rfl := Option.some.inj (h.symm.trans hr)
  have hmerges := (mergesTo_iff_buildTree (distinctAscending_keys x) root).mpr h
  rw [sum_freqTable] at hfreq
  rw [freqTable_length] at hleaves
  exact ⟨hmerges.sumsFrequencies (numberedLeaves_sumsFrequencies x _), hfreq, hleaves⟩

theorem freqTable_replicate (sym : Word) (n : Nat) : freqTable (List.replicate (n + 1) sym) = [(sym, n + 1)] := by
  have hS : DistinctAscending (List.replicate (n + 1) sym) [sym] := ⟨List.pairwise_singleton _ _, by simp⟩
  rw [freqTable_eq hS]
  simp

/-- The tree of one symbol: the dummy, of frequency 0, is popped first and stands on the left (R206). -/
theorem buildTree_single (sym : Word) (k : Nat) :
    buildTree [(sym, k + 1)] = some (.node (k + 1) 2 (.dummy 1) (.leaf sym (k + 1) 0)) := by
  have hqueue : push (.dummy 1) [.leaf sym (k + 1) 0] = [.dummy 1, .leaf sym (k + 1) 0] := by
    simp [push, Node.before, Node.freq]
  refine (congrArg (mergeLoop 2 2) hqueue).trans ?_
  simp [mergeLoop, push, Node.freq]

/-- Settles O51: buildTree is the merges of R204, which keep the sums and the counts, and walking the tree finds the
paths. -/
theorem treeHasTheStatedShape : Obligations.TreeHasTheStatedShape := by
  unfold Obligations.TreeHasTheStatedShape
  refine ⟨fun x => ⟨buildTree_eq_none, ?_, fun S hS root => (mergesTo_iff_buildTree hS root).symm, fun root hroot => ?_⟩,
    mem_buildCodebook, fun sym n => ?_⟩
  · rintro rfl
    rfl
  · obtain ⟨hsums, hfreq, hleaves⟩ := buildTree_counts hroot
    exact ⟨hsums, hfreq, hleaves, root.internalCount_succ, mem_codebookOf hroot⟩
  · rw [freqTable_replicate, codebookOf, buildTree_single]
    rfl

/-! ## The codebook that HBUILD installs (R209, R210, R212) -/

/-- An accepted HBUILD that leaves a codebook has met both limits, and the codebook is the one of its symbols. -/
theorem hbuild_installs {s t : State} {w : Bool} {C : Codebook} (h : s.Accepts (.hbuild w))
    (ht : exec (.hbuild w) s = .next t) (hcb : t.cb = some C) :
    C = codebookOf (freqTable (s.symbols w)) ∧ (s.symbols w).dedup.length ≤ s.params.maxSymbols ∧
      ∀ e ∈ C, e.code.length ≤ 32 := by
  obtain ⟨hmany, hlong, hok⟩ := hbuildInstallsTheCodebook s w h
  have hnot (e : Raise) : ¬ ∃ t', exec (.hbuild w) s = .next t' ∧ s.Failed (.hbuild w) e t' := by
    rintro ⟨t', ht', -, -, -, -, -, -, -, hnone, -⟩
    obtain rfl := Host.Outcome.next.inj (ht.symm.trans ht')
    cases hcb.symm.trans hnone
  have hfew := Nat.not_lt.mp fun hlt => hnot _ (hmany hlt)
  have hshort : ∀ e ∈ codebookOf (freqTable (s.symbols w)), e.code.length ≤ 32 :=
    fun e he => Nat.not_lt.mp fun hlt => hnot _ (hlong hfew ⟨e, he, hlt⟩)
  obtain rfl := Host.Outcome.next.inj (ht.symm.trans (hok hfew hshort))
  obtain rfl := Option.some.inj hcb
  exact ⟨rfl, hfew, hshort⟩

theorem SymsAscend.syms_ne {C : Codebook} (h : SymsAscend C) : C.Pairwise fun d e => d.sym ≠ e.sym :=
  h.imp fun hlt he => Nat.ne_of_lt hlt (congrArg BitVec.toNat he)

/-- Settles O52: the codes are the paths to the leaves of one tree, whose symbols are those of the table. -/
theorem codebookIsPrefixFree : Obligations.CodebookIsPrefixFree := by
  unfold Obligations.CodebookIsPrefixFree
  intro s t w C h ht hcb
  obtain ⟨rfl, -, -⟩ := hbuild_installs h ht hcb
  obtain ⟨hasc, hprefix, -, hsyms⟩ := codebookOf_spec _ (freqTable_sorted (s.symbols w))
  refine ⟨hprefix, hasc.syms_ne.and (PrefixFree.codes_ne hprefix), fun sym => ?_⟩
  rw [← mem_keys_freqTable, ← hsyms.mem_iff, List.mem_map]

end Sys2Proof.Machine
end

section
/-! PROOF. 43_huffman: the round trips (R223): HDEC of what HENC wrote with HBUILD's codebook, and HDESER of what HSER
wrote. -/

namespace Sys2Proof.Machine

open Sys2Proof.Config

/-! ## What a successful emission leaves (R119, R122) -/

theorem completed_res0_toNat {s : State} {out : List Byte} {n : Nat} (r1 r2 : Nat) (h : n ≤ s.operands.dstCap.toNat) :
    (s.completed out n r1 r2).res0.toNat = n :=
  (BitVec.toNat_ofNat ..).trans (Nat.mod_eq_of_lt (Nat.lt_of_le_of_lt h s.operands.dstCap.isLt))

/-- A command that ends in emitting `out` and reports a byte has put `out` out. -/
theorem output_of_emission {s t : State} {i : Instr} {out : List Byte} {n r1 r2 : Nat} (hn : out.length = n)
    (hend : (n ≤ s.operands.dstCap.toNat → exec i s = .next (s.completed out n r1 r2)) ∧
      (s.operands.dstCap.toNat < n →
        ∃ t, exec i s = .next t ∧ s.Failed i { kind := .capacityExceeded, info := 1 } t))
    (ht : exec i s = .next t) (hres : t.res0 ≠ 0) : s.outputOf t = out ∧ t.res0.toNat = n := by
  subst hn
  rcases Nat.lt_or_ge s.operands.dstCap.toNat out.length with hlt | hle
  · obtain ⟨t', ht', hzero, -⟩ := hend.2 hlt
    obtain rfl := Host.Outcome.next.inj (ht.symm.trans ht')
    exact absurd hzero hres
  · obtain rfl := Host.Outcome.next.inj (ht.symm.trans (hend.1 hle))
    exact ⟨outputOf_completed r1 r2 hle, completed_res0_toNat r1 r2 hle⟩

/-! ## HDEC of what HENC wrote (R213-R216) -/

/-- The encoded string is no longer than its symbols allow. -/
theorem encodeBits_length_le {C : Codebook} (hasc : SymsAscend C) {m : Nat} (hlen : ∀ e ∈ C, e.code.length ≤ m)
    {x : List Word} {i : Nat} {bits : Bits} (h : encodeBits C i x = .ok bits) : bits.length ≤ m * x.length := by
  induction x generalizing i bits with
  | nil =>
    obtain rfl := Except.ok.inj h
    exact Nat.zero_le _
  | cons a x ih =>
    rw [encodeBits] at h
    cases hcode : C.codeOf a with
    | none => simp [hcode] at h
    | some code =>
      simp only [hcode] at h
      obtain ⟨rest, hrest, h⟩ := bind_eq_ok.mp h
      obtain rfl := Except.ok.inj h
      have hfirst : code.length ≤ m := hlen _ ((codeOf_eq_some hasc a code).mp hcode)
      have htail := ih hrest
      rw [List.length_append, List.length_cons, Nat.mul_succ]
      omega

/-- HENC of symbols that all have codes comes to emitting the stream form of their encoding (R214). -/
theorem exec_henc_of_bits {s : State} {w : Bool} {C : Codebook} {bits : Bits} (h : s.Accepts (.henc w))
    (hcb : s.cb = some C) (hbits : encodeBits C 0 (s.symbols w) = .ok bits) :
    (1 + ceil8 bits.length ≤ s.operands.dstCap.toNat → exec (.henc w) s =
      .next (s.completed (stream bits) (1 + ceil8 bits.length) bits.length (s.symbols w).length)) ∧
    (s.operands.dstCap.toNat < 1 + ceil8 bits.length →
      ∃ t, exec (.henc w) s = .next t ∧ s.Failed (.henc w) { kind := .capacityExceeded, info := 1 } t) := by
  have hsymbols : (s.inputs (shapeOf (.henc w))).symbols w = s.symbols w := by
    obtain ⟨-, -, halign, -⟩ := h
    exact inputs_symbols rfl fun hw => (halign hw).2
  refine exec_of_emission h rfl (stream_length bits) ?_
  simp only [bodyOf, hencBody, inputs_cb hcb, hsymbols, hbits, ok_bind]

/-- HDEC of the stream form of bits that decode to `x`, with room for `x`, writes `x` as words (R216). -/
theorem exec_hdec_of_stream {d : State} {C : Codebook} {bits : Bits} {x : List Word} (h : d.Accepts .hdec)
    (hcb : d.cb = some C) (hsource : d.source = stream bits) (hroom : 4 * x.length ≤ d.operands.dstCap.toNat)
    (hdecode : decodeBits C d.operands.dstCap.toNat (ErrorKind.capacityExceeded.at 1) (ErrorKind.corruptBitstream.at 0)
      bits [] 0 = .ok x) :
    exec .hdec d = .next (d.completed (x.flatMap be32) (4 * x.length) x.length bits.length) := by
  have hstream : streamBits (d.inputs (shapeOf .hdec)).src 0 = .ok bits :=
    (congrArg (streamBits · 0) hsource).trans (streamBits_stream bits 0)
  have hsyms : decodeBits C (d.inputs (shapeOf .hdec)).ops.dstCap.toNat _ _ bits [] 0 = .ok x := hdecode
  refine (exec_of_emission h rfl (flatMap_be32_length x) ?_).1 hroom
  simp only [bodyOf, hdecBody, hstream, inputs_cb hcb, hsyms, ok_bind]

/-- Settles O53: HBUILD's codebook has a code of at most 32 digits for each symbol of its source, and is prefix-free, so
that decoding undoes encoding. -/
theorem huffmanRoundTrip : Obligations.HuffmanRoundTrip := by
  unfold Obligations.HuffmanRoundTrip
  intro s t w C h ht hcb
  obtain ⟨rfl, hfew, hshort⟩ := hbuild_installs h ht hcb
  obtain ⟨hasc, hprefix, hpos, -⟩ := codebookOf_spec _ (freqTable_sorted (s.symbols w))
  refine ⟨fun s' t' h' hparams hsymbols ht' => ?_, fun u v hu hucb husymbols hv => ?_⟩
  · obtain ⟨-, -, hok⟩ := hbuildInstallsTheCodebook s' w h'
    rw [hsymbols, hparams] at hok
    obtain rfl := Host.Outcome.next.inj (ht'.symm.trans (hok hfew hshort))
    rfl
  · obtain ⟨bits, hbits⟩ := encodeBits_of_mem (s.symbols w) 0 (codeOf_codebookOf _)
    have hend := exec_henc_of_bits (bits := bits) hu hucb (by rwa [husymbols])
    refine ⟨fun hroom => ?_, fun hres d hd hdcb hdsource hdroom => ?_⟩
    · have hlen := encodeBits_length_le hasc hshort hbits
      have hfits : 1 + ceil8 bits.length ≤ u.operands.dstCap.toNat := by
        have := ceil8_lt bits.length
        omega
      obtain rfl := Host.Outcome.next.inj (hv.symm.trans (hend.1 hfits))
      rw [← BitVec.toNat_ne_iff_ne, completed_res0_toNat _ _ hfits]
      exact Nat.ne_of_gt (Nat.lt_add_right _ Nat.one_pos)
    · obtain ⟨hout, -⟩ := output_of_emission (stream_length bits) hend hv hres
      have hdecode := decodeBits_encodeBits hasc hprefix hpos d.operands.dstCap.toNat
        (ErrorKind.capacityExceeded.at 1) (ErrorKind.corruptBitstream.at 0) (s.symbols w) 0 0 bits hbits
        (by rwa [Nat.zero_add])
      have hbytes := flatMap_be32_length (s.symbols w)
      refine ⟨_, exec_hdec_of_stream hd hdcb (hdsource.trans hout) hdroom hdecode, ?_, ?_, rfl, rfl, rfl⟩
      · rw [← hbytes]
        exact outputOf_completed _ _ (hbytes ▸ hdroom)
      · refine (BitVec.toNat_ofNat ..).trans (Nat.mod_eq_of_lt ?_)
        have := d.operands.dstCap.isLt
        omega

/-! ## HDESER of what HSER wrote (R211, R217) -/

/-- HSER that reports a byte has put out the wire form of CB (R218). -/
theorem output_of_hser {s t : State} {C : Codebook} (h : s.Accepts .hser) (hcb : s.cb = some C)
    (ht : exec .hser s = .next t) (hres : t.res0 ≠ 0) :
    s.outputOf t = serCB C ∧ t.res0.toNat = (serCB C).length := by
  have hend := hserWritesTheCodebook s C h hcb
  rw [← serCB_length] at hend
  exact output_of_emission rfl hend ht hres

/-- Settles O54: HSER puts the wire form of a legal codebook out, which parses to that codebook whatever follows it. -/
theorem codebookWireRoundTrip : Obligations.CodebookWireRoundTrip := by
  unfold Obligations.CodebookWireRoundTrip
  intro s t C hinv h hcb ht hres u rest hu hparams hsource
  obtain ⟨hout, hlen⟩ := output_of_hser h hcb ht hres
  have hlegal := hinv.codebook C hcb
  have hcount : C.length < 2 ^ 32 := by
    obtain ⟨-, -, -, hmax⟩ := hlegal
    exact Nat.lt_of_le_of_lt hmax (maxSymbols_lt hinv.params)
  refine exec_hdeser_of_ok hu ?_
  rw [hparams, hsource, hout, hlen]
  simpa using parseCB_serCB [] rest C s.params.maxSymbols hlegal hcount

end Sys2Proof.Machine
end

section
/-! PROOF. 44_lz77: the longest match (R251), the tokens of the greedy scan (R252, R254), and the replay of what the scan
wrote (R258). -/

namespace Sys2Proof.Machine

open Sys2Proof.Config

/-! ## The longest match (R251) -/

/-- Settles O55: a match is a run that nothing prolongs, and the search keeps the first offset of the longest. -/
theorem bestMatchIsTheLongest : Obligations.BestMatchIsTheLongest := by
  unfold Obligations.BestMatchIsTheLongest
  intro x W L pos _ _ hpos
  refine ⟨fun off h1 h2 => matchLen_spec x L pos off h1 h2 hpos, ?_⟩
  rcases bestMatch_cases x W L pos with hnone | ⟨hlow, hhigh, hlen, hlong, hall, hfirst⟩
  · exact .inl hnone
  · exact .inr ⟨hlow, hhigh, hlong, hlen, fun off h1 h2 => ⟨hall off h1 h2, hfirst off h1⟩⟩

/-! ## The tokens of the scan (R252, R254) -/

section Token

variable {x : List Byte} {W L M pos : Nat} {b : Byte}

/-- A match that is long enough becomes a back-reference, with the byte behind it or NONE at the end of the input. -/
theorem scanToken_of_match (hm : M ≤ (bestMatch x W L pos).2) : scanToken x W L M pos b =
    ⟨(bestMatch x W L pos).1, (bestMatch x W L pos).2,
      if pos + (bestMatch x W L pos).2 < x.length then (x.getD (pos + (bestMatch x W L pos).2) 0).toNat else 256⟩ := by
  rw [scanToken, if_pos hm]
  split
  · rename_i hc
    obtain ⟨hlt, -⟩ := List.getElem?_eq_some_iff.mp hc
    rw [if_pos hlt, List.getD_eq_getElem?_getD, hc, Option.getD_some]
  · rename_i hc
    rw [if_neg (Nat.not_lt.mpr (List.getElem?_eq_none_iff.mp hc))]
    rfl

theorem scanToken_of_no_match (hm : (bestMatch x W L pos).2 < M) : scanToken x W L M pos b = ⟨0, 0, b.toNat⟩ := by
  rw [scanToken, if_neg (Nat.not_le.mpr hm)]

/-- A token puts out the bytes from its position to the next one, as far as the input goes (R254 item 5). -/
theorem scanToken_added (hb : x[pos]? = some b) (hM : 1 ≤ M) :
    pos + (scanToken x W L M pos b).added = min x.length (pos + (scanToken x W L M pos b).len + 1) := by
  obtain ⟨hpos, -⟩ := List.getElem?_eq_some_iff.mp hb
  rcases scanToken_cases x W L M pos b hb hM with
    h | ⟨off, len, next, h, -, -, -, -, -, ⟨c, hc, rfl⟩ | ⟨hend, rfl⟩⟩ <;> rw [h]
  · simp only [Token.added, if_neg (byte_ne_none b)]
    omega
  · obtain ⟨hlt, -⟩ := List.getElem?_eq_some_iff.mp hc
    simp only [Token.added, if_neg (byte_ne_none c)]
    omega
  · simp only [Token.added, if_pos]
    omega

end Token

section Scan

variable (x : List Byte) (W L : Nat) {M : Nat}

/-- The output length behind any number of tokens is their position, as far as the input goes (R254 item 5). -/
theorem lzScan_take_added (hM : 1 ≤ M) (fuel pos i : Nat) :
    min x.length pos + (((lzScan x W L M fuel pos).take i).map Token.added).sum =
      min x.length (pos + (((lzScan x W L M fuel pos).take i).map fun k => k.len + 1).sum) := by
  induction fuel generalizing pos i with
  | zero => simp [lzScan_zero]
  | succ fuel ih =>
    cases hb : x[pos]? with
    | none => simp [lzScan_end _ _ _ _ _ _ (List.getElem?_eq_none_iff.mp hb)]
    | some b =>
      cases i with
      | zero => simp
      | succ i =>
        obtain ⟨hpos, -⟩ := List.getElem?_eq_some_iff.mp hb
        have hrest := ih (pos + (scanToken x W L M pos b).len + 1) i
        rw [← scanToken_added hb hM] at hrest
        rw [lzScan_succ _ _ _ _ _ _ b hb, List.take_succ_cons, List.map_cons, List.map_cons, List.sum_cons,
          List.sum_cons, Nat.min_eq_right hpos.le, ← Nat.add_assoc, hrest, ← Nat.add_assoc, ← Nat.add_assoc]

theorem lzScan_length_le (fuel pos : Nat) : (lzScan x W L M fuel pos).length ≤ fuel := by
  induction fuel generalizing pos with
  | zero => exact Nat.le_refl 0
  | succ fuel ih =>
    cases hb : x[pos]? with
    | none => simp [lzScan_end _ _ _ _ _ _ (List.getElem?_eq_none_iff.mp hb)]
    | some b =>
      rw [lzScan_succ _ _ _ _ _ _ b hb]
      exact Nat.succ_le_succ (ih _)

end Scan

section Tokens

variable {x : List Byte} {W L M i : Nat} {k : Token}

/-- The token at an index is the scan's token at the position behind the tokens before it. -/
theorem lzTokens_getElem? (h : (lzTokens x W L M)[i]? = some k) :
    ∃ b, x[(((lzTokens x W L M).take i).map fun k => k.len + 1).sum]? = some b ∧
      k = scanToken x W L M (((lzTokens x W L M).take i).map fun k => k.len + 1).sum b := by
  simpa only [lzTokens, Nat.zero_add] using lzScan_getElem? x W L M x.length 0 i k h

/-- The output length behind `i` tokens is their position, as far as the input goes. -/
theorem lzTokens_take_added (x : List Byte) (W L i : Nat) (hM : 1 ≤ M) :
    (((lzTokens x W L M).take i).map Token.added).sum =
      min x.length (((lzTokens x W L M).take i).map fun k => k.len + 1).sum := by
  simpa only [lzTokens, Nat.min_zero, Nat.zero_add] using lzScan_take_added x W L hM x.length 0 i

/-- The tokens before a token put out as many bytes as the scan has passed. -/
theorem lzTokens_added_before (hM : 1 ≤ M) (h : (lzTokens x W L M)[i]? = some k) :
    (((lzTokens x W L M).take i).map Token.added).sum =
      (((lzTokens x W L M).take i).map fun k => k.len + 1).sum := by
  obtain ⟨b, hb, -⟩ := lzTokens_getElem? h
  obtain ⟨hpos, -⟩ := List.getElem?_eq_some_iff.mp hb
  rw [lzTokens_take_added x W L i hM, Nat.min_eq_right hpos.le]

/-- The scan passes the whole input (R252). -/
theorem lzTokens_reach (x : List Byte) (W L M : Nat) :
    x.length ≤ ((lzTokens x W L M).map fun k => k.len + 1).sum := by
  simpa only [lzTokens, Nat.zero_add] using lzScan_reaches x W L M x.length 0 (by omega)

/-- The output lengths of the tokens sum to the length of the input (R254 item 5). -/
theorem lzTokens_added (x : List Byte) (W L : Nat) (hM : 1 ≤ M) :
    ((lzTokens x W L M).map Token.added).sum = x.length := by
  have hadded := lzTokens_take_added x W L (lzTokens x W L M).length hM
  rw [List.take_length] at hadded
  exact hadded.trans (Nat.min_eq_left (lzTokens_reach x W L M))

/-- A token that covers the input to its end is the last. -/
theorem lzTokens_last (h : (lzTokens x W L M)[i]? = some k)
    (hend : x.length ≤ (((lzTokens x W L M).take i).map fun k => k.len + 1).sum + k.len) :
    i + 1 = (lzTokens x W L M).length := by
  obtain ⟨hi, -⟩ := List.getElem?_eq_some_iff.mp h
  by_contra hne
  obtain ⟨b, hb, -⟩ := lzTokens_getElem? (List.getElem?_eq_getElem (show i + 1 < (lzTokens x W L M).length by omega))
  obtain ⟨hpos, -⟩ := List.getElem?_eq_some_iff.mp hb
  rw [List.take_add_one, h] at hpos
  simp only [Option.toList_some, List.map_append, List.sum_append, List.map_cons, List.map_nil, List.sum_singleton]
    at hpos
  omega

/-- The token at an index is the literal at the scan's position, or a back-reference into the window (R254 items 1-3). -/
theorem lzTokens_token (hM : 1 ≤ M) (h : (lzTokens x W L M)[i]? = some k) :
    (k.off = 0 ∧ k.len = 0 ∧ k.next ≤ 255) ∨
    (1 ≤ k.off ∧ k.off ≤ min W (((lzTokens x W L M).take i).map Token.added).sum ∧ M ≤ k.len ∧ k.len ≤ L ∧
      (k.next ≤ 255 ∨ (k.next = 256 ∧ i + 1 = (lzTokens x W L M).length))) := by
  rw [lzTokens_added_before hM h]
  obtain ⟨b, hb, hk⟩ := lzTokens_getElem? h
  rcases scanToken_cases x W L M _ b hb hM with hlit | ⟨off, len, next, href, hlow, hhigh, hmin, hmax, -, hnext⟩
  · obtain rfl := hk.trans hlit
    exact .inl ⟨rfl, rfl, Nat.le_of_lt_succ b.isLt⟩
  · obtain rfl := hk.trans href
    refine .inr ⟨hlow, hhigh, hmin, hmax, ?_⟩
    rcases hnext with ⟨c, -, rfl⟩ | ⟨hend, rfl⟩
    · exact .inl (Nat.le_of_lt_succ c.isLt)
    · exact .inr ⟨rfl, lzTokens_last h hend.ge⟩

theorem lzTokens_eq_nil_iff : lzTokens x W L M = [] ↔ x = [] := by
  constructor
  · intro hnil
    have hreach := lzTokens_reach x W L M
    rw [hnil] at hreach
    exact List.eq_nil_of_length_eq_zero (Nat.le_zero.mp hreach)
  · rintro rfl
    rfl

end Tokens

/-- Settles O56: each token is the scan's token at its position, and the scan's positions are the output lengths. -/
theorem tokensMeetTheirInvariants : Obligations.TokensMeetTheirInvariants := by
  unfold Obligations.TokensMeetTheirInvariants
  intro x W L M _ _ hM
  refine ⟨fun i k h => ?_, lzTokens_reach x W L M, fun i k h => lzTokens_token hM h, lzScan_length_le x W L _ _,
    lzTokens_eq_nil_iff, lzTokens_added x W L hM⟩
  obtain ⟨b, hb, rfl⟩ := lzTokens_getElem? h
  obtain ⟨hpos, hbyte⟩ := List.getElem?_eq_some_iff.mp hb
  refine ⟨hpos, fun hm => scanToken_of_match hm, fun hm => ?_⟩
  rw [scanToken_of_no_match hm, List.getD_eq_getElem _ _ hpos, hbyte]

/-! ## The round trip (R258) -/

/-- A token of a replay that succeeds passes the checks (a) to (d) of R257. -/
theorem lzReplay_cons_checks {cap t : Nat} {out res : List Byte} {k : Token} {T : List Token}
    (h : lzReplay cap t out (k :: T) = .ok res) : ¬ k.BadAt out.length ∧ out.length + k.added ≤ cap := by
  have hgood : ¬ k.BadAt out.length := fun hbad => by simp [lzReplay_of_bad T hbad] at h
  refine ⟨hgood, Nat.not_lt.mp fun hfull => ?_⟩
  simp [lzReplay_of_full T hgood hfull] at h

/-- A replay that fits fits any larger capacity (R257 check d). -/
theorem lzReplay_mono {cap cap' t : Nat} {out res : List Byte} {T : List Token} (hcap : cap ≤ cap')
    (h : lzReplay cap t out T = .ok res) : lzReplay cap' t out T = .ok res := by
  induction T generalizing t out with
  | nil => exact h
  | cons k T ih =>
    obtain ⟨hgood, hroom⟩ := lzReplay_cons_checks h
    obtain ⟨ha, hb, hc⟩ := not_checks_of_not_badAt hgood
    rw [lzReplay_cons ha hb hc (Nat.not_lt.mpr hroom)] at h
    rw [lzReplay_cons ha hb hc (Nat.not_lt.mpr (hroom.trans hcap))]
    exact ih h

/-- Replaying the tokens of an input gives the input, at any capacity that holds it (R258). -/
theorem lzReplay_lzTokens {cap : Nat} (x : List Byte) (W L : Nat) {M : Nat} (hM : 1 ≤ M) (hcap : x.length ≤ cap) :
    lzReplay cap 0 [] (lzTokens x W L M) = .ok x :=
  lzReplay_mono hcap (lzReplay_lzScan x W L M hM x.length 0 0 (by omega))

/-- LZCOMP is not accepted with a MIN_MATCH of 0 (R115). -/
theorem minMatch_pos_of_accepts_lzcomp {s : State} (h : s.Accepts .lzcomp) : 1 ≤ s.operands.minMatch.toNat := by
  obtain ⟨-, -, hmin, -⟩ := h
  exact Nat.pos_of_ne_zero (BitVec.toNat_ne_iff_ne.mpr hmin)

/-- Tokens whose window and longest match fit 32 bits survive their memory form (R250). -/
theorem tokensOf_flatten_lzTokens (x : List Byte) {W L M : Nat} (hW : W < 2 ^ 32) (hL : L < 2 ^ 32) (hM : 1 ≤ M) :
    tokensOf (flatten (lzTokens x W L M)) = lzTokens x W L M := by
  refine tokensOf_flatten _ fun k hk => ?_
  obtain ⟨i, hi⟩ := List.mem_iff_getElem?.mp hk
  have htoken := lzTokens_token hM hi
  omega

/-- LZCOMP within its capacity leaves the memory form of its tokens (R256). -/
theorem output_of_lzcomp {s t : State} (h : s.Accepts .lzcomp)
    (hroom : 12 * s.sourceTokens.length ≤ s.operands.dstCap.toNat) (ht : exec .lzcomp s = .next t) :
    s.outputOf t = (flatten s.sourceTokens).flatMap be32 := by
  have hlen : ((flatten s.sourceTokens).flatMap be32).length = 12 * s.sourceTokens.length := by
    rw [flatMap_be32_length, flatten_length]
    omega
  obtain rfl := Host.Outcome.next.inj (ht.symm.trans ((lzcompWritesTheTokens s h).1 hroom))
  rw [← hlen] at hroom ⊢
  rw [← flatten_flatMap_be32]
  exact outputOf_completed _ _ hroom

/-- LZDEC of what LZCOMP wrote sees LZCOMP's tokens. -/
theorem tokenSource_of_lzcomp {s t u : State} (h : s.Accepts .lzcomp)
    (hroom : 12 * s.sourceTokens.length ≤ s.operands.dstCap.toNat) (ht : exec .lzcomp s = .next t)
    (hu : u.Accepts .lzdec) (hsource : u.source = s.outputOf t) : u.tokenSource = s.sourceTokens := by
  obtain ⟨-, -, -, h12, -⟩ := hu
  rw [← tokensOf_source h12, hsource, output_of_lzcomp h hroom ht, wordsOf_flatMap_be32]
  have hW := s.operands.window.isLt
  have hL := s.operands.maxLen.isLt
  exact tokensOf_flatten_lzTokens s.source (by omega) (by omega) (minMatch_pos_of_accepts_lzcomp h)

/-- Settles O57: the replay undoes the scan, and LZDEC replays the tokens that LZCOMP wrote. -/
theorem tokenRoundTrip : Obligations.TokenRoundTrip := by
  unfold Obligations.TokenRoundTrip
  refine ⟨fun x W L M _ _ hM => lzReplay_lzTokens x W L hM le_rfl, ?_⟩
  intro s t h hroom ht u hu hsource hcap
  rw [← source_length s] at hcap
  have hreplay : lzReplay u.operands.dstCap.toNat 0 [] u.tokenSource = .ok s.source := by
    rw [tokenSource_of_lzcomp h hroom ht hu hsource]
    exact lzReplay_lzTokens _ _ _ (minMatch_pos_of_accepts_lzcomp h) hcap
  refine ⟨_, exec_lzdec_of_ok hu hreplay, outputOf_completed _ _ hcap, ?_, rfl, rfl, rfl⟩
  exact (congrArg (BitVec.ofNat 32) (source_length s)).trans ((BitVec.ofNat_toNat ..).trans (BitVec.setWidth_eq _))

end Sys2Proof.Machine
end

section
/-! PROOF. 45_container: what CCOMP writes (R282-R287, R290), CDEC from the parsed record on (R292, R293), the
round trip (R294, R295), and the error CCOMP never meets (R339). -/

namespace Sys2Proof.Machine

open Sys2Proof.Config

/-! ## The success of CCOMP and CDEC (R142, R57, D12) -/

/-- `t` is the success of CCOMP or CDEC from `s` whose pseudocode answers `r`: no codebook, r's results, r's bytes from
DST_ADDR on, and the registers, the error marks and every byte outside r's bytes and the used scratch as before. -/
structure State.Succeeded (s : State) (r : Result) (t : State) : Prop where
  finished : t.Finished
  registers : s.SameRegisters t
  cb : t.cb = none
  err : t.err = s.err
  errcode : t.errcode = s.errcode
  errinfo : t.errinfo = s.errinfo
  res0 : t.res0.toNat = r.out.length
  res1 : t.res1 = r.res1
  res2 : t.res2 = r.res2
  output : s.outputOf t = r.out
  frame : ∀ a, (a < s.operands.dstAddr.toNat ∨ s.operands.dstAddr.toNat + r.out.length ≤ a) →
    (r.scratchUsed = true → ¬ s.InScratch a) → t.lmem.readByte a = s.lmem.readByte a

/-- Where the pseudocode of an accepted CCOMP or CDEC answers, the command ends in that success. -/
theorem exec_succeeds {s : State} {i : Instr} {r : Result} (hi : i = .ccomp ∨ i = .cdec) (h : s.Accepts i)
    (hb : bodyOf i (s.inputs (shapeOf i)) = .ok r) : ∃ t, exec i s = .next t ∧ s.Succeeded r t := by
  obtain ⟨hclears, hnot⟩ := clears_and_not_installs hi
  have hdst : i.usesDestination = true := by rcases hi with rfl | rfl <;> rfl
  refine ⟨_, exec_of_ok h hb, ?_⟩
  exact
    { finished := by simp [State.Finished]
      registers := by simp [State.SameRegisters]
      cb := by simp [installs_eq_none hnot hb, hclears]
      err := by simp
      errcode := by simp
      errinfo := by simp
      res0 := by rw [State.succeed_res0, res0_toNat_of_usesDestination hdst hb]
      res1 := State.succeed_res1 _ _
      res2 := State.succeed_res2 _ _
      output := outputOf_succeed h hdst hb
      frame := fun a hout hscr => by
        rw [readByte_succeed_outside, State.beginExecution_lmem]
        · rwa [State.beginExecution_operands]
        · simpa only [State.InScratch, State.beginExecution_operands] using hscr }

namespace State.Succeeded

variable {s t : State} {r : Result} (h : s.Succeeded r t)
include h

theorem res0_eq : t.res0 = BitVec.ofNat 32 r.out.length := by
  rw [← h.res0, BitVec.ofNat_toNat, BitVec.setWidth_eq]

theorem readBytes_eq : t.lmem.readBytes s.operands.dstAddr.toNat r.out.length = r.out := by
  rw [← h.res0]
  exact h.output

end State.Succeeded

/-! ## Candidate B and the record CCOMP writes (R282-R286) -/

namespace Inputs

variable (x : Inputs)

/-- The codebook of candidate B (R286). -/
def codebookB : Codebook := codebookOf (freqTable (flatten x.tokens))

/-- The encoded tokens of candidate B (R286). -/
def bitsB : Bits := (flatten x.tokens).flatMap fun v => (x.codebookB.codeOf v).getD []

/-- N reaches MINSIZE, so that candidate B is built (R290). -/
abbrev BuildsB : Prop := x.ops.minSize.toNat ≤ x.src.length

/-- Candidate B is built and viable: its symbols are not too many and its codes not too long (R286, D39). -/
abbrev ViableB : Prop :=
  x.BuildsB ∧ (flatten x.tokens).dedup.length ≤ x.params.maxSymbols ∧ ∀ e ∈ x.codebookB, e.code.length ≤ 32

/-- Candidate B is viable and chosen: smaller than RAW, and within RATIO percent of N (R284). -/
abbrev ChoosesB : Prop :=
  x.ViableB ∧ sizeEnt x.codebookB x.bitsB < sizeRaw x.src.length ∧
    100 * sizeEnt x.codebookB x.bitsB ≤ x.ops.ratio.toNat * x.src.length

/-- The viable candidate, if there is one. -/
def candidateB : Option (Codebook × Bits) := if x.ViableB then some (x.codebookB, x.bitsB) else none

/-- The record of an input (R284, R290). -/
def record : List Byte := if x.ChoosesB then entRecord x.codebookB x.bitsB else rawRecord x.src

/-- What CCOMP answers when it has emitted `out` (R290). -/
def ccompResult (out : List Byte) : Result :=
  { out := out
    res0 := BitVec.ofNat 32 out.length
    res1 := (out.getD 4 0).zeroExtend 32
    res2 := BitVec.ofNat 32 (sizeB x.candidateB)
    scratchUsed := decide x.BuildsB }

/-- Every symbol of candidate B has a code (R339), so that encoding cannot fail. -/
theorem encodeBits_bitsB : encodeBits x.codebookB 0 (flatten x.tokens) = .ok x.bitsB := by
  rw [bitsB, List.flatMap_def]
  refine encodeBits_of_codes ?_ 0
  rw [List.map_map]
  refine List.map_congr_left fun v hv => ?_
  obtain ⟨code, hcode⟩ := Option.isSome_iff_exists.mp (codeOf_codebookOf (flatten x.tokens) v hv)
  rw [codebookB, Function.comp_apply, hcode, Option.getD_some]

/-- Building B fails for want of scratch alone, and gives the viable candidate (R286). -/
theorem buildB_eq (hbuilt : x.BuildsB) : buildB x =
    if x.ops.arg1.toNat < 12 * x.tokens.length then .error (ErrorKind.capacityExceeded.at 2) else .ok x.candidateB := by
  rw [candidateB, buildB]
  refine if_congr Iff.rfl rfl ?_
  rw [freqTable_length]
  split
  · rename_i hmany
    rw [if_neg fun ⟨_, hfew, _⟩ => Nat.not_lt.mpr hfew hmany]
  split
  · rename_i hlong
    obtain ⟨e, he, hlen⟩ := tooLong_eq_true.mp hlong
    rw [if_neg fun ⟨_, _, hshort⟩ => Nat.not_lt.mpr (hshort e he) hlen]
  · rename_i hfew hshort
    rw [if_pos ⟨hbuilt, Nat.not_lt.mp hfew, tooLong_eq_false.mp (Bool.eq_false_iff.mpr hshort)⟩]
    exact congrArg (· >>= _) x.encodeBits_bitsB

theorem sizeB_candidateB : sizeB x.candidateB = if x.ViableB then sizeEnt x.codebookB x.bitsB else 0 := by
  rw [candidateB]
  split <;> rfl

/-- The chosen record is that of B where R284 chooses B, and RAW otherwise. -/
theorem chosenRecord_candidateB : chosenRecord x x.candidateB = x.record := by
  rw [candidateB, record]
  split
  · rename_i hviable
    have hbuilt : x.ops.minSize.toNat ≤ x.src.length := hviable.1
    refine if_congr ?_ rfl rfl
    simp only [chooseB, Bool.and_eq_true, decide_eq_true_eq, hbuilt, true_and]
    exact (and_iff_right hviable).symm
  · rename_i hnot
    rw [if_neg fun hchosen => hnot hchosen.1]
    rfl

/-- The marker is byte 4 of the record (R281). -/
theorem marker_record : (x.record.getD 4 0).zeroExtend 32 = if x.ChoosesB then (1 : Word) else 0 := by
  rw [record]
  split <;> rfl

theorem ccompBody_of_no_scratch (hbuilt : x.BuildsB) (hscratch : x.ops.arg1.toNat < 12 * x.tokens.length) :
    ccompBody x = .error (ErrorKind.capacityExceeded.at 2) := by
  simp only [ccompBody, hbuilt, decide_true, if_true, x.buildB_eq hbuilt, if_pos hscratch, error_bind]

/-- With room for the tokens, or where B is not built, CCOMP comes to emitting its record (R290). -/
theorem ccompBody_of_scratch (hscratch : x.BuildsB → 12 * x.tokens.length ≤ x.ops.arg1.toNat) :
    ccompBody x = emit x x.record >>= fun out => .ok (x.ccompResult out) := by
  rw [← chosenRecord_candidateB]
  by_cases hbuilt : x.BuildsB
  · simp only [ccompBody, ccompResult, hbuilt, decide_true, if_true, x.buildB_eq hbuilt,
      if_neg (Nat.not_lt.mpr (hscratch hbuilt)), ok_bind]
  · have hnone : x.candidateB = none := if_neg fun hviable => hbuilt hviable.1
    simp only [ccompBody, ccompResult, hbuilt, decide_false, hnone]
    rfl

end Inputs

/-! ## CCOMP (R287, R290, R339) -/

/-- What CCOMP of `s` reads. -/
abbrev State.ccompInputs (s : State) : Inputs := s.inputs (shapeOf .ccomp)

section Ccomp

variable {s : State} (h : s.Accepts .ccomp)
include h

theorem exec_ccomp_of_no_scratch (hbuilt : s.ccompInputs.BuildsB)
    (hscratch : s.operands.arg1.toNat < 12 * s.sourceTokens.length) :
    ∃ t, exec .ccomp s = .next t ∧ s.Failed .ccomp (ErrorKind.capacityExceeded.at 2) t :=
  exec_of_error h (s.ccompInputs.ccompBody_of_no_scratch hbuilt hscratch)

variable (hscratch : s.ccompInputs.BuildsB → 12 * s.sourceTokens.length ≤ s.operands.arg1.toNat)
include hscratch

theorem exec_ccomp_of_full (hfull : s.operands.dstCap.toNat < s.ccompInputs.record.length) :
    ∃ t, exec .ccomp s = .next t ∧ s.Failed .ccomp (ErrorKind.capacityExceeded.at 1) t := by
  refine exec_of_error h ?_
  rw [bodyOf, s.ccompInputs.ccompBody_of_scratch hscratch, emit_of_lt hfull, error_bind]

theorem exec_ccomp_of_fits (hfits : s.ccompInputs.record.length ≤ s.operands.dstCap.toNat) :
    ∃ t, exec .ccomp s = .next t ∧ s.Succeeded (s.ccompInputs.ccompResult s.ccompInputs.record) t := by
  refine exec_succeeds (.inl rfl) h ?_
  rw [bodyOf, s.ccompInputs.ccompBody_of_scratch hscratch, emit_of_le hfits, ok_bind]

end Ccomp

/-- A command has one end: what holds of some end holds of the one it comes to. -/
theorem of_exec_eq {i : Instr} {s t : State} {P : State → Prop} (ht : exec i s = .next t)
    (h : ∃ t', exec i s = .next t' ∧ P t') : P t := by
  obtain ⟨t', ht', hP⟩ := h
  obtain rfl := Host.Outcome.next.inj (ht.symm.trans ht')
  exact hP

/-- An accepted CCOMP ends in CapacityExceeded or in the success with its record (R290). -/
theorem exec_ccomp_cases {s t : State} (h : s.Accepts .ccomp) (ht : exec .ccomp s = .next t) :
    (∃ n, s.Failed .ccomp (ErrorKind.capacityExceeded.at n) t) ∨
      s.Succeeded (s.ccompInputs.ccompResult s.ccompInputs.record) t := by
  by_cases hscratch : s.ccompInputs.BuildsB → 12 * s.sourceTokens.length ≤ s.operands.arg1.toNat
  · rcases Nat.lt_or_ge s.operands.dstCap.toNat s.ccompInputs.record.length with hfull | hfits
    · exact .inl ⟨1, of_exec_eq ht (exec_ccomp_of_full h hscratch hfull)⟩
    · exact .inr (of_exec_eq ht (exec_ccomp_of_fits h hscratch hfits))
  · obtain ⟨hbuilt, hshort⟩ := Classical.not_imp.mp hscratch
    exact .inl ⟨2, of_exec_eq ht (exec_ccomp_of_no_scratch h hbuilt (Nat.not_le.mp hshort))⟩

theorem sizeEnt_eq (C : Codebook) (s : Bits) :
    sizeEnt C s = 5 + (serCB C).length + varintLen (1 + ceil8 s.length) + (1 + ceil8 s.length) := by
  rw [sizeEnt, serCBLength_eq]

/-- Settles O42: the record, its marker and its size are those of the candidate that R284 chooses. -/
theorem ccompWritesTheRecord : Obligations.CcompWritesTheRecord := by
  unfold Obligations.CcompWritesTheRecord
  intro s h x n y C bits built viable sizeB chooseB recB recRaw
  have hlen : s.ccompInputs.src.length = n := source_length s
  have hbuilt : s.ccompInputs.BuildsB ↔ built := by rw [Inputs.BuildsB, hlen]; rfl
  have hviable : s.ccompInputs.ViableB ↔ viable := and_congr_left' hbuilt
  have hsize : sizeEnt s.ccompInputs.codebookB s.ccompInputs.bitsB = sizeB := sizeEnt_eq C bits
  have hchoose : s.ccompInputs.ChoosesB ↔ chooseB := by
    rw [Inputs.ChoosesB, hviable, hlen, hsize]; rfl
  have hrecB : entRecord s.ccompInputs.codebookB s.ccompInputs.bitsB = recB := by
    rw [entRecord, stream_length]; rfl
  have hrecRaw : rawRecord s.ccompInputs.src = recRaw := by
    rw [rawRecord, hlen, BitVec.ofNat_toNat, BitVec.setWidth_eq]; rfl
  refine ⟨fun hb => exec_ccomp_of_no_scratch h (hbuilt.mpr hb), fun hscratch rec hyes hno => ?_⟩
  have hscratch' := fun hb => hscratch (hbuilt.mp hb)
  obtain rfl : s.ccompInputs.record = rec := by
    by_cases hc : chooseB
    · rw [hyes hc, ← hrecB]
      exact if_pos (hchoose.mpr hc)
    · rw [hno hc, ← hrecRaw]
      exact if_neg (mt hchoose.mp hc)
  refine ⟨exec_ccomp_of_full h hscratch', fun hfits => ?_⟩
  obtain ⟨t, ht, hsucc⟩ := exec_ccomp_of_fits h hscratch' hfits
  have hmarker := hsucc.res1.trans s.ccompInputs.marker_record
  refine ⟨t, ht, hsucc.finished, hsucc.registers, hsucc.cb, hsucc.err, hsucc.errcode, hsucc.errinfo, hsucc.res0_eq,
    fun hc => ?_, fun hc => ?_, fun hv => ?_, fun hv => ?_, hsucc.readBytes_eq, fun a ha hscr => hsucc.frame a ha ?_⟩
  · rw [hmarker, if_pos (hchoose.mpr hc)]
  · rw [hmarker, if_neg (mt hchoose.mp hc)]
  · rw [hsucc.res2, Inputs.ccompResult, Inputs.sizeB_candidateB, if_pos (hviable.mpr hv), hsize]
  · rw [hsucc.res2, Inputs.ccompResult, Inputs.sizeB_candidateB, if_neg (mt hviable.mp hv)]
    rfl
  · exact fun hu => hscr (hbuilt.mp (of_decide_eq_true hu))

/-- Settles O58: a failure reports no bytes; a success reports its record, RAW or the smaller one of candidate B. -/
theorem containerIsNeverLargerThanRaw : Obligations.ContainerIsNeverLargerThanRaw := by
  unfold Obligations.ContainerIsNeverLargerThanRaw
  intro s t h ht
  rcases exec_ccomp_cases h ht with ⟨n, hzero, -⟩ | hsucc
  · simp [hzero]
  · have hres0 : t.res0.toNat = s.ccompInputs.record.length := hsucc.res0
    have hres1 := hsucc.res1.trans s.ccompInputs.marker_record
    rw [hres0, hres1, ← source_length s]
    by_cases hc : s.ccompInputs.ChoosesB
    · have ⟨_, hsmaller, _⟩ := hc
      have hsize : s.ccompInputs.record.length < 9 + s.source.length := by
        rw [Inputs.record, if_pos hc, entRecord_length]
        exact hsmaller
      exact ⟨Nat.le_of_lt hsize, fun _ => .inr ⟨if_pos hc, hsize⟩⟩
    · have hsize : s.ccompInputs.record.length = 9 + s.source.length := by
        rw [Inputs.record, if_neg hc]
        exact rawRecord_length _
      exact ⟨Nat.le_of_eq hsize, fun _ => .inl ⟨if_neg hc, hsize⟩⟩

/-- An acceptance check raises BadConfig, BadOperand or NoCodebook (R115-R118). -/
theorem acceptanceError_code {sh : Shape} {p : Params} {o : LockedRegs} {v : Bool} {e : Raise}
    (h : acceptanceError sh p o v = some e) : e.kind.code ∈ ([11, 10, 9] : List (BitVec 4)) := by
  obtain ⟨c, hc, rfl⟩ := Option.map_eq_some_iff.mp h
  have hcode := List.mem_map_of_mem (f := fun c => c.2.kind.code) (List.mem_of_find?_eq_some hc)
  simpa [acceptanceChecks, ErrorKind.at, ErrorKind.code] using hcode

/-- Settles O60: the acceptance checks raise other errors, and so does CCOMP's pseudocode; a success keeps ERRCODE 0. -/
theorem ccompNeverMeetsAnUnknownSymbol : Obligations.CcompNeverMeetsAnUnknownSymbol := by
  unfold Obligations.CcompNeverMeetsAnUnknownSymbol
  rintro s t ⟨hinv, cur, hcur, -⟩ ht
  cases hacc : acceptanceError (shapeOf .ccomp) s.params s.operands s.cbValid with
  | some e =>
    obtain rfl := exec_eq_next ht
    rw [runCommand_of_acceptanceError hacc, State.raise_errcode]
    exact fun hsix => absurd (hsix ▸ acceptanceError_code hacc) (by decide)
  | none =>
    rcases exec_ccomp_cases (accepts_of_acceptanceError hacc) ht with ⟨n, -, -, -, -, hcode, -⟩ | hsucc
    · rw [hcode]
      exact (by decide : ErrorKind.capacityExceeded.code ≠ 6)
    · obtain ⟨-, hcode, -⟩ := hinv.clear_of_busy ((s.busy_eq_true_iff).mpr ⟨cur, hcur⟩)
      rw [hsucc.errcode, hcode]
      decide

/-! ## CDEC from the parsed record on (R292, R293) -/

section DecodePath

variable {x : Inputs} {C : Codebook} {bits : Bits} {p : Nat}

theorem decodePath_of_error {e : Raise} (hdecode : decodeBits C x.ops.arg1.toNat (ErrorKind.capacityExceeded.at 2)
    (ErrorKind.corruptBitstream.at p) bits [] 0 = .error e) : decodePath x C bits p = .error e := by
  rw [decodePath, hdecode, error_bind]

/-- The decoded symbols must be whole tokens, and are then replayed (R292). -/
theorem decodePath_of_symbols {syms : List Word} (hdecode : decodeBits C x.ops.arg1.toNat
    (ErrorKind.capacityExceeded.at 2) (ErrorKind.corruptBitstream.at p) bits [] 0 = .ok syms) :
    decodePath x C bits p = if syms.length % 3 ≠ 0 then .error (ErrorKind.corruptBitstream.at p)
      else lzReplay x.ops.dstCap.toNat 0 [] (tokensOf syms) := by
  rw [decodePath, hdecode, ok_bind]

/-- What the decode path answers fits the destination (R257 check d). -/
theorem decodePath_length {out : List Byte} (h : decodePath x C bits p = .ok out) : out.length ≤ x.ops.dstCap.toNat := by
  obtain ⟨syms, -, h⟩ := bind_eq_ok.mp h
  split at h
  · cases h
  · exact lzReplay_length h (Nat.zero_le _)

end DecodePath

/-- What CDEC of `s` reads. -/
abbrev State.cdecInputs (s : State) : Inputs := s.inputs (shapeOf .cdec)

/-- What CDEC answers when it has decoded an entropy record to `out` (R293). -/
def cdecResult (out : List Byte) (stop : Nat) : Result :=
  { out := out, res0 := BitVec.ofNat 32 out.length, res1 := BitVec.ofNat 32 stop, res2 := 1, scratchUsed := true }

section Cdec

variable {s : State} (h : s.Accepts .cdec)
include h

theorem exec_cdec_of_raw_full {payload : List Byte} {stop : Nat}
    (hparse : parseRecord s.params.maxSymbols s.source = .ok (.raw payload stop))
    (hfull : s.operands.dstCap.toNat < payload.length) :
    ∃ t, exec .cdec s = .next t ∧ s.Failed .cdec (ErrorKind.capacityExceeded.at 1) t := by
  have hparse' : parseRecord s.cdecInputs.params.maxSymbols s.cdecInputs.src = .ok (.raw payload stop) := hparse
  refine exec_of_error h ?_
  simp only [bodyOf, cdecBody, hparse', ok_bind, emit_of_lt (x := s.cdecInputs) hfull, error_bind]

variable {C : Codebook} {bits : Bits} {p stop : Nat}
  (hparse : parseRecord s.params.maxSymbols s.source = .ok (.ent C bits p stop))
include hparse

theorem exec_cdec_of_path_error {e : Raise} (hpath : decodePath s.cdecInputs C bits p = .error e) :
    ∃ t, exec .cdec s = .next t ∧ s.Failed .cdec e t := by
  have hparse' : parseRecord s.cdecInputs.params.maxSymbols s.cdecInputs.src = .ok (.ent C bits p stop) := hparse
  refine exec_of_error h ?_
  simp only [bodyOf, cdecBody, hparse', ok_bind, hpath, error_bind]

theorem exec_cdec_of_path_ok {out : List Byte} (hpath : decodePath s.cdecInputs C bits p = .ok out) :
    ∃ t, exec .cdec s = .next t ∧ s.Succeeded (cdecResult out stop) t := by
  have hparse' : parseRecord s.cdecInputs.params.maxSymbols s.cdecInputs.src = .ok (.ent C bits p stop) := hparse
  refine exec_succeeds (.inr rfl) h ?_
  simp only [bodyOf, cdecBody, hparse', ok_bind, hpath, emit_of_le (decodePath_length hpath)]
  rfl

end Cdec

/-- Settles O43: CDEC fails as the parser does, puts a RAW payload out, and does with an entropy record what the decode
path does. -/
theorem cdecDecodesTheRecord : Obligations.CdecDecodesTheRecord := by
  unfold Obligations.CdecDecodesTheRecord
  intro s h
  refine ⟨fun e => exec_cdec_of_error h, fun payload stop hparse =>
    ⟨exec_cdec_of_raw h hparse, exec_cdec_of_raw_full h hparse⟩, ?_⟩
  intro C bits p stop hparse corrupt decoded
  refine ⟨fun e he => exec_cdec_of_path_error h hparse (decodePath_of_error he), fun syms hsyms => ?_⟩
  have hpath := decodePath_of_symbols (x := s.cdecInputs) hsyms
  refine ⟨fun hrest => exec_cdec_of_path_error h hparse (hpath.trans (if_pos hrest)), fun hwhole => ?_⟩
  rw [if_neg (not_not.mpr hwhole)] at hpath
  refine ⟨fun e he => exec_cdec_of_path_error h hparse (hpath.trans he), fun out hout => ?_⟩
  obtain ⟨t, ht, hsucc⟩ := exec_cdec_of_path_ok h hparse (hpath.trans hout)
  exact ⟨t, ht, hsucc.finished, hsucc.registers, hsucc.cb, hsucc.err, hsucc.errcode, hsucc.errinfo, hsucc.res0_eq,
    hsucc.res1, hsucc.res2, hsucc.readBytes_eq, fun a ha hscr => hsucc.frame a ha fun _ => hscr⟩

/-! ## CDEC of what CCOMP wrote (R294, R295) -/

theorem exec_cdec_of_rawRecord {u : State} (hu : u.Accepts .cdec) {x rest : List Byte} (hx : x.length < 2 ^ 32)
    (hsource : u.source = rawRecord x ++ rest) (hcap : x.length ≤ u.operands.dstCap.toNat) :
    exec .cdec u = .next { u.completed x x.length (rawRecord x).length 0 with cb := none } := by
  rw [rawRecord_length]
  exact exec_cdec_of_raw hu (hsource ▸ parseRecord_rawRecord _ x rest hx) hcap

/-- The codebook of a viable candidate B is legal (R56). -/
theorem Inputs.ViableB.legal {x : Inputs} (h : x.ViableB) : x.codebookB.Legal x.params.maxSymbols := by
  obtain ⟨-, hfew, hshort⟩ := h
  exact codebookOf_legal _ (freqTable_sorted _) _ (freqTable_length _ ▸ hfew) (tooLong_eq_false.mpr hshort)

/-- Decoding undoes the encoding of candidate B, with room for its tokens (R223, R255). -/
theorem Inputs.decodePath_bitsB {x y : Inputs} (p : Nat) (hM : 1 ≤ x.ops.minMatch.toNat)
    (hroom : 12 * x.tokens.length ≤ y.ops.arg1.toNat) (hcap : x.src.length ≤ y.ops.dstCap.toNat) :
    decodePath y x.codebookB x.bitsB p = .ok x.src := by
  obtain ⟨hasc, hprefix, hpos, -⟩ := codebookOf_spec _ (freqTable_sorted (flatten x.tokens))
  have hlen := flatten_length x.tokens
  have hdecode := decodeBits_encodeBits hasc hprefix hpos y.ops.arg1.toNat (ErrorKind.capacityExceeded.at 2)
    (ErrorKind.corruptBitstream.at p) _ 0 0 _ x.encodeBits_bitsB (by omega)
  have hW := x.ops.window.isLt
  have hL := x.ops.maxLen.isLt
  refine (decodePath_of_symbols hdecode).trans ?_
  rw [if_neg (by omega), Inputs.tokens, tokensOf_flatten_lzTokens x.src (by omega) (by omega) hM]
  exact lzReplay_lzTokens x.src _ _ hM hcap

/-- CDEC of the record of a chosen candidate B, with room for its tokens and its input (R294). -/
theorem exec_cdec_of_entRecord {u : State} (hu : u.Accepts .cdec) {x : Inputs} {rest : List Byte} (hviable : x.ViableB)
    (hparams : x.params.wellFormed = true) (hp : u.params = x.params) (hM : 1 ≤ x.ops.minMatch.toNat)
    (hlen : (entRecord x.codebookB x.bitsB).length < 2 ^ 32)
    (hsource : u.source = entRecord x.codebookB x.bitsB ++ rest)
    (hroom : 12 * x.tokens.length ≤ u.operands.arg1.toNat) (hcap : x.src.length ≤ u.operands.dstCap.toNat) :
    ∃ v, exec .cdec u = .next v ∧ u.Succeeded (cdecResult x.src (entRecord x.codebookB x.bitsB).length) v := by
  have hlegal := Inputs.ViableB.legal hviable
  have ⟨_, _, _, hmax⟩ := hlegal
  have hcount : x.codebookB.length < 2 ^ 32 := Nat.lt_of_le_of_lt hmax (maxSymbols_lt hparams)
  have hstream : (stream x.bitsB).length < 2 ^ 32 := by
    rw [entRecord_length, sizeEnt] at hlen
    rw [stream_length]
    omega
  have hparse := parseRecord_entRecord x.params.maxSymbols x.codebookB x.bitsB rest hlegal hcount hstream
  rw [← hsource, ← hp] at hparse
  exact exec_cdec_of_path_ok hu hparse (Inputs.decodePath_bitsB _ hM hroom hcap)

/-- CCOMP is not accepted with a MIN_MATCH of 0 (R115). -/
theorem minMatch_pos_of_accepts_ccomp {s : State} (h : s.Accepts .ccomp) : 1 ≤ s.operands.minMatch.toNat := by
  obtain ⟨-, -, hmin, -⟩ := h
  exact Nat.pos_of_ne_zero (BitVec.toNat_ne_iff_ne.mpr hmin)

/-- Settles O59: the record CCOMP leaves is the RAW one or that of candidate B, and CDEC undoes each. -/
theorem containerRoundTrip : Obligations.ContainerRoundTrip := by
  unfold Obligations.ContainerRoundTrip
  intro s t hparams h ht hres u rest hu hp hsource hcap hroom
  rcases exec_ccomp_cases h ht with ⟨n, hzero, -⟩ | hsucc
  · exact absurd hzero hres
  have hN : s.operands.srcLen = BitVec.ofNat 32 s.source.length := by
    rw [source_length, BitVec.ofNat_toNat, BitVec.setWidth_eq]
  have hx : s.source.length < 2 ^ 32 := source_length s ▸ s.operands.srcLen.isLt
  rw [← source_length] at hcap
  have hres0 : t.res0 = BitVec.ofNat 32 s.ccompInputs.record.length := hsucc.res0_eq
  have hres1 := hsucc.res1.trans s.ccompInputs.marker_record
  have hfits : s.ccompInputs.record.length < 2 ^ 32 := hsucc.res0 ▸ t.res0.isLt
  have hrecord : u.source = s.ccompInputs.record ++ rest := hsource.trans (congrArg (· ++ rest) hsucc.output)
  by_cases hc : s.ccompInputs.ChoosesB
  · have hent : s.ccompInputs.record = entRecord s.ccompInputs.codebookB s.ccompInputs.bitsB := if_pos hc
    have ⟨hviable, _⟩ := hc
    rw [if_pos hc] at hres1
    rw [hent] at hrecord hfits hres0
    obtain ⟨v, hv, hdec⟩ := exec_cdec_of_entRecord hu hviable hparams hp (minMatch_pos_of_accepts_ccomp h) hfits hrecord
      (hroom hres1) hcap
    exact ⟨v, hv, hdec.output, hdec.res0_eq.trans hN.symm, hdec.res1.trans hres0.symm, hdec.res2.trans hres1.symm,
      hdec.err, hdec.finished⟩
  · have hraw : s.ccompInputs.record = rawRecord s.source := if_neg hc
    rw [if_neg hc] at hres1
    rw [hraw] at hrecord hres0
    exact ⟨_, exec_cdec_of_rawRecord hu hx hrecord hcap, outputOf_completed (rawRecord s.source).length 0 hcap, hN.symm,
      hres0.symm, hres1.symm, rfl, rfl, rfl⟩

end Sys2Proof.Machine
end

section
/-! PROOF. 60_exceptions: the state after an error completion (R322, R326). -/

namespace Sys2Proof.Machine

open Sys2Proof.Config

/-- In a state of the invariant a command that ends with ERR has raised: at its acceptance checks, or in its pseudocode
after them (R142, R322, R324). -/
theorem runCommand_err_cases {s : State} {i : Instr} (h : s.Runs i)
    (herr : (s.runCommand (shapeOf i) (bodyOf i)).err = true) :
    (∃ e, acceptanceError (shapeOf i) s.params s.operands s.cbValid = some e ∧
      s.runCommand (shapeOf i) (bodyOf i) = s.raise e) ∨
    (acceptanceError (shapeOf i) s.params s.operands s.cbValid = none ∧ ∃ e, bodyOf i (s.inputs (shapeOf i)) = .error e ∧
      s.runCommand (shapeOf i) (bodyOf i) =
        ((s.beginExecution (shapeOf i)).scramble ((shapeOf i).written s.operands)).raise e) := by
  obtain ⟨hinv, cur, hcur, -⟩ := h
  rcases runCommand_cases s (shapeOf i) (bodyOf i) with hacc | ⟨hacc, hbody | ⟨r, -, hend⟩⟩
  · exact .inl hacc
  · exact .inr ⟨hacc, hbody⟩
  · obtain ⟨hclear, -⟩ := hinv.clear_of_busy ((s.busy_eq_true_iff).mpr ⟨cur, hcur⟩)
    rw [hend, State.succeed_err, State.beginExecution_err, hclear] at herr
    cases herr

/-- An error of the pseudocode leaves a free value at every byte that the command may write (R326, item 1). -/
theorem readByte_raise_inside {s : State} {i : Instr} {a : Nat} (e : Raise) (ha : s.MayWrite i a) :
    (((s.beginExecution (shapeOf i)).scramble ((shapeOf i).written s.operands)).raise e).lmem.readByte a =
      freeByte s.draws a := by
  rw [State.raise_lmem, readByte_scramble_inside _ _ _ (exists_written ha), State.beginExecution_draws]

/-- Settles O12: an acceptance error raises in the state as it was; an error of the pseudocode draws over the regions the
command may write and keeps what the beginning of execution made of CB. -/
theorem stateAfterAnError : Obligations.StateAfterAnError := by
  unfold Obligations.StateAfterAnError
  intro s t i hruns ht herr
  obtain rfl := exec_eq_next ht
  obtain ⟨hregs, -⟩ := runCommand_frame s (shapeOf i) (bodyOf i)
  have houtside (a : Nat) (ha : ¬ s.MayWrite i a) := readByte_runCommand_outside ha
  rcases runCommand_err_cases hruns herr with ⟨e, hacc, hend⟩ | ⟨hacc, e, -, hend⟩
  · have hnot : ¬ s.Accepts i := fun h => by simp [acceptanceError_of_accepts h] at hacc
    rw [hend]
    exact ⟨⟨rfl, rfl, rfl⟩, rfl, fun h => absurd h hnot, fun _ => ⟨rfl, rfl⟩⟩
  · have hyes : s.Accepts i := accepts_of_acceptanceError hacc
    refine ⟨?_, hregs, fun _ => ⟨⟨s.draws, fun a ha => ?_⟩, houtside, ?_⟩, fun h => absurd hyes h⟩
    all_goals rw [hend]
    · exact ⟨rfl, rfl, rfl⟩
    · exact readByte_raise_inside e ha
    · exact beginExecution_cb s i

end Sys2Proof.Machine
end

section
/-! PROOF. 60_exceptions: the errors each command can complete with (R320, R321, R323, R340). -/

namespace Sys2Proof.Machine

/-- The command's row of R340 lists the error. -/
abbrev Raise.Listed (e : Raise) (arg0 : Word) (i : Instr) : Prop := ErrorListed arg0 i e.kind.code.toNat e.info

/-! ## Acceptance errors (R115-R118) -/

/-- The errors of a command's acceptance checks, each with what the tables of R83 and R115-R118 say of the command. -/
inductive AcceptanceRaises (i : Instr) : Raise → Prop where
  | config {info : Word} (h : i.checksConfig = true) (hinfo : info ∈ ([0x44, 0x48, 0x4C] : List Word)) :
      AcceptanceRaises i { kind := .badConfig, info := info }
  | sourceBounds (h : i.usesSource = true) : AcceptanceRaises i { kind := .badOperand, info := 1 }
  | destinationBounds (h : i.usesDestination = true) : AcceptanceRaises i { kind := .badOperand, info := 2 }
  | scratchBounds (h : i.usesScratch = true) : AcceptanceRaises i { kind := .badOperand, info := 3 }
  | alignment (h : i.sourceIsWords = true ∨ i.destinationIsWords = true ∨ i.usesScratch = true) :
      AcceptanceRaises i { kind := .badOperand, info := 4 }
  | overlap (h : i.usesSource = true ∧ i.usesDestination = true) : AcceptanceRaises i { kind := .badOperand, info := 5 }
  | argument (h : i = .bunpack false) : AcceptanceRaises i { kind := .badOperand, info := 6 }
  | codebook (h : i.readsCodebook = true) : AcceptanceRaises i { kind := .noCodebook, info := 0 }

/-- A command with a scratch region has a source and a destination too (R83). -/
theorem usesSource_and_usesDestination_of_usesScratch {i : Instr} (h : i.usesScratch = true) :
    i.usesSource = true ∧ i.usesDestination = true := by
  cases i with
  | ccomp | cdec => exact ⟨rfl, rfl⟩
  | _ => cases h

/-- One condition of a list of checks: what holds of its error and of the later ones' holds of the error the list gives. -/
theorem of_ite_eq_some {c : Prop} [Decidable c] {a : Raise} {o : Option Raise} {P : Raise → Prop} (hc : c → P a)
    (ho : ∀ e, o = some e → P e) (e : Raise) (h : (if c then some a else o) = some e) : P e := by
  split at h
  · obtain rfl := Option.some.inj h
    exact hc ‹c›
  · exact ho e h

/-- The first acceptance check that fails raises one of these errors (R120, R324). -/
theorem acceptanceRaises_of_first {s : State} {i : Instr} (e : Raise) (h : s.firstAcceptanceError i = some e) :
    AcceptanceRaises i e := by
  revert e
  refine of_ite_eq_some ?window <| of_ite_eq_some ?maxLen <| of_ite_eq_some ?minMatch <| of_ite_eq_some ?source <|
    of_ite_eq_some ?destination <| of_ite_eq_some ?scratch <| of_ite_eq_some ?sourceAligned <| of_ite_eq_some ?tokens <|
    of_ite_eq_some ?destinationAligned <| of_ite_eq_some ?scratchAligned <| of_ite_eq_some ?overlap <|
    of_ite_eq_some ?trailing <| of_ite_eq_some ?codebook fun e h => nomatch h
  case window | maxLen | minMatch => exact fun h => .config h.1 (by decide)
  case source => exact fun h => .sourceBounds h.1
  case destination => exact fun h => .destinationBounds h.1
  case scratch => exact fun h => .scratchBounds h.1
  case sourceAligned => exact fun h => .alignment (.inl h.1)
  case tokens => exact fun h => .alignment (.inl (h.1 ▸ rfl))
  case destinationAligned => exact fun h => .alignment (.inr (.inl h.1))
  case scratchAligned => exact fun h => .alignment (.inr (.inr h.1))
  case trailing => exact fun h => .argument h.1
  case codebook => exact fun h => .codebook h.1
  case overlap =>
    rintro (⟨hs, hd, -⟩ | ⟨-, hscratch, -⟩ | ⟨-, hscratch, -⟩)
    · exact .overlap ⟨hs, hd⟩
    · exact .overlap (usesSource_and_usesDestination_of_usesScratch hscratch)
    · exact .overlap (usesSource_and_usesDestination_of_usesScratch hscratch)

/-- R340, column "acceptance errors": a row lists what the command's checks raise. -/
theorem AcceptanceRaises.listed {i : Instr} {e : Raise} (h : AcceptanceRaises i e) (arg0 : Word) : e.Listed arg0 i := by
  cases h with
  | config h hinfo => cases i <;> simp_all [ErrorListed, ErrorKind.code, Instr.checksConfig]
  | sourceBounds h => cases i <;> simp_all [ErrorListed, ErrorKind.code, Instr.usesSource]
  | destinationBounds h => cases i <;> simp_all [ErrorListed, ErrorKind.code, Instr.usesDestination]
  | scratchBounds h => cases i <;> simp_all [ErrorListed, ErrorKind.code, Instr.usesScratch]
  | alignment h =>
    cases i <;>
      simp_all [ErrorListed, ErrorKind.code, Instr.sourceIsWords, Instr.destinationIsWords, Instr.usesScratch]
  | overlap h => cases i <;> simp_all [ErrorListed, ErrorKind.code, Instr.usesSource, Instr.usesDestination]
  | argument h => subst h; simp [ErrorListed, ErrorKind.code]
  | codebook h => cases i <;> simp_all [ErrorListed, ErrorKind.code, Instr.readsCodebook]

/-! ## What the codecs raise -/

/-- R182: the reader raises at the lead byte's cursor. -/
theorem readVarInt_error {B : List Byte} {c : Nat} {e : Raise} (h : readVarInt B c = .error e) :
    e = ErrorKind.malformedVarInt.at c := by
  rcases varint_cases B c with hcut | ⟨v, d, hat⟩
  · exact Except.error.inj (h.symm.trans (readVarInt_of_cut hcut))
  · cases h.symm.trans (readVarInt_of_at hat)

/-- R161: the stream form raises CorruptBitstream with the caller's information. -/
theorem streamBits_error {B : List Byte} {info : Nat} {e : Raise} (h : streamBits B info = .error e) :
    e = ErrorKind.corruptBitstream.at info := by
  rw [streamBits_eq] at h
  split at h
  · exact (Except.error.inj h).symm
  · cases h

theorem bunpackBits_error {p : Bool} {x : Inputs} {e : Raise} (h : bunpackBits p x = .error e) :
    e = ErrorKind.corruptBitstream.at 0 := by
  unfold bunpackBits at h
  split at h
  · exact streamBits_error h
  · split at h
    · exact (Except.error.inj h).symm
    · cases h

/-- R213: encoding raises UnknownSymbol alone. -/
theorem encodeBits_error {C : Codebook} {x : List Word} {i : Nat} {e : Raise} (h : encodeBits C i x = .error e) :
    e.kind = .unknownSymbol := by
  induction x generalizing i with
  | nil => cases h
  | cons a x ih =>
    rw [encodeBits] at h
    split at h
    · obtain rfl := Except.error.inj h
      rfl
    · rcases bind_eq_error.mp h with hrest | ⟨_, -, hok⟩
      · exact ih hrest
      · cases hok

/-- R215: decoding raises one of the caller's two errors. -/
theorem decodeBits_error {C : Codebook} {cap : Nat} {full tail : Raise} {s cand : Bits} {k : Nat} {e : Raise}
    (h : decodeBits C cap full tail s cand k = .error e) : e = full ∨ e = tail := by
  induction s generalizing cand k with
  | nil =>
    rw [decodeBits] at h
    split at h
    · cases h
    · exact .inr (Except.error.inj h).symm
  | cons b s ih =>
    rw [decodeBits] at h
    split at h
    · exact ih h
    · split at h
      · exact .inl (Except.error.inj h).symm
      · rcases bind_eq_error.mp h with hrest | ⟨_, -, hok⟩
        · exact ih hrest
        · cases hok

/-- R257: a replay raises InvalidBackReference, or CapacityExceeded(1) by check (d). -/
theorem lzReplay_error {cap t : Nat} {out : List Byte} {T : List Token} {e : Raise} (h : lzReplay cap t out T = .error e) :
    e.kind = .invalidBackReference ∨ e = ErrorKind.capacityExceeded.at 1 := by
  induction T generalizing t out with
  | nil => cases h
  | cons k T ih =>
    by_cases hbad : k.BadAt out.length
    · obtain rfl := Except.error.inj ((lzReplay_of_bad T hbad).symm.trans h)
      exact .inl rfl
    · rcases Nat.lt_or_ge cap (out.length + k.added) with hfull | hroom
      · exact .inr (Except.error.inj ((lzReplay_of_full T hbad hfull).symm.trans h)).symm
      · obtain ⟨_, -, -, hnext⟩ := lzReplay_of_good T hbad hroom
        exact ih (hnext.symm.trans h)

/-- R217: the parser raises only what is wrong with the codebook at its cursor. -/
theorem codebookFails_of_parseCB {n : Nat} {B : List Byte} {p : Nat} {e : Raise} (h : parseCB n B p = .error e) :
    CodebookFails n B p e := by
  rcases codebook_cases n B p with ⟨E, q, hat⟩ | ⟨e', hfails⟩
  · obtain ⟨C, -, -, hok⟩ := parseCB_of_at hat
    cases h.symm.trans hok
  · obtain rfl := Except.error.inj (h.symm.trans (parseCB_of_fails hfails))
    exact hfails

theorem EntryFails.listed {B : List Byte} {E : List Entry} {a : Nat} {e : Raise} (h : EntryFails B E a e) (arg0 : Word) :
    e.Listed arg0 .hdeser := by
  rcases h with ⟨-, rfl⟩ | ⟨_, _, -, -, rfl⟩ | ⟨_, _, _, -, -, rfl⟩ | ⟨_, _, _, _, -, -, -, rfl⟩ |
    ⟨_, _, _, _, -, -, -, -, -, rfl⟩ | ⟨_, _, -, -, rfl⟩ <;>
  simp [ErrorListed, ErrorKind.code]

theorem CodebookFails.listed {n : Nat} {B : List Byte} {p : Nat} {e : Raise} (h : CodebookFails n B p e) (arg0 : Word) :
    e.Listed arg0 .hdeser := by
  rcases h with ⟨-, rfl⟩ | ⟨_, _, -, -, rfl⟩ | ⟨_, _, _, _, -, -, -, -, -, hentry⟩
  · simp [ErrorListed, ErrorKind.code]
  · simp [ErrorListed, ErrorKind.code]
  · exact hentry.listed arg0

/-! ## Records (R291, R292) -/

/-- CDEC's row lists all of HDESER's (R340), whose parser it shares. -/
theorem Raise.Listed.cdec_of_hdeser {e : Raise} {arg0 : Word} (h : e.Listed arg0 .hdeser) : e.Listed arg0 .cdec := by
  simp only [Raise.Listed, ErrorListed, List.mem_cons, List.not_mem_nil, or_false] at h ⊢
  tauto

theorem parseRaw_error {B : List Byte} {e : Raise} (h : parseRaw B = .error e) : e.kind = .truncatedPayload := by
  simp only [parseRaw] at h
  split at h
  · obtain rfl := Except.error.inj h
    rfl
  · split at h
    · obtain rfl := Except.error.inj h
      rfl
    · cases h

theorem parseEnt_error {n : Nat} {B : List Byte} {e : Raise} (h : parseEnt n B = .error e) (arg0 : Word) :
    e.Listed arg0 .cdec := by
  rcases bind_eq_error.mp h with hcb | ⟨⟨C, q⟩, hcb, -⟩
  · exact ((codebookFails_of_parseCB hcb).listed arg0).cdec_of_hdeser
  · rcases varint_cases B q with hcut | ⟨len, p, hat⟩
    · obtain rfl := Except.error.inj (h.symm.trans (parseEnt_of_cut hcb hcut))
      simp [ErrorListed, ErrorKind.code]
    · rw [parseEnt_of_at hcb hat] at h
      split_ifs at h
      all_goals
        obtain rfl := Except.error.inj h
        simp [ErrorListed, ErrorKind.code]

theorem parseRecord_error {n : Nat} {B : List Byte} {e : Raise} (h : parseRecord n B = .error e) (arg0 : Word) :
    e.Listed arg0 .cdec := by
  unfold parseRecord at h
  split at h
  · obtain rfl := Except.error.inj h
    simp [ErrorListed, ErrorKind.code, ErrorKind.at]
  · split at h
    · obtain rfl := Except.error.inj h
      simp [ErrorListed, ErrorKind.code, ErrorKind.at]
    · split_ifs at h
      · obtain rfl := Except.error.inj h
        simp [ErrorListed, ErrorKind.code, ErrorKind.at]
      · simp [ErrorListed, parseRaw_error h, ErrorKind.code]
      · exact parseEnt_error h arg0

theorem decodePath_error {x : Inputs} {C : Codebook} {s : Bits} {p : Nat} {e : Raise} (h : decodePath x C s p = .error e)
    (arg0 : Word) : e.Listed arg0 .cdec := by
  rcases bind_eq_error.mp h with hdecode | ⟨syms, -, hreplay⟩
  · rcases decodeBits_error hdecode with rfl | rfl <;> simp [ErrorListed, ErrorKind.code, ErrorKind.at]
  · split at hreplay
    · obtain rfl := Except.error.inj hreplay
      simp [ErrorListed, ErrorKind.code, ErrorKind.at]
    · rcases lzReplay_error hreplay with hkind | rfl
      · simp [ErrorListed, hkind, ErrorKind.code]
      · simp [ErrorListed, ErrorKind.code, ErrorKind.at]

/-! ## Execution errors (R340) -/

/-- Where the pseudocode emits and then answers, only the emission raises (R119). -/
theorem emit_bind_error {x : Inputs} {out : List Byte} {f : List Byte → Result} {e : Raise}
    (h : (emit x out >>= fun o => .ok (f o)) = .error e) : e = ErrorKind.capacityExceeded.at 1 := by
  rcases bind_eq_error.mp h with hemit | ⟨_, -, hok⟩
  · exact (emit_eq_error.mp hemit).1
  · cases hok

/-- The row of every command with a destination lists CapacityExceeded(1) (R119, R340). -/
theorem listed_of_emit {i : Instr} (hi : i.usesDestination = true) {x : Inputs} {out : List Byte}
    {f : List Byte → Result} {e : Raise} (h : (emit x out >>= fun o => .ok (f o)) = .error e) (arg0 : Word) :
    e.Listed arg0 i := by
  obtain rfl := emit_bind_error h
  cases i with
  | nop | vread | hbuild _ | hdeser | hcode => cases hi
  | _ => simp [ErrorListed, ErrorKind.code, ErrorKind.at]

/-- CCOMP raises only for want of scratch or of room for its record (R290, R339). -/
theorem ccompBody_error {x : Inputs} {e : Raise} (h : ccompBody x = .error e) :
    e = ErrorKind.capacityExceeded.at 1 ∨ e = ErrorKind.capacityExceeded.at 2 := by
  by_cases hscratch : x.BuildsB → 12 * x.tokens.length ≤ x.ops.arg1.toNat
  · rw [x.ccompBody_of_scratch hscratch] at h
    exact .inl (emit_bind_error h)
  · obtain ⟨hbuilt, hshort⟩ := Classical.not_imp.mp hscratch
    exact .inr (Except.error.inj (h.symm.trans (x.ccompBody_of_no_scratch hbuilt (Nat.not_le.mp hshort))))

/-- R340, column "execution errors": a row lists what the command's pseudocode raises. -/
theorem bodyOf_error {i : Instr} {x : Inputs} {e : Raise} (h : bodyOf i x = .error e) : e.Listed x.ops.arg0 i := by
  cases i with
  | nop => cases h
  | bpack _ | vwrite | hser | lzcomp => exact listed_of_emit rfl h _
  | bunpack p =>
    rcases bind_eq_error.mp h with hbits | ⟨_, -, h⟩
    · obtain rfl := bunpackBits_error hbits
      simp [ErrorListed, ErrorKind.code, ErrorKind.at]
    · exact listed_of_emit rfl h _
  | vread =>
    rcases bind_eq_error.mp h with hread | ⟨_, -, hok⟩
    · obtain rfl := readVarInt_error hread
      simp [ErrorListed, ErrorKind.code, ErrorKind.at]
    · cases hok
  | hbuild w =>
    simp only [bodyOf, hbuildBody] at h
    split_ifs at h
    all_goals
      obtain rfl := Except.error.inj h
      simp [ErrorListed, ErrorKind.code, ErrorKind.at]
  | henc w =>
    rcases bind_eq_error.mp h with hencode | ⟨_, -, h⟩
    · simp [ErrorListed, encodeBits_error hencode, ErrorKind.code]
    · exact listed_of_emit rfl h _
  | hdec =>
    rcases bind_eq_error.mp h with hstream | ⟨_, -, h⟩
    · obtain rfl := streamBits_error hstream
      simp [ErrorListed, ErrorKind.code, ErrorKind.at]
    · rcases bind_eq_error.mp h with hdecode | ⟨_, -, h⟩
      · rcases decodeBits_error hdecode with rfl | rfl <;> simp [ErrorListed, ErrorKind.code, ErrorKind.at]
      · exact listed_of_emit rfl h _
  | hdeser =>
    rcases bind_eq_error.mp h with hparse | ⟨_, -, hok⟩
    · exact (codebookFails_of_parseCB hparse).listed _
    · cases hok
  | hcode =>
    simp only [bodyOf, hcodeBody] at h
    split at h
    · obtain rfl := Except.error.inj h
      simp [ErrorListed, ErrorKind.code, ErrorKind.at]
    · cases h
  | lzdec =>
    rcases bind_eq_error.mp h with hreplay | ⟨_, -, h⟩
    · rcases lzReplay_error hreplay with hkind | rfl
      · simp [ErrorListed, hkind, ErrorKind.code]
      · simp [ErrorListed, ErrorKind.code, ErrorKind.at]
    · exact listed_of_emit rfl h _
  | ccomp => rcases ccompBody_error h with rfl | rfl <;> simp [ErrorListed, ErrorKind.code, ErrorKind.at]
  | cdec =>
    rcases bind_eq_error.mp h with hparse | ⟨record, -, h⟩
    · exact parseRecord_error hparse _
    · cases record with
      | raw payload stop => exact listed_of_emit rfl h _
      | ent C s p stop =>
        rcases bind_eq_error.mp h with hpath | ⟨_, -, h⟩
        · exact decodePath_error hpath _
        · exact listed_of_emit rfl h _

/-- Settles O13: a command's checks raise the acceptance errors of its row, and its pseudocode the execution errors. -/
theorem errorsAreThoseOfTheTable : Obligations.ErrorsAreThoseOfTheTable := by
  unfold Obligations.ErrorsAreThoseOfTheTable
  intro s t i hruns ht herr
  obtain rfl := exec_eq_next ht
  rcases runCommand_err_cases hruns herr with ⟨e, hacc, hend⟩ | ⟨-, e, hbody, hend⟩
  all_goals rw [hend, State.raise_errcode, State.raise_errinfo]
  · rw [← firstAcceptanceError_eq] at hacc
    exact (acceptanceRaises_of_first e hacc).listed _
  · exact bodyOf_error hbody

end Sys2Proof.Machine
end

section
/-! PROOF. 60_exceptions: what sets and what clears WERR (R328), and the interrupt output (R330). -/

namespace Sys2Proof.Machine

/-! ## The registers that are locked while BUSY (R31, R372) -/

/-- A register whose writes are locked while BUSY: CMD, or one of `lockedCsrs`. -/
def Csr.IsLocked (c : Csr) : Prop := c = .cmd ∨ c ∈ lockedCsrs

/-- Where R328's locked writes go, a locked register lies. -/
theorem exists_csr_isLocked {off : Nat} (h : off = 0x18 ∨ off ∈ lockedOffsets) :
    ∃ c : Csr, c.IsLocked ∧ csrAt off = some c ∧ off % 4 = 0 ∧ off < 0x100 := by
  rcases h with rfl | h
  · exact ⟨.cmd, .inl rfl, rfl, by decide, by decide⟩
  · obtain ⟨c, hc, hat, ho, hlt, -⟩ := exists_lockedCsr off h
    exact ⟨c, .inr hc, hat, ho, hlt⟩

theorem exists_lockedOffset : ∀ c ∈ lockedCsrs, ∃ off ∈ lockedOffsets, csrAt off = some c ∧ off % 4 = 0 := by decide

/-- The converse: a locked register lies nowhere else. -/
theorem offset_of_isLocked {c : Csr} {off : Nat} (h : c.IsLocked) (hat : csrAt off = some c) (ho : off % 4 = 0) :
    off = 0x18 ∨ off ∈ lockedOffsets := by
  rcases h with rfl | hc
  · exact .inl (csrAt_inj (off := 0x18) rfl hat (by decide) ho)
  · obtain ⟨other, hother, hat', ho'⟩ := exists_lockedOffset c hc
    exact .inr (csrAt_inj hat' hat ho' ho ▸ hother)

/-- R31, R372: a write to a locked register sets WERR while BUSY, and keeps it while IDLE. -/
theorem write_locked_eq {c : Csr} (hc : c.IsLocked) (v : Word) (s : State) :
    ∃ idle : State, idle.werr = s.werr ∧ c.write v s = if s.busy then s.setWerr else idle := by
  rcases hc with rfl | hc
  · exact ⟨s.accept v, rfl, rfl⟩
  · cases c with
    | srcAddr | srcLen | dstAddr | dstCap | arg0 | arg1 | cfgWindow | cfgMaxlen | cfgMinmatch | cfgMinsize | cfgRatio =>
      refine ⟨_, ?_, rfl⟩
      rfl
    | _ => simp [lockedCsrs] at hc

theorem write_locked_of_busy {s : State} (hb : s.busy = true) {c : Csr} (hc : c.IsLocked) (v : Word) :
    c.write v s = s.setWerr := by
  obtain ⟨_, -, hw⟩ := write_locked_eq hc v s
  rw [hw, if_pos hb]

/-! ## The accesses that are locked while BUSY (R328, R372) -/

section Busy

variable {s : State} (hb : s.busy = true)
include hb

theorem access_read_lmem_of_busy {off width : Nat} (h : LmemAccessLegal s.params.lmemSize off width) :
    s.access (.read .lmem off width) = s.setWerr.answer (.data 0) := by
  simp only [State.access, lmemLegal_iff.mpr h, hb, if_true]

theorem access_write_lmem_of_busy {off width : Nat} (h : LmemAccessLegal s.params.lmemSize off width) (v : Word) :
    s.access (.write .lmem off width v) = s.setWerr.answer .ok := by
  simp only [State.access, lmemLegal_iff.mpr h, hb, if_true]

theorem access_write_csr_of_busy {off : Nat} (h : off = 0x18 ∨ off ∈ lockedOffsets) (v : Word) :
    s.access (.write .csr off 32 v) = s.setWerr.answer .ok := by
  obtain ⟨c, hc, hat, ho, hlt⟩ := exists_csr_isLocked h
  rw [access_write_csr s v ho hlt, writeCsr_of_csrAt hat, write_locked_of_busy hb hc]

/-- R328: a locked access sets WERR and is answered; it does nothing else. -/
theorem handle_locked {t : State} {e : Event} (he : e.IsLocked s.params.lmemSize) (ht : s.handle e = .next t) :
    ∃ r, t = s.setWerr.answer r := by
  rcases he with ⟨off, v, rfl, hoff⟩ | ⟨off, width, rfl, hlegal⟩ | ⟨off, width, v, rfl, hlegal⟩
  all_goals obtain rfl := Host.Outcome.next.inj ht
  · exact ⟨_, access_write_csr_of_busy hb hoff v⟩
  · exact ⟨_, access_read_lmem_of_busy hb hlegal⟩
  · exact ⟨_, access_write_lmem_of_busy hb hlegal v⟩

end Busy

/-! ## What an event does to WERR (R35, R328, R360-R362) -/

/-- What happens to WERR between `s` and `t`, and the events that bring it about. -/
inductive WerrEffect (s : State) (e : Event) (t : State) : Prop where
  | keeps (h : t.werr = s.werr)
  | sets (hb : s.busy = true) (he : e.IsLocked s.params.lmemSize) (h : t.werr = true)
  | resets (he : e.IsReset) (h : t.werr = false)
  | clears (v : Word) (he : e = .host (.write .csr 0x14 32 v)) (h : t.werr = (s.werr && !v.getLsbD 3))

/-- The port's answer is no part of it. -/
theorem WerrEffect.answer {s t : State} {e : Event} (h : WerrEffect s e t) (r : Response) : WerrEffect s e (t.answer r) := by
  cases h with
  | keeps h => exact .keeps h
  | sets hb he h => exact .sets hb he h
  | resets he h => exact .resets he h
  | clears v he h => exact .clears v he h

theorem resetBlock_werr (s : State) : s.resetBlock.werr = false := by
  rw [resetBlock_eq]
  rfl

theorem write_locked_werrEffect {s : State} {off : Nat} {v : Word} {c : Csr} (hc : c.IsLocked) (hat : csrAt off = some c)
    (ho : off % 4 = 0) : WerrEffect s (.host (.write .csr off 32 v)) (c.write v s) := by
  obtain ⟨idle, hidle, hw⟩ := write_locked_eq hc v s
  rw [hw]
  split
  · exact .sets ‹_› (.inl ⟨off, v, rfl, offset_of_isLocked hc hat ho⟩) rfl
  · exact .keeps hidle

theorem csrWrite_werrEffect {s : State} {off : Nat} {v : Word} {c : Csr} (hat : csrAt off = some c) (ho : off % 4 = 0) :
    WerrEffect s (.host (.write .csr off 32 v)) (c.write v s) := by
  cases c with
  | ctrl =>
    obtain rfl : off = 0x10 := csrAt_inj (off := 0x10) rfl hat (by decide) ho
    simp only [Csr.write, State.writeCtrl]
    split
    · exact .resets (.inr ⟨v, ‹_›, rfl⟩) (resetBlock_werr s)
    · exact .keeps rfl
  | status =>
    obtain rfl : off = 0x14 := csrAt_inj (off := 0x14) rfl hat (by decide) ho
    exact .clears v rfl rfl
  | cmd => exact write_locked_werrEffect (.inl rfl) hat ho
  | srcAddr | srcLen | dstAddr | dstCap | arg0 | arg1 | cfgWindow | cfgMaxlen | cfgMinmatch | cfgMinsize | cfgRatio =>
    exact write_locked_werrEffect (.inr (by decide)) hat ho
  | id | capLmem | capSymbols | capCodelen | errinfo | res0 | res1 | res2 | cbCount | cbMaxlen => exact .keeps rfl

theorem access_werrEffect (s : State) (a : Access) : WerrEffect s (.host a) (s.access a) := by
  cases a with
  | read space off width =>
    cases space with
    | csr =>
      simp only [State.access]
      split
      · exact .keeps rfl
      · exact .keeps rfl
    | lmem =>
      simp only [State.access]
      split
      · split
        · exact .sets ‹_› (.inr (.inl ⟨off, width, rfl, lmemLegal_iff.mp ‹_›⟩)) rfl
        · exact .keeps rfl
      · exact .keeps rfl
  | write space off width v =>
    cases space with
    | csr =>
      simp only [State.access]
      split
      · rename_i hlegal
        obtain ⟨rfl, ho, -⟩ := csrLegal_iff.mp hlegal
        refine WerrEffect.answer ?_ _
        unfold State.writeCsr
        split
        · exact csrWrite_werrEffect ‹_› ho
        · exact .keeps rfl
      · exact .keeps rfl
    | lmem =>
      simp only [State.access]
      split
      · split
        · exact .sets ‹_› (.inr (.inr ⟨off, width, v, rfl, lmemLegal_iff.mp ‹_›⟩)) rfl
        · exact .keeps rfl
      · exact .keeps rfl

/-- Every event does one of the four to WERR; a turn of the sequencer keeps it. -/
theorem handle_werrEffect {s t : State} {e : Event} (ht : s.handle e = .next t) : WerrEffect s e t := by
  cases e with
  | host a =>
    obtain rfl := Host.Outcome.next.inj ht
    exact access_werrEffect s a
  | hardReset =>
    obtain rfl := Host.Outcome.next.inj ht
    exact .resets (.inl rfl) (resetBlock_werr s)
  | core =>
    rcases coreTurn_cases ht with ⟨-, rfl⟩ | ⟨_, -, ⟨i, rfl⟩ | rfl⟩
    · exact .keeps rfl
    · obtain ⟨-, -, -, hwerr, -⟩ := runCommand_frame s (shapeOf i) (bodyOf i)
      exact .keeps hwerr
    · exact .keeps rfl

/-- Settles O27: what a locked access does while BUSY, and which of the four effects can turn WERR over. -/
theorem writeErrorsAreRecorded : Obligations.WriteErrorsAreRecorded := by
  unfold Obligations.WriteErrorsAreRecorded
  intro s t e ht
  refine ⟨fun hb he => ?_, fun hb off width hlegal he => ?_, fun hclear hset => ?_, fun hset hclear => ?_⟩
  · obtain ⟨r, rfl⟩ := handle_locked hb he ht
    rfl
  · subst he
    obtain rfl := Host.Outcome.next.inj ht
    rw [access_read_lmem_of_busy hb hlegal, State.answer_port]
  · cases handle_werrEffect ht with
    | keeps h => simp [h, hclear] at hset
    | sets hb he h => exact ⟨hb, he⟩
    | resets he h => simp [h] at hset
    | clears v he h => simp [h, hclear] at hset
  · cases handle_werrEffect ht with
    | keeps h => simp [h, hset] at hclear
    | sets hb he h => simp [h] at hclear
    | resets he h => exact .inl he
    | clears v he h => exact .inr ⟨v, he, by simpa [h, hset] using hclear⟩

/-! ## DONE and the interrupt output (R330) -/

/-- No host access sets DONE. -/
theorem AccessEffect.done_of_done {s t : State} {a : Access} (h : AccessEffect s a t) (hd : t.done = true) :
    s.done = true := by
  cases h with
  | nothing | lockedOut | irqEnable | setsRegs | storesLmem => exact hd
  | softReset =>
    rw [resetBlock_eq] at hd
    cases hd
  | accepts w => cases hd
  | clearsStatus v _ => exact (Bool.and_eq_true_iff.mp hd).1

/-- Only a turn of the sequencer while BUSY sets DONE (R142, R330). -/
theorem handle_sets_done {s t : State} {e : Event} (ht : s.handle e = .next t) (hs : s.done = false)
    (hd : t.done = true) : e = .core ∧ s.busy = true := by
  cases e with
  | host a =>
    obtain ⟨u, r, hu, heq⟩ := access_effect s a
    obtain rfl : u.answer r = t := heq.symm.trans (Host.Outcome.next.inj ht)
    simp [hu.done_of_done hd] at hs
  | hardReset =>
    obtain rfl := Host.Outcome.next.inj ht
    rw [resetBlock_eq] at hd
    cases hd
  | core =>
    rcases coreTurn_cases ht with ⟨-, rfl⟩ | ⟨cur, hcur, -⟩
    · simp [hd] at hs
    · exact ⟨rfl, (s.busy_eq_true_iff).mpr ⟨cur, hcur⟩⟩

/-- Every turn while BUSY is a completion: it sets DONE, and keeps IRQ_EN (R52, R142). -/
theorem coreTurn_completes {s t : State} (hb : s.busy = true) (ht : s.coreTurn = .next t) :
    t.done = true ∧ t.irqEn = s.irqEn := by
  rcases coreTurn_cases ht with ⟨hidle, -⟩ | ⟨_, -, ⟨i, rfl⟩ | rfl⟩
  · simp [(s.busy_eq_false_iff).mpr hidle] at hb
  · obtain ⟨-, -, hirq, -, -, -, -, -, hdone⟩ := runCommand_frame s (shapeOf i) (bodyOf i)
    exact ⟨hdone, hirq⟩
  · exact ⟨rfl, rfl⟩

theorem irq_of_done_eq_false {s : State} (h : s.done = false) : s.irq = false := by
  rw [State.irq, h, Bool.and_false]

/-- A CTRL write without SRST stores IRQ_EN (R34). -/
theorem access_write_ctrl (s : State) {v : Word} (hv : v.getLsbD 1 = false) :
    s.access (.write .csr 0x10 32 v) = ({ s with irqEn := v.getLsbD 0 } : State).answer .ok := by
  rw [access_write_csr s v (by decide) (by decide), writeCsr_of_csrAt (c := .ctrl) rfl]
  simp only [Csr.write, State.writeCtrl, hv, Bool.false_eq_true, if_false]

/-- Settles O26: what each event makes of DONE and of IRQ_EN, whose conjunction irq is. -/
theorem interruptFollowsDone : Obligations.InterruptFollowsDone := by
  unfold Obligations.InterruptFollowsDone
  refine ⟨fun s => Bool.and_eq_true_iff, fun s t e => handle_sets_done, fun s t hb ht => ?_, fun s v hv => ?_,
    fun s w hb => ?_, fun s t e he ht => ?_, fun s v hv => ?_⟩
  · obtain ⟨hdone, hirq⟩ := coreTurn_completes hb ht
    exact ⟨hdone, by rw [State.irq, hdone, hirq, Bool.and_true]⟩
  · rw [access_write_csr s v (by decide) (by decide), writeCsr_of_csrAt (c := .status) rfl]
    exact irq_of_done_eq_false (by simp [Csr.write, hv])
  · rw [access_write_csr s w (by decide) (by decide), writeCsr_of_csrAt (c := .cmd) rfl]
    exact irq_of_done_eq_false (by simp [Csr.write, State.writeCmd, hb])
  · obtain rfl := handle_reset_eq he ht
    rfl
  · rw [access_write_ctrl s hv]
    refine ⟨rfl, fun h0 => ?_, fun h0 => ?_⟩
    all_goals rw [State.irq, State.answer_irqEn, State.answer_done, h0]
    · exact Bool.false_and _
    · exact Bool.true_and _

end Sys2Proof.Machine
end

section
/-! PROOF. 70_reset_and_hazards: what keeps the operand and configuration registers (R374), and the lockout while BUSY with
the same accesses while IDLE (R372). -/

namespace Sys2Proof.Machine

/-! ## What can change the operand and configuration registers (R31, R374) -/

/-- The locked registers lie at the locked offsets alone. -/
theorem mem_lockedOffsets {c : Csr} (hc : c ∈ lockedCsrs) {off : Nat} (hat : csrAt off = some c) (ho : off % 4 = 0) :
    off ∈ lockedOffsets := by
  obtain ⟨other, hother, hat', ho'⟩ := exists_lockedOffset c hc
  exact csrAt_inj hat' hat ho' ho ▸ hother

/-- A register write leaves them as they are, unless it is a soft reset or goes to one of them. -/
theorem write_regs (c : Csr) (v : Word) (s : State) :
    (c.write v s).regs = s.regs ∨ (c = .ctrl ∧ v.getLsbD 1 = true) ∨ c ∈ lockedCsrs := by
  cases c with
  | ctrl =>
    cases hv : v.getLsbD 1 with
    | true => exact .inr (.inl ⟨rfl, rfl⟩)
    | false => exact .inl (by simp only [Csr.write, State.writeCtrl, hv, Bool.false_eq_true, if_false])
  | cmd =>
    refine .inl ?_
    simp only [Csr.write, State.writeCmd]
    split
    · rfl
    · rfl
  | srcAddr | srcLen | dstAddr | dstCap | arg0 | arg1 | cfgWindow | cfgMaxlen | cfgMinmatch | cfgMinsize | cfgRatio =>
    exact .inr (.inr (by decide))
  | status | id | capLmem | capSymbols | capCodelen | errinfo | res0 | res1 | res2 | cbCount | cbMaxlen => exact .inl rfl

theorem access_read_regs (s : State) (space : Space) (off width : Nat) :
    (s.access (.read space off width)).regs = s.regs := by
  cases space with
  | csr =>
    simp only [State.access]
    split
    · rfl
    · rfl
  | lmem =>
    simp only [State.access]
    split
    · split
      · rfl
      · rfl
    · rfl

theorem access_write_lmem_regs (s : State) (off width : Nat) (v : Word) :
    (s.access (.write .lmem off width v)).regs = s.regs := by
  simp only [State.access]
  split
  · split
    · rfl
    · rfl
  · rfl

/-- The same of a CSR write at any offset, where a locked register's write goes to a locked offset. -/
theorem access_write_csr_regs (s : State) (off width : Nat) (v : Word) :
    (s.access (.write .csr off width v)).regs = s.regs ∨ (Event.host (.write .csr off width v)).IsReset ∨
      (width = 32 ∧ off ∈ lockedOffsets) := by
  simp only [State.access, State.writeCsr]
  split
  · rename_i hlegal
    obtain ⟨rfl, ho, -⟩ := csrLegal_iff.mp hlegal
    rw [State.answer_regs]
    split
    · rename_i c hat
      rcases write_regs c v s with hkeeps | ⟨rfl, hv⟩ | hc
      · exact .inl hkeeps
      · obtain rfl : off = 0x10 := csrAt_inj (off := 0x10) rfl hat (by decide) ho
        exact .inr (.inl (.inr ⟨v, hv, rfl⟩))
      · exact .inr (.inr ⟨rfl, mem_lockedOffsets hc hat ho⟩)
    · exact .inl rfl
  · exact .inl rfl

theorem coreTurn_regs {s t : State} (ht : s.coreTurn = .next t) : t.regs = s.regs := by
  rcases coreTurn_cases ht with ⟨-, rfl⟩ | ⟨_, -, ⟨i, rfl⟩ | rfl⟩
  · rfl
  · obtain ⟨hregs, -⟩ := runCommand_frame s (shapeOf i) (bodyOf i)
    exact hregs
  · rfl

/-- R374, event by event. -/
theorem handle_regs {s t : State} {e : Event} (ht : s.handle e = .next t) (hne : t.regs ≠ s.regs) :
    e.IsReset ∨ ∃ (off : Nat) (v : Word), e = .host (.write .csr off 32 v) ∧ off ∈ lockedOffsets := by
  cases e with
  | hardReset => exact .inl (.inl rfl)
  | core => exact absurd (coreTurn_regs ht) hne
  | host a =>
    obtain rfl := Host.Outcome.next.inj ht
    cases a with
    | read space off width => exact absurd (access_read_regs s space off width) hne
    | write space off width v =>
      cases space with
      | lmem => exact absurd (access_write_lmem_regs s off width v) hne
      | csr =>
        rcases access_write_csr_regs s off width v with hkeeps | hreset | ⟨rfl, hoff⟩
        · exact absurd hkeeps hne
        · exact .inl hreset
        · exact .inr ⟨off, v, rfl, hoff⟩

theorem sameRegisters_runCommand (s : State) (sh : Shape) (body : Inputs → Except Raise Result) :
    s.SameRegisters (s.runCommand sh body) := by
  obtain ⟨hregs, hcmd, hirq, hwerr, hparams, hschedule, hport, -⟩ := runCommand_frame s sh body
  exact ⟨hregs, hcmd, hirq, hwerr, hparams, hschedule, hport⟩

/-- Settles O10: a command's frame, and the events that can change the registers. -/
theorem operandsPersist : Obligations.OperandsPersist := by
  unfold Obligations.OperandsPersist
  refine ⟨fun s t i ht => ?_, fun s t e => handle_regs, fun s w => ⟨rfl, rfl, rfl, rfl⟩⟩
  obtain rfl := exec_eq_next ht
  exact sameRegisters_runCommand s _ _

/-! ## CSR accesses in every state (R31, R34, R372) -/

/-- SRST ends the command and clears IRQ_EN, whatever bit 0 says (R34, R362). -/
theorem access_write_softReset (s : State) {v : Word} (hv : v.getLsbD 1 = true) :
    (s.access (.write .csr 0x10 32 v)).sequencer = .idle ∧ (s.access (.write .csr 0x10 32 v)).irqEn = false := by
  have hreset : s.access (.write .csr 0x10 32 v) = _ := handle_reset_eq (.inr ⟨v, hv, rfl⟩) rfl
  rw [hreset]
  exact ⟨rfl, rfl⟩

theorem access_write_status (s : State) (v : Word) :
    s.access (.write .csr 0x14 32 v) = (s.writeStatus v).answer .ok := by
  rw [access_write_csr s v (by decide) (by decide), writeCsr_of_csrAt (c := .status) rfl]
  rfl

/-- The registers at `readOnlyOffsets` ignore writes. -/
theorem writeCsr_readOnly {off : Nat} (h : off ∈ readOnlyOffsets) :
    off % 4 = 0 ∧ off < 0x100 ∧ ∀ (s : State) (v : Word), s.writeCsr off v = s := by
  revert off
  simp only [readOnlyOffsets, List.forall_mem_cons]
  refine ⟨?_, ?_, ?_, ?_, ?_, ?_, ?_, ?_, ?_, ?_, by simp⟩
  all_goals exact ⟨by decide, by decide, fun _ _ => rfl⟩

/-- A write to a read-only or reserved offset is ignored (R31, R372, D55). -/
theorem access_write_ignored (s : State) {off : Nat} (v : Word)
    (h : off ∈ readOnlyOffsets ∨ (0x60 ≤ off ∧ off < 0x100 ∧ off % 4 = 0)) :
    s.access (.write .csr off 32 v) = s.answer .ok := by
  rcases h with h | ⟨hlo, hhi, ho⟩
  · obtain ⟨ho, hlt, hw⟩ := writeCsr_readOnly h
    rw [access_write_csr s v ho hlt, hw]
  · rw [access_write_csr s v ho hhi]
    simp only [State.writeCsr, csrAt_reserved hlo]

theorem access_read_reserved (s : State) {off : Nat} (hlo : 0x60 ≤ off) (hhi : off < 0x100) (ho : off % 4 = 0) :
    s.access (.read .csr off 32) = s.answer (.data 0) := by
  rw [access_read_csr s ho hhi]
  simp only [State.readCsr, csrAt_reserved hlo]

theorem ctrlWord_eq (s : State) : s.ctrlWord = if s.irqEn then 1 else 0 := by
  unfold State.ctrlWord
  cases s.irqEn
  · rfl
  · rfl

theorem access_read_ctrl (s : State) :
    s.access (.read .csr 0x10 32) = s.answer (.data (if s.irqEn then 1 else 0)) := by
  rw [access_read_csr s (by decide) (by decide), readCsr_of_csrAt (c := .ctrl) rfl, Csr.read, ctrlWord_eq]

/-! ## CSR writes while IDLE (R31, R37, R140) -/

section Idle

variable {s : State} (hb : s.busy = false)
include hb

theorem writeLocked_of_idle (r : LockedRegs) : s.writeLocked r = { s with regs := r } := by
  simp only [State.writeLocked, hb, Bool.false_eq_true, if_false]

theorem access_write_cmd_of_idle (w : Word) : s.access (.write .csr 0x18 32 w) = (s.accept w).answer .ok :=
  (cmdWriteAcceptsACommand s w).1 hb

/-- A write to a register whose write is `writeLocked r` stores `r`. -/
theorem access_write_locked_of_idle {off : Nat} {c : Csr} (hat : csrAt off = some c) (ho : off % 4 = 0)
    (hlt : off < 0x100) {v : Word} {r : LockedRegs} (hw : c.write v s = s.writeLocked r) :
    s.access (.write .csr off 32 v) = { s with regs := r, port := some .ok } := by
  rw [access_write_csr s v ho hlt, writeCsr_of_csrAt hat, hw, writeLocked_of_idle hb]
  rfl

/-- No access sets WERR while IDLE (R328). -/
theorem werr_of_access_of_idle {a : Access} (h : (s.access a).werr = true) : s.werr = true := by
  cases access_werrEffect s a with
  | keeps hkeeps => exact hkeeps ▸ h
  | sets hbusy => simp [hb] at hbusy
  | resets _ hreset => simp [hreset] at h
  | clears v _ hclears => exact (Bool.and_eq_true_iff.mp (hclears ▸ h)).1

end Idle

/-! ## The lockout, row by row (R372) -/

/-- Settles O28: the port's CSR accesses in every state, the locked ones while BUSY, and the same ones while IDLE. -/
theorem lockoutWhileBusy : Obligations.LockoutWhileBusy := by
  unfold Obligations.LockoutWhileBusy
  refine ⟨fun s => ⟨fun v => access_write_ctrl s, fun v => access_write_softReset s, fun v => ?status,
      fun off v => access_write_ignored s v, fun off ⟨_, ho, hlt⟩ => access_read_csr s ho hlt, ?reads,
      fun off => access_read_reserved s⟩,
    fun s hb => ⟨fun off v hoff => access_write_csr_of_busy hb hoff v,
      fun off width hlegal => access_read_lmem_of_busy hb hlegal,
      fun off width v hlegal => access_write_lmem_of_busy hb hlegal v⟩,
    fun s hb => ⟨access_write_cmd_of_idle hb, fun v => ?locked, servesLmem_of_idle hb⟩,
    fun s a hb => werr_of_access_of_idle hb⟩
  case status =>
    rw [access_write_status]
    exact ⟨rfl, rfl, rfl⟩
  case reads =>
    simp only [List.forall_mem_cons]
    exact ⟨rfl, rfl, rfl, rfl, access_read_ctrl s, rfl, rfl, rfl, rfl, rfl, rfl, rfl, rfl, rfl, rfl, rfl, rfl, rfl, rfl,
      rfl, rfl, by simp⟩
  case locked =>
    simp only [List.forall_mem_cons]
    refine ⟨?_, ?_, ?_, ?_, ?_, ?_, ?_, ?_, ?_, ?_, ?_, by simp⟩
    all_goals exact access_write_locked_of_idle hb rfl (by decide) (by decide) rfl

end Sys2Proof.Machine
end
